-- ==== Sys2Proof/Word.lean ====
section
/-! DEFINITION. The byte, and the closed name sets the spec indexes its registers and parameters with. -/

namespace Sys2Proof

/-- A byte is 8 bits, value 0 to 255 (R7). -/
abbrev Byte := BitVec 8

/-- The two rate-limit channels, GEN and DISP (R10, R70); there is no third. -/
inductive Channel where
  | gen
  | disp
deriving DecidableEq, Repr

/-- The two motors, M1 and M2 (R13). -/
inductive Motor where
  | m1
  | m2
deriving DecidableEq, Repr

/-- The four contexts a brake frame is sent in (R137, conflict C11). -/
inductive BrakeContext where
  | m1
  | m2
  | init
  | caller
deriving DecidableEq, Repr

/-- The colour components `CALCRGB` extracts (R123). -/
inductive Component where
  | red
  | green
  | blue
deriving DecidableEq, Repr

end Sys2Proof
end

