-- ==== Sys2Proof/Config.lean ====
section
/-! DEFINITION. What is fixed for the machine: the named parameters of R5 and R6 with the spec's defaults, and the free
values (constants with no body, so that no proof can see what they are). -/

namespace Sys2Proof

/-- The parameters that have a default (R5; D4, D7, D11 of R6), the opcode values of R56 and R57 among them. -/
structure Config where
  /-- `MIN_INTERVAL[GEN]` -/
  minIntervalGen : Nat := 1
  /-- `MIN_INTERVAL[DISP]` -/
  minIntervalDisp : Nat := 50
  /-- `REVERSAL_SETTLE` -/
  reversalSettle : Nat := 10
  /-- `INIT_RETRY_PAUSE` -/
  initRetryPause : Nat := 200
  /-- `CAL_SETTLE`, owed by the caller (R141) -/
  calSettle : Nat := 200
  /-- `SPEED_MAX` -/
  speedMax : Int := 1023
  /-- `DISPLAY_MAX` -/
  displayMax : Nat := 18
  /-- `ACK` -/
  ack : Byte := 0xCA#8
  /-- `MARK_READ` -/
  markRead : Byte := 0x80#8
  /-- `MARK_WRITE` -/
  markWrite : Byte := 0x81#8
  /-- `MARK_DISPLAY` -/
  markDisplay : Byte := 0x82#8
  /-- `INV_BASE` -/
  invBase : Int := 0xFFF
  /-- `ENC_PPR` -/
  encPpr : Int := 7
  /-- `ENC_GEAR` -/
  encGear : Int := 30
  /-- `N_MOTORS`: the motors of `Motor` -/
  nMotors : Nat := 2
  /-- `N_CHANNELS`: the channels of `Channel` -/
  nChannels : Nat := 2
  /-- `N_LEDS`: the LEDs a request can name -/
  nLeds : Nat := 4
  /-- test: read opcode (R56) -/
  opTest : Byte := 0x00#8
  /-- IR1: read opcode (R56) -/
  opIr1 : Byte := 0x01#8
  /-- IR2: read opcode (R56) -/
  opIr2 : Byte := 0x02#8
  /-- IR3: read opcode (R56) -/
  opIr3 : Byte := 0x03#8
  /-- IR4: read opcode (R56) -/
  opIr4 : Byte := 0x04#8
  /-- IR5: read opcode (R56) -/
  opIr5 : Byte := 0x05#8
  /-- IR6: read opcode (R56) -/
  opIr6 : Byte := 0x06#8
  /-- battery: read opcode (R56) -/
  opBat : Byte := 0x07#8
  /-- sound: read opcode (R56) -/
  opSound : Byte := 0x08#8
  /-- light: read opcode (R56) -/
  opLight : Byte := 0x09#8
  /-- touch: read opcode (R56) -/
  opTouch : Byte := 0x0A#8
  /-- color: read opcode (R56) -/
  opColor : Byte := 0x0B#8
  /-- encoder1: read opcode (R56) -/
  opEnc1 : Byte := 0x0C#8
  /-- encoder2: read opcode (R56) -/
  opEnc2 : Byte := 0x0D#8
  /-- ultrasonic: read opcode (R56) -/
  opUltra : Byte := 0x0E#8
  /-- power-key: read opcode (R56) -/
  opPkey : Byte := 0x0F#8
  /-- LED1: write opcode (R57) -/
  opLed1 : Byte := 0x00#8
  /-- LED2: write opcode (R57) -/
  opLed2 : Byte := 0x01#8
  /-- LED3: write opcode (R57) -/
  opLed3 : Byte := 0x02#8
  /-- LED4: write opcode (R57) -/
  opLed4 : Byte := 0x03#8
  /-- motor1: write opcode (R57) -/
  opMotor1 : Byte := 0x04#8
  /-- motor2: write opcode (R57) -/
  opMotor2 : Byte := 0x05#8
  /-- motor-brake: write opcode (R57) -/
  opBrake : Byte := 0x06#8
  /-- color-calibrate: write opcode (R57) -/
  opColorCal : Byte := 0x07#8
  /-- fill-light: write opcode (R57) -/
  opFill : Byte := 0x08#8
  /-- encoder-reset: write opcode (R57) -/
  opEncRst : Byte := 0x09#8
  /-- `FILL_ON`, DESIGN CHOICE of the spec (D11), log 14 -/
  fillOn : Byte := 0x01#8
  /-- `FILL_OFF`, DESIGN CHOICE of the spec (D11), log 14 -/
  fillOff : Byte := 0x00#8
  /-- `LAST_ISSUE_RESET[GEN]`, DESIGN CHOICE of the spec (D4), log 7 -/
  lastIssueResetGen : Nat := 0
  /-- `LAST_ISSUE_RESET[DISP]`, DESIGN CHOICE of the spec (D4), log 7 -/
  lastIssueResetDisp : Nat := 0
  /-- The shift of the red component, DESIGN CHOICE of the spec (D7), log 18 -/
  redShift : Nat := 16
  /-- The shift of the green component (D7), log 18 -/
  greenShift : Nat := 8
  /-- The shift of the blue component (D7), log 18 -/
  blueShift : Nat := 0
deriving DecidableEq, Repr

/-- The configuration of this model: every parameter at its default. -/
abbrev cfg : Config := {}

/-- `ENC_DIV` = `ENC_PPR * ENC_GEAR` (R5). -/
abbrev Config.encDiv (c : Config) : Int := c.encPpr * c.encGear

/-- `MIN_INTERVAL[ch]` (R5, R10). -/
abbrev Config.minInterval (c : Config) : Channel → Nat
  | .gen => c.minIntervalGen
  | .disp => c.minIntervalDisp

/-- OPEN (D10): the bytes behind `BRAKE_PAYLOAD(ctx)`. No body: nothing can be proved of them. -/
opaque Config.brakeBytes : BrakeContext → List Byte

/-- `BRAKE_PAYLOAD(ctx)`, a byte string of length 0 to 18 (R137): every such string is some choice of
`Config.brakeBytes`. -/
def Config.brakePayload (ctx : BrakeContext) : List Byte :=
  (Config.brakeBytes ctx).take cfg.displayMax

/-- `BANNER`, OPEN (D15): a byte string of any length. -/
opaque Config.banner : List Byte

/-- `CAL_TRIGGER`, OPEN (D12): the value the peer expects. The block forwards the caller's byte and never reads this. -/
opaque Config.calTrigger : Byte

/-- `ENCRST_TRIGGER`, OPEN (D12): the value the peer expects. Never read by the block. -/
opaque Config.encRstTrigger : Byte

/-- `PEER_ADDR`, OPEN (D26): the peer's bus address; not observable, never read. -/
opaque Config.peerAddr : Nat

/-- `TIME_UNIT`, OPEN (D2): what one time-unit is; no rule needs it. -/
opaque Config.timeUnit : Nat

/-- Free value: the clock's reading at reset (R24: `now` is not reset), log 4. -/
opaque Config.nowAtReset : Nat

/-- Free values: how far the clock advances before a micro-step, once `Env.lag` is used up (R14), log 3. -/
opaque Config.clockLag : Nat → Nat

/-- Free values: the bytes the peer delivers, once `Env.replies` is used up (R33, U1), log 5. -/
opaque Config.replyByte : Nat → Byte

end Sys2Proof
end

