-- ==== Sys2Proof/Syntax.lean ====
section
/-! DEFINITION. The instructions: one constructor for each row of the opcode table (R56, R57, R87). Each is one frame. -/

namespace Sys2Proof

/-- One frame of the command block. Reads take no operand (R101); a write's operands are what its payload is made of
(R130); the display transaction takes the text, of any length (R87). -/
inductive Instr where
  /-- `RD.TEST`, 80 00 (R102) -/
  | rdTest
  /-- `RD.IR1`, 80 01 (R103) -/
  | rdIr1
  /-- `RD.IR2`, 80 02 (R104) -/
  | rdIr2
  /-- `RD.IR3`, 80 03 (R105) -/
  | rdIr3
  /-- `RD.IR4`, 80 04 (R106) -/
  | rdIr4
  /-- `RD.IR5`, 80 05 (R107) -/
  | rdIr5
  /-- `RD.IR6`, 80 06 (R108) -/
  | rdIr6
  /-- `RD.BAT`, 80 07 (R109) -/
  | rdBat
  /-- `RD.SOUND`, 80 08 (R110) -/
  | rdSound
  /-- `RD.LIGHT`, 80 09 (R111) -/
  | rdLight
  /-- `RD.TOUCH`, 80 0A (R112) -/
  | rdTouch
  /-- `RD.COLOR`, 80 0B (R113) -/
  | rdColor
  /-- `RD.ENC1`, 80 0C (R114) -/
  | rdEnc1
  /-- `RD.ENC2`, 80 0D (R115) -/
  | rdEnc2
  /-- `RD.ULTRA`, 80 0E (R116) -/
  | rdUltra
  /-- `RD.PKEY`, 80 0F (R117) -/
  | rdPkey
  /-- `WR.LED1 r, g, b`, 81 00 b g r (R131) -/
  | wrLed1 (r g b : Byte)
  /-- `WR.LED2 r, g, b`, 81 01 b g r (R132) -/
  | wrLed2 (r g b : Byte)
  /-- `WR.LED3 r, g, b`, 81 02 b g r (R133) -/
  | wrLed3 (r g b : Byte)
  /-- `WR.LED4 r, g, b`, 81 03 b g r (R134) -/
  | wrLed4 (r g b : Byte)
  /-- `WR.MOTOR1 c`, 81 04 lo hi (R135); emitted only by `SETSPEED M1` -/
  | wrMotor1 (c : Int)
  /-- `WR.MOTOR2 c`, 81 05 lo hi (R136); emitted only by `SETSPEED M2` -/
  | wrMotor2 (c : Int)
  /-- `WR.BRAKE`, 81 06 ++ payload (R137). `none`: the operation of R137, whose payload is `BRAKE_PAYLOAD(ctx)`.
  `some p`: a write of opcode 0x06 with a payload the caller gives (R88). Log 15. -/
  | wrBrake (given : Option (List Byte))
  /-- `WR.COLORCAL t`, 81 07 t (R138) -/
  | wrColorCal (t : Byte)
  /-- `WR.FILL`, 81 08 f (R139), with the flag byte `FILL_ON` or `FILL_OFF`, or the byte a caller gives (R88, log 32) -/
  | wrFill (flag : Byte)
  /-- `WR.ENCRST t`, 81 09 t (R140) -/
  | wrEncRst (t : Byte)
  /-- `DISP text`, 82 L chars (R87) -/
  | disp (text : List Byte)
deriving DecidableEq, Repr

/-- Why a byte sequence is no frame of this block (R58). -/
inductive DecodeError where
  /-- fewer than the two header bytes -/
  | incomplete
  /-- a first byte other than 0x80, 0x81, 0x82: R58 (c) -/
  | unknownMarker
  /-- a read opcode 0x10 to 0xFF: R58 (a) -/
  | unknownReadOpcode
  /-- a write opcode 0x0A to 0xFF: R58 (b) -/
  | unknownWriteOpcode
  /-- a display length byte above 18: R58 (d) -/
  | badDisplayLength
  /-- a payload whose length is not the register's shape, or not the length byte's: R58 (e) -/
  | badPayloadShape
deriving DecidableEq, Repr

end Sys2Proof
end

