-- ==== Sys2Proof/WellFormed.lean ====
section
/-! DEFINITION. The operand ranges the spec gives the frames, as a check that runs. -/

namespace Sys2Proof

/-- The operand of a speed frame: an integer in [-1023, 1023] (R135, R136). -/
def speedInRange (c : Int) : Bool :=
  decide (-cfg.speedMax ≤ c) && decide (c ≤ cfg.speedMax)

/-- A given payload fits the frame invariant "payload length ≤ 18 bytes" (R50) and is not empty (an empty one is
written `none`, log 15). -/
def givenPayloadFits (p : List Byte) : Bool :=
  !p.isEmpty && decide (p.length ≤ cfg.displayMax)

/-- The instruction can be written as one frame without loss: speeds in range (R135, R136), a given brake payload within
the frame invariant (R50, R137), a text no longer than a display frame carries (R54). All other operands are bytes, and
every byte is one of theirs. -/
def Instr.wf : Instr → Bool
  | .rdTest => true
  | .rdIr1 => true
  | .rdIr2 => true
  | .rdIr3 => true
  | .rdIr4 => true
  | .rdIr5 => true
  | .rdIr6 => true
  | .rdBat => true
  | .rdSound => true
  | .rdLight => true
  | .rdTouch => true
  | .rdColor => true
  | .rdEnc1 => true
  | .rdEnc2 => true
  | .rdUltra => true
  | .rdPkey => true
  | .wrLed1 _ _ _ => true
  | .wrLed2 _ _ _ => true
  | .wrLed3 _ _ _ => true
  | .wrLed4 _ _ _ => true
  | .wrMotor1 c => speedInRange c
  | .wrMotor2 c => speedInRange c
  | .wrBrake none => true
  | .wrBrake (some p) => givenPayloadFits p
  | .wrColorCal _ => true
  | .wrFill _ => true
  | .wrEncRst _ => true
  | .disp text => decide (text.length ≤ cfg.displayMax)

end Sys2Proof
end

