-- ==== Sys2Proof/Decode.lean ====
section
/-! DEFINITION. The wire encoding, both ways: byte order, the decoder of a frame (total on any bytes), the encoder, the
length of a frame in a byte stream, and the table's header word. -/

namespace Sys2Proof

/-- `le_u(bs)`, the unsigned little-endian value of a byte sequence (R7). -/
def leU : List Byte → Nat
  | [] => 0
  | b :: bs => b.toNat + 256 * leU bs

/-- `le_s(bs)`, the signed little-endian value (R7). Two's complement is PRESUMED (D8: general knowledge), log 16. -/
def leS (bs : List Byte) : Int :=
  if leU bs < 2 ^ (8 * bs.length - 1) then (leU bs : Int) else (leU bs : Int) - 2 ^ (8 * bs.length)

/-- The two's complement word of a 16-bit signed value, `v` or `v + 65536` (R7; D8, log 16). -/
def word16 (v : Int) : Nat :=
  if 0 ≤ v then v.toNat else (v + 65536).toNat

/-- `enc_le16s(v)`, low byte first (R7, R32). -/
def encLe16s (v : Int) : List Byte :=
  [BitVec.ofNat 8 (word16 v &&& 0xFF), BitVec.ofNat 8 (word16 v >>> 8)]

/-- The read opcodes, a closed set (R56, R58). -/
def readOps : List (Byte × Instr) :=
  [(cfg.opTest, .rdTest), (cfg.opIr1, .rdIr1), (cfg.opIr2, .rdIr2), (cfg.opIr3, .rdIr3), (cfg.opIr4, .rdIr4),
    (cfg.opIr5, .rdIr5), (cfg.opIr6, .rdIr6), (cfg.opBat, .rdBat), (cfg.opSound, .rdSound), (cfg.opLight, .rdLight),
    (cfg.opTouch, .rdTouch), (cfg.opColor, .rdColor), (cfg.opEnc1, .rdEnc1), (cfg.opEnc2, .rdEnc2),
    (cfg.opUltra, .rdUltra), (cfg.opPkey, .rdPkey)]

/-- The instruction a read opcode stands for. -/
def readInstr (op : Byte) : Option Instr := readOps.lookup op

/-- The payload lengths `PW(op)` of the write opcodes, a closed set (R57, R58, R130); `brakeLen` is
`len(BRAKE_PAYLOAD(ctx))`, open (D10). The encoder-reset payload is 1 byte (conflict C2, log 23). -/
def writeWidths (brakeLen : Nat) : List (Byte × Nat) :=
  [(cfg.opLed1, 3), (cfg.opLed2, 3), (cfg.opLed3, 3), (cfg.opLed4, 3), (cfg.opMotor1, 2), (cfg.opMotor2, 2),
    (cfg.opBrake, brakeLen), (cfg.opColorCal, 1), (cfg.opFill, 1), (cfg.opEncRst, 1)]

/-- `PW(op)` (R130). -/
def payloadWidth (brakeLen : Nat) (op : Byte) : Option Nat := (writeWidths brakeLen).lookup op

/-- Read format, `[0x80, op]` (R52): nothing follows the opcode. -/
def decodeRead (op : Byte) (rest : List Byte) : Except DecodeError Instr :=
  match readInstr op with
  | none => .error .unknownReadOpcode
  | some i => if rest.isEmpty then .ok i else .error .badPayloadShape

/-- A payload of one byte (R130). -/
def oneByte (f : Byte → Instr) : List Byte → Except DecodeError Instr
  | [t] => .ok (f t)
  | _ => .error .badPayloadShape

/-- A payload of two bytes, a signed little-endian speed (R135). -/
def speedPayload (f : Int → Instr) : List Byte → Except DecodeError Instr
  | [lo, hi] => .ok (f (leS [lo, hi]))
  | _ => .error .badPayloadShape

/-- A payload of three bytes, blue, green, red (R131). -/
def bgrPayload (f : Byte → Byte → Byte → Instr) : List Byte → Except DecodeError Instr
  | [b, g, r] => .ok (f r g b)
  | _ => .error .badPayloadShape

/-- What follows `81 06` in a frame of the opcode table: nothing in the row's own operation `WR.BRAKE`, which has no operand
(R137), else a given payload of at most 18 bytes (R50), whose length is held against `PW(0x06)` where it is performed. The
request `sendWrite(0x06, payload)` is not read here (log 15). -/
def brakePayloadBytes (p : List Byte) : Except DecodeError Instr :=
  if p.isEmpty then .ok (.wrBrake none)
  else if p.length ≤ cfg.displayMax then .ok (.wrBrake (some p))
  else .error .badPayloadShape

/-- Write format, `[0x81, op] ++ payload` (R53), the payload of the opcode's shape (R57, R130). -/
def decodeWrite (op : Byte) (payload : List Byte) : Except DecodeError Instr :=
  if op = cfg.opLed1 then bgrPayload .wrLed1 payload
  else if op = cfg.opLed2 then bgrPayload .wrLed2 payload
  else if op = cfg.opLed3 then bgrPayload .wrLed3 payload
  else if op = cfg.opLed4 then bgrPayload .wrLed4 payload
  else if op = cfg.opMotor1 then speedPayload .wrMotor1 payload
  else if op = cfg.opMotor2 then speedPayload .wrMotor2 payload
  else if op = cfg.opBrake then brakePayloadBytes payload
  else if op = cfg.opColorCal then oneByte .wrColorCal payload
  else if op = cfg.opFill then oneByte .wrFill payload
  else if op = cfg.opEncRst then oneByte .wrEncRst payload
  else .error .unknownWriteOpcode

/-- Display format, `[0x82, L] ++ chars` with `L` from 0 to 18 (R54). -/
def decodeDisplay (len : Byte) (chars : List Byte) : Except DecodeError Instr :=
  if len.toNat ≤ cfg.displayMax then
    if chars.length = len.toNat then .ok (.disp chars) else .error .badPayloadShape
  else .error .badDisplayLength

/-- The frame decoder, total on any bytes: marker, second byte, payload (R50, R51), every other byte sequence rejected by
name (R58). -/
def decode : List Byte → Except DecodeError Instr
  | m :: x :: rest =>
    if m = cfg.markRead then decodeRead x rest
    else if m = cfg.markWrite then decodeWrite x rest
    else if m = cfg.markDisplay then decodeDisplay x rest
    else .error .unknownMarker
  | _ => .error .incomplete

/-- A read frame (R52). -/
def readFrame (op : Byte) : List Byte := [cfg.markRead, op]

/-- A write frame (R53). -/
def writeFrame (op : Byte) (payload : List Byte) : List Byte := cfg.markWrite :: op :: payload

/-- What a display frame carries of a text: its first 18 bytes (R54, R87). -/
def displayChars (text : List Byte) : List Byte := text.take cfg.displayMax

/-- A display frame: the length byte is `min(len(text), 18)` (R54). -/
def displayFrame (text : List Byte) : List Byte :=
  cfg.markDisplay :: BitVec.ofNat 8 (displayChars text).length :: displayChars text

/-- The encoder: the bytes of an instruction's frame (R52 to R57). For `WR.BRAKE` these are the bytes a caller writes;
the block adds `BRAKE_PAYLOAD(ctx)` to them (R137, log 15). -/
def encode : Instr → List Byte
  | .rdTest => readFrame cfg.opTest
  | .rdIr1 => readFrame cfg.opIr1
  | .rdIr2 => readFrame cfg.opIr2
  | .rdIr3 => readFrame cfg.opIr3
  | .rdIr4 => readFrame cfg.opIr4
  | .rdIr5 => readFrame cfg.opIr5
  | .rdIr6 => readFrame cfg.opIr6
  | .rdBat => readFrame cfg.opBat
  | .rdSound => readFrame cfg.opSound
  | .rdLight => readFrame cfg.opLight
  | .rdTouch => readFrame cfg.opTouch
  | .rdColor => readFrame cfg.opColor
  | .rdEnc1 => readFrame cfg.opEnc1
  | .rdEnc2 => readFrame cfg.opEnc2
  | .rdUltra => readFrame cfg.opUltra
  | .rdPkey => readFrame cfg.opPkey
  | .wrLed1 r g b => writeFrame cfg.opLed1 [b, g, r]
  | .wrLed2 r g b => writeFrame cfg.opLed2 [b, g, r]
  | .wrLed3 r g b => writeFrame cfg.opLed3 [b, g, r]
  | .wrLed4 r g b => writeFrame cfg.opLed4 [b, g, r]
  | .wrMotor1 c => writeFrame cfg.opMotor1 (encLe16s c)
  | .wrMotor2 c => writeFrame cfg.opMotor2 (encLe16s c)
  | .wrBrake none => writeFrame cfg.opBrake []
  | .wrBrake (some p) => writeFrame cfg.opBrake p
  | .wrColorCal t => writeFrame cfg.opColorCal [t]
  | .wrFill f => writeFrame cfg.opFill [f]
  | .wrEncRst t => writeFrame cfg.opEncRst [t]
  | .disp text => displayFrame text

/-- How many bytes the frame at the head of a byte stream has, from its first two bytes alone (R62). -/
def frameLength (brakeLen : Nat) : List Byte → Option Nat
  | m :: x :: _ =>
    if m = cfg.markRead then (readInstr x).map fun _ => 2
    else if m = cfg.markWrite then (payloadWidth brakeLen x).map (2 + ·)
    else if m = cfg.markDisplay then (if x.toNat ≤ cfg.displayMax then some (2 + x.toNat) else none)
    else none
  | _ => none

/-- Cut the first frame off a byte stream (R62): the frame and what follows it. -/
def cutFrame (brakeLen : Nat) (stream : List Byte) : Option (List Byte × List Byte) :=
  match frameLength brakeLen stream with
  | some n => if n ≤ stream.length then some (stream.take n, stream.drop n) else none
  | none => none

/-- `n` bytes of a number, least significant first. -/
def bytesOf : Nat → Nat → List Byte
  | 0, _ => []
  | n + 1, w => BitVec.ofNat 8 w :: bytesOf n (w >>> 8)

/-- The bytes a word of the opcode table stands for: the header word `H = marker * 256 + second byte` (R55) in bits
15..0, the marker sent first; any further byte `k` of the `nbits` in bits `8k+7..8k`; then zeros up to the frame's length (log 30). -/
def tableBytes (nbits w : Nat) : List Byte :=
  let given := BitVec.ofNat 8 (w >>> 8) :: BitVec.ofNat 8 w :: bytesOf (nbits / 8 - 2) (w >>> 16)
  given ++ List.replicate ((frameLength 0 given).getD 2 - given.length) 0#8

/-- The instruction the decoder reads from a word numbered as the opcode table numbers it. -/
def decodeTableWord (nbits w : Nat) : Option Instr :=
  match decode (tableBytes nbits w) with
  | .ok i => some i
  | .error _ => none

end Sys2Proof
end

