-- ==== Sys2Proof/Machine/State.lean ====
section
/-! DEFINITION. The state: the block's four registers and its hidden sequencer (10_state.md), its request port, its ghost
flag, the wire trace, and the environment (clock, transport, peer) as plain data. -/

namespace Sys2Proof.Machine

/-- A wire event (R8, R21), with the clock reading at which it happened. -/
inductive Event where
  /-- `ISSUE(t, ch)`: a gate has passed (R72) -/
  | issue (t : Nat) (ch : Channel)
  /-- `TX(t, v)`: a byte has been sent -/
  | tx (t : Nat) (v : Byte)
  /-- `RX(t, n, bs)`: `n` bytes have been read -/
  | rx (t : Nat) (n : Nat) (bs : List Byte)
deriving DecidableEq, Repr

/-- What a read hands back, by its decode rule (R100). -/
inductive Value where
  /-- `DEC_RAW` -/
  | raw (v : Nat)
  /-- `DEC_INV` -/
  | inverted (v : Int)
  /-- `DEC_F32`, the 32-bit pattern (R121, D37) -/
  | float32 (w : BitVec 32)
  /-- `DEC_BOOL` -/
  | flag (b : Bool)
  /-- `DEC_PACK` -/
  | packed (v : Nat)
  /-- `DEC_ENC`, revolutions -/
  | revolutions (v : Int)
deriving DecidableEq, Repr

/-- What a completed operation hands to the caller (R90). -/
inductive Answer where
  /-- completion is the only signal -/
  | done
  /-- a read's decoded value -/
  | value (v : Value)
  /-- the reply bytes, as `sendRead` returns them (R86) -/
  | bytes (bs : List Byte)
deriving DecidableEq, Repr

/-- A request as the caller presents it (R60). Operands the caller could get wrong are unchecked here (R186). -/
inductive Request where
  /-- an instruction of the opcode table, by the bytes of its frame, decoded when accepted: `RD.<reg>` and the others (R56,
  R57) -/
  | frame (bytes : List Byte)
  /-- `sendRead(op)` (R86) -/
  | sendRead (op : Byte)
  /-- `sendWrite(op, payload)` (R88) -/
  | sendWrite (op : Byte) (payload : List Byte)
  /-- `WR.LED<k> r, g, b` (R131 to R134) -/
  | led (k : Nat) (r g b : Int)
  /-- `WR.BRAKE` (R137) -/
  | brake
  /-- `WR.COLORCAL t` (R138) -/
  | colorCal (t : Int)
  /-- `WR.FILL on` (R139) -/
  | fill (on : Bool)
  /-- `WR.ENCRST t` (R140) -/
  | encRst (t : Int)
  /-- `DISP text`, any length (R87) -/
  | display (text : List Int)
  /-- `SETSPEED m, s` (R154), the motor by its number -/
  | setSpeed (m : Nat) (s : Int)
  /-- `INIT` (R165) -/
  | init
deriving DecidableEq, Repr

/-- An accepted operation, with its operands (R19). -/
inductive Operation where
  /-- one frame -/
  | instr (i : Instr)
  /-- the frame of a read whose reply bytes are returned as they are (R86) -/
  | sendRead (i : Instr)
  /-- `SETSPEED m, s`, with the clamped speed `c` (R150) -/
  | setSpeed (m : Motor) (s c : Int)
  /-- `INIT` -/
  | init
deriving DecidableEq, Repr

/-- The micro-steps of a frame or a delay (R8). -/
inductive Micro where
  /-- `GATE(ch)` (R72) -/
  | gate (ch : Channel)
  /-- `BusTx(v)` -/
  | tx (v : Byte)
  /-- `BusRx(n)` -/
  | rx (n : Nat)
  /-- a `DELAY` is reached: its start reading is recorded (R76) -/
  | reachDelay
  /-- a `DELAY(d)` is left (R76) -/
  | leaveDelay (d : Nat)
deriving DecidableEq, Repr

/-- The steps of an operation between its frames. -/
inductive Task where
  /-- send one frame -/
  | frame (i : Instr)
  /-- `DELAY(d)` -/
  | delay (d : Nat)
  /-- `last_speed[m] <- c` (R153) -/
  | record (m : Motor) (c : Int)
  /-- compare the reply with `ACK` (R166) -/
  | testAck
  /-- `ready <- true` (R170) -/
  | markReady
deriving DecidableEq, Repr

/-- What the block holds while an operation is in progress (R19). -/
structure Busy where
  /-- which operation, and its operands -/
  op : Operation
  /-- the micro-steps left of the frame or delay in progress -/
  micros : List Micro
  /-- the steps left after it -/
  todo : List Task
  /-- the clock reading a `DELAY` started at -/
  t0 : Nat
  /-- the bytes already received -/
  received : List Byte
deriving DecidableEq, Repr

/-- The hidden sequencer state `seq` (R19). -/
inductive Seq where
  | idle
  | busy (b : Busy)
deriving DecidableEq, Repr

/-- The environment as plain data (logs 3, 5, 6, 31): what the clock, the transport and the peer are going to do. -/
structure Env where
  /-- how far the clock advances before each coming micro-step; `Config.clockLag` after the last -/
  lag : List Nat
  /-- `none`: the clock keeps advancing; `some r`: it stalls, never showing a reading above `r` (R77) -/
  clockStops : Option Nat
  /-- `none`: every bus primitive returns; `some k`: `k` more do, and then the bus is stalled (R41) -/
  busLeft : Option Nat
  /-- the bytes the peer delivers next; `Config.replyByte` after the last (R33) -/
  replies : List Byte
  /-- index of the next free clock lag -/
  lagsDrawn : Nat
  /-- index of the next free reply byte -/
  bytesDrawn : Nat
deriving DecidableEq, Repr

/-- The state of the machine. -/
structure State where
  /-- `last_issue[GEN]` (R10) -/
  lastIssueGen : Nat
  /-- `last_issue[DISP]` (R10) -/
  lastIssueDisp : Nat
  /-- `last_speed[M1]` (R13) -/
  lastSpeedM1 : Int
  /-- `last_speed[M2]` (R13) -/
  lastSpeedM2 : Int
  /-- the sequencer (R19) -/
  seq : Seq
  /-- the spec's ghost flag (R20) -/
  ready : Bool
  /-- the clock reading (R14) -/
  now : Nat
  /-- the observation (R21), oldest event first; no rule of the block reads it -/
  trace : List Event
  /-- the request the caller presents (R85) -/
  port : Option Request
  /-- what the last operation handed back; `none` while it is in progress (R85, R90) -/
  answer : Option Answer
  /-- the model's ghost of the caller's calibration duty (R141, log 11); no rule of the block reads it -/
  settleUntil : Nat
  /-- the clock, the transport and the peer -/
  env : Env
deriving DecidableEq, Repr

/-- Reasons the machine stops with a fault: none. "The block raises no exception and reports no error" (R180), and a fault
outcome "is unreachable from any rule of this spec" (R190), so there is no constructor and no fault can be built. -/
inductive Fault where
deriving DecidableEq, Repr

/-- Reasons a request is given no meaning (R186, R187, and R58 for bytes that are no request). Each is SAFE: the
document's software would send whatever it was given, the model stops there and proves nothing about it (R186). -/
inductive Refusal where
  /-- an instruction the model does not have; raised by no arm -/
  | notModelled (mnemonic : String)
  /-- R186 (1): a read opcode outside 0x00 to 0x0F; raised when a request is accepted -/
  | unknownReadOpcode
  /-- R186 (2): a write opcode outside 0x00 to 0x09; raised when a request is accepted -/
  | unknownWriteOpcode
  /-- R186 (3): a payload whose length is not `PW(op)`; raised when a request is accepted, and by `WR.BRAKE` -/
  | badPayloadShape
  /-- R186 (4): a direct write to opcode 0x04 or 0x05; raised by `WR.MOTOR1` and `WR.MOTOR2` in an idle block -/
  | motorWriteBypassesGuard
  /-- R186 (5): an operand that is not of its type; raised when a request is accepted, and by a speed frame whose
  operand is outside [-1023, 1023] -/
  | badOperand
  /-- R187: a request made while the block is busy; raised by every instruction and by every request -/
  | busy
  /-- R58 (c), or less than a header: the bytes presented are no request of the block (log 20) -/
  | notAFrame
  /-- R58 (d): a display frame with a length byte above 18, which the block never produces (log 20) -/
  | badDisplayLength
deriving DecidableEq, Repr

/-- The state after reset (R22 to R24, R201). The free clock reading, the port and the environment are the model's
(logs 4, 7, 10, 11, 31). -/
def State.reset : State where
  lastIssueGen := cfg.lastIssueResetGen
  lastIssueDisp := cfg.lastIssueResetDisp
  lastSpeedM1 := 0
  lastSpeedM2 := 0
  seq := .idle
  ready := false
  now := Config.nowAtReset
  trace := []
  port := none
  answer := none
  settleUntil := 0
  env := { lag := [], clockStops := none, busLeft := none, replies := [], lagsDrawn := 0, bytesDrawn := 0 }

end Sys2Proof.Machine
end

