-- ==== Sys2Proof/Machine/Operands.lean ====
section
/-! DEFINITION. Operands and results: the reply table, the six decode functions, `PACK` and `CALCRGB`, the clamp, payloads. -/

namespace Sys2Proof.Machine

/-- `DEC_BOOL`: only the value 1 is true (R118). -/
def decBool (bs : List Byte) : Bool := decide (bs.head? = some 1#8)

/-- `DEC_INV`: `0xFFF - raw`, in Int, no wrap and no clamp (R119, D9, log 17). -/
def decInv (bs : List Byte) : Int := cfg.invBase - (leU bs : Int)

/-- `DEC_RAW`: as is (R120). -/
def decRaw (bs : List Byte) : Nat := leU bs

/-- `DEC_F32`: the 32-bit pattern, not interpreted (R121, D37, log 33). -/
def decF32 (bs : List Byte) : BitVec 32 := BitVec.ofNat 32 (leU bs)

/-- `DEC_PACK`: `(byte2 << 16) | (byte1 << 8) | byte0` (R122). -/
def decPack : List Byte → Nat
  | b0 :: b1 :: b2 :: _ => (b2.toNat <<< 16) ||| (b1.toNat <<< 8) ||| b0.toNat
  | bs => leU bs

/-- `DEC_ENC`: the signed count divided by 210, truncating toward zero (R124). -/
def decEnc (bs : List Byte) : Int := (leS bs).tdiv cfg.encDiv

/-- The numeric decode rules of the descriptor table (R100, conflict C9). -/
inductive DecodeRule where
  | bool
  | inv
  | raw
  | f32
  | pack
  | enc
deriving DecidableEq, Repr

/-- The value a decode rule gives to a reply (R118 to R124). -/
def DecodeRule.apply : DecodeRule → List Byte → Value
  | .bool, bs => .flag (decBool bs)
  | .inv, bs => .inverted (decInv bs)
  | .raw, bs => .raw (decRaw bs)
  | .f32, bs => .float32 (decF32 bs)
  | .pack, bs => .packed (decPack bs)
  | .enc, bs => .revolutions (decEnc bs)

/-- The Peripheral Register Descriptor table: opcode, reply width `RW(op)`, decode rule (R100). The 2-byte widths are the
document's unverified assumption (R125), the colour reply is 3 bytes (conflict C1), log 23. -/
def descriptors : List (Byte × Nat × DecodeRule) :=
  [(cfg.opTest, 1, .raw), (cfg.opIr1, 2, .inv), (cfg.opIr2, 2, .inv), (cfg.opIr3, 2, .inv), (cfg.opIr4, 2, .inv),
    (cfg.opIr5, 2, .inv), (cfg.opIr6, 2, .inv), (cfg.opBat, 4, .f32), (cfg.opSound, 2, .inv), (cfg.opLight, 2, .inv),
    (cfg.opTouch, 1, .bool), (cfg.opColor, 3, .pack), (cfg.opEnc1, 4, .enc), (cfg.opEnc2, 4, .enc),
    (cfg.opUltra, 2, .raw), (cfg.opPkey, 1, .bool)]

/-- The row of a read opcode; none where the opcode is not in the table (R100). -/
def descriptor (op : Byte) : Option (Nat × DecodeRule) := descriptors.lookup op

/-- The opcode a read operation sends (R56); none for the other frames. -/
def readOpcode : Instr → Option Byte
  | .rdTest => some cfg.opTest
  | .rdIr1 => some cfg.opIr1
  | .rdIr2 => some cfg.opIr2
  | .rdIr3 => some cfg.opIr3
  | .rdIr4 => some cfg.opIr4
  | .rdIr5 => some cfg.opIr5
  | .rdIr6 => some cfg.opIr6
  | .rdBat => some cfg.opBat
  | .rdSound => some cfg.opSound
  | .rdLight => some cfg.opLight
  | .rdTouch => some cfg.opTouch
  | .rdColor => some cfg.opColor
  | .rdEnc1 => some cfg.opEnc1
  | .rdEnc2 => some cfg.opEnc2
  | .rdUltra => some cfg.opUltra
  | .rdPkey => some cfg.opPkey
  | .wrLed1 _ _ _ => none
  | .wrLed2 _ _ _ => none
  | .wrLed3 _ _ _ => none
  | .wrLed4 _ _ _ => none
  | .wrMotor1 _ => none
  | .wrMotor2 _ => none
  | .wrBrake _ => none
  | .wrColorCal _ => none
  | .wrFill _ => none
  | .wrEncRst _ => none
  | .disp _ => none

/-- What an operation hands back when it completes, `received` being the last reply: a read its decoded value (R90, R101),
`sendRead` the reply bytes (R86), all others nothing. -/
def answerOf (op : Operation) (received : List Byte) : Answer :=
  match op with
  | .instr i =>
    match (readOpcode i).bind descriptor with
    | some d => .value (d.2.apply received)
    | none => .done
  | .sendRead _ => .bytes received
  | .setSpeed _ _ _ => .done
  | .init => .done

/-- `PACK(r, g, b)` (R122, D7, log 18). -/
def pack (r g b : Byte) : Nat :=
  (r.toNat <<< cfg.redShift) ||| (g.toNat <<< cfg.greenShift) ||| (b.toNat <<< cfg.blueShift)

/-- `CALCRGB(ch, v)`: shift and mask, no gate, no frame, no state (R123). -/
def calcRgb (ch : Component) (v : Nat) : Nat :=
  match ch with
  | .red => (v >>> cfg.redShift) &&& 0xFF
  | .green => (v >>> cfg.greenShift) &&& 0xFF
  | .blue => (v >>> cfg.blueShift) &&& 0xFF

/-- `clamp(v, lo, hi)` (R7). -/
def clamp (v lo hi : Int) : Int := if v < lo then lo else if v > hi then hi else v

/-- Step 1 of `SETSPEED` (R150). -/
def clampSpeed (s : Int) : Int := clamp s (-cfg.speedMax) cfg.speedMax

/-- The three LED payload bytes, blue first (R130, R131). -/
def ledPayload (r g b : Byte) : List Byte := [b, g, r]

/-- The flag byte of `WR.FILL` (R139, D11, log 14). -/
def fillFlag (on : Bool) : Byte := if on then cfg.fillOn else cfg.fillOff

/-- The motor a number of the caller names: M1 or M2, no other (R186 (5)). -/
def motorOf (m : Nat) : Option Motor :=
  if cfg.nMotors < m then none
  else
    match m with
    | 1 => some .m1
    | 2 => some .m2
    | _ => none

/-- An operand that must be a byte (R186 (5)). -/
def byteOf (v : Int) : Option Byte :=
  if 0 ≤ v ∧ v ≤ 255 then some (BitVec.ofNat 8 v.toNat) else none

/-- A list of operands that must be bytes (R186 (5)). -/
def bytesOfInts : List Int → Option (List Byte)
  | [] => some []
  | v :: vs =>
    match byteOf v, bytesOfInts vs with
    | some b, some bs => some (b :: bs)
    | _, _ => none

end Sys2Proof.Machine
end

