-- ==== Sys2Proof/Machine/Flags.lean ====
section
/-! DEFINITION. The conditions the block computes. It has no flags and stores none of them (R17, R63). -/

namespace Sys2Proof.Machine

/-- The reversal test of `SETSPEED` on the clamped speed `c` and the recorded speed `p` (R151, R154). -/
def isReversal (c p : Int) : Bool :=
  decide (c.sign ≠ p.sign) && decide (c ≠ 0) && decide (p ≠ 0)

/-- The acknowledgment test of `INIT`: the whole byte equals `ACK` (R166). -/
def isAck (received : List Byte) : Bool := decide (received.head? = some cfg.ack)

/-- The enabling condition of `GATE`: `now - last_issue >= MIN_INTERVAL` (R72). -/
def gateOpen (now last interval : Nat) : Bool := decide (now - last ≥ interval)

/-- The condition for leaving a `DELAY(d)`: `now - t0 >= d` (R76). -/
def delayOver (now t0 d : Nat) : Bool := decide (now - t0 ≥ d)

end Sys2Proof.Machine
end

