-- ==== Sys2Proof/Machine/Ops.lean ====
section
/-! DEFINITION. The named operations over the state: register access, the clock, the bus primitives, the micro-steps
(R8, R72, R76), running a frame, and the codec's three operations (R86 to R88).
Taking an exception has no operation here: the block raises none and has no trap entry or return (R180, R190). -/

namespace Sys2Proof.Machine

/-- Read `last_issue[ch]`. -/
def State.lastIssue (s : State) : Channel → Nat
  | .gen => s.lastIssueGen
  | .disp => s.lastIssueDisp

/-- `last_issue[ch] <- t`: the other channel is not touched (R11). -/
def State.setLastIssue (s : State) (ch : Channel) (t : Nat) : State :=
  match ch with
  | .gen => { s with lastIssueGen := t }
  | .disp => { s with lastIssueDisp := t }

/-- Read `last_speed[m]`. -/
def State.lastSpeed (s : State) : Motor → Int
  | .m1 => s.lastSpeedM1
  | .m2 => s.lastSpeedM2

/-- `last_speed[m] <- c`: the other motor is not touched (R157). -/
def State.setLastSpeed (s : State) (m : Motor) (c : Int) : State :=
  match m with
  | .m1 => { s with lastSpeedM1 := c }
  | .m2 => { s with lastSpeedM2 := c }

/-- Append an event to the wire trace (R8). -/
def State.emit (s : State) (e : Event) : State := { s with trace := s.trace ++ [e] }

/-- How far the clock advances before the next micro-step (R14): the environment's script, then free values (log 3). -/
def Env.nextLag (e : Env) : Nat := e.lag.headD (Config.clockLag e.lagsDrawn)

/-- The environment after one step has used its clock advance. -/
def Env.lagTaken (e : Env) : Env := { e with lag := e.lag.tail, lagsDrawn := e.lagsDrawn + 1 }

/-- The reading the clock shows after its next advance from `now`: on a clock that stalls at `r`, none above `r` and `now`. -/
def Env.nextReading (e : Env) (now : Nat) : Nat :=
  match e.clockStops with
  | none => now + e.nextLag
  | some r => max now (min (now + e.nextLag) r)

/-- The clock, now showing `now`, gets to the reading `t` some day (R77). -/
def Env.reaches (e : Env) (now t : Nat) : Bool :=
  match e.clockStops with
  | none => true
  | some r => decide (t ≤ max now r)

/-- The `n` bytes the peer delivers next: any bytes (R33), the environment's script and then free values (log 5). -/
def Env.nextBytes (e : Env) (n : Nat) : List Byte :=
  (List.range n).map fun k => e.replies.getD k (Config.replyByte (e.bytesDrawn + k))

/-- The environment after `n` bytes have been delivered. -/
def Env.bytesTaken (e : Env) (n : Nat) : Env :=
  { e with replies := e.replies.drop n, bytesDrawn := e.bytesDrawn + n }

/-- The clock may advance between any two steps (R8, R14), and the next one waits for nothing. -/
def State.tick (s : State) : State := { s with now := s.env.nextReading s.now, env := s.env.lagTaken }

/-- The clock advances, and then the next micro-step is taken, `enabled` telling at which readings it may be. It is taken
at the reading the clock shows if it is enabled there, else the block waits until `earliest`; where the clock stalls before
that reading (R77) the step is not taken (log 3). -/
def State.await (enabled : Nat → Bool) (earliest : Nat) (s : State) : Option State :=
  if enabled s.tick.now then some s.tick
  else if s.env.reaches s.now earliest then some { s.tick with now := max s.tick.now earliest }
  else none

/-- A bus primitive returns, or, on a stalled bus, is not enabled (R41, log 6). -/
def State.busReturns (s : State) : Option State :=
  if s.env.busLeft = some 0 then none
  else some { s with env := { s.env with busLeft := s.env.busLeft.map (· - 1) } }

/-- `GATE(ch)`: enabled exactly when `now - last_issue[ch] >= MIN_INTERVAL[ch]`; the reading that passed the test is the
one written, and the one in the event (R72, D3). -/
def gateStep (ch : Channel) (s : State) : Option State :=
  (s.await (fun t => gateOpen t (s.lastIssue ch) (cfg.minInterval ch)) (s.lastIssue ch + cfg.minInterval ch)).map
    fun t => (t.setLastIssue ch t.now).emit (.issue t.now ch)

/-- `BusTx(v)`: one byte out, recorded with its reading (R8, R30). -/
def txStep (v : Byte) (s : State) : Option State :=
  s.busReturns.map fun t => t.tick.emit (.tx t.tick.now v)

/-- Deliver the peer's next `n` bytes, as a unit (R33, R36). -/
def State.deliver (n : Nat) (s : State) : State :=
  { s with trace := s.trace ++ [.rx s.now n (s.env.nextBytes n)], env := s.env.bytesTaken n }

/-- `BusRx(n)`: whatever the peer delivers, and the state after it (R8, R33). -/
def rxStep (n : Nat) (s : State) : Option (List Byte × State) :=
  s.busReturns.map fun t => (t.tick.env.nextBytes n, t.tick.deliver n)

/-- A `DELAY` is left: enabled exactly when `now - t0 >= d` (R76). -/
def leaveStep (t0 d : Nat) (s : State) : Option State :=
  s.await (fun t => delayOver t t0 d) (t0 + d)

/-- One micro-step of the block; `none` where it is not enabled, and the block then has no step (R8). -/
def microStep (m : Micro) (b : Busy) (s : State) : Option (Busy × State) :=
  match m with
  | .gate ch => (gateStep ch s).map fun t => (b, t)
  | .tx v => (txStep v s).map fun t => (b, t)
  | .rx n => (rxStep n s).map fun r => ({ b with received := r.1 }, r.2)
  | .reachDelay => some ({ b with t0 := s.tick.now }, s.tick)
  | .leaveDelay d => (leaveStep b.t0 d s).map fun t => (b, t)

/-- The reading until which the caller owes the settle after a completed operation: `CAL_SETTLE` after `WR.COLORCAL`
(R141); a ghost, log 11. -/
def settleAfter (op : Operation) (s : State) : Nat :=
  match op with
  | .instr (.wrColorCal _) => s.now + cfg.calSettle
  | _ => s.settleUntil

/-- The last step of an operation is done: the block returns, handing back the result, and is idle (R85, R90, R182). The
clock may advance before it returns (R8). -/
def finish (b : Busy) (s : State) : State :=
  { s.tick with seq := .idle, answer := some (answerOf b.op b.received), settleUntil := settleAfter b.op s.tick }

/-- The frame or step in progress is done: the operation goes on with what is left of it, or is complete. -/
def settle (b : Busy) (s : State) : State :=
  match b.todo with
  | [] => finish { b with micros := [] } s
  | _ :: _ => { s with seq := .busy { b with micros := [] } }

/-- Take micro-steps in order until they are done or one is not enabled; in that case the block is stuck before it, and
keeps everything done so far (R41, R182). -/
def runMicros : List Micro → Busy → State → State
  | [], b, s => settle b s
  | m :: ms, b, s =>
    match microStep m b s with
    | some (b', s') => runMicros ms b' s'
    | none => { s with seq := .busy { b with micros := m :: ms } }

/-- What the sequencer holds when the block accepts an operation (log 36). -/
def Busy.start (op : Operation) (todo : List Task) : Busy :=
  { op := op, micros := [], todo := todo, t0 := 0, received := [] }

/-- The operation in progress has come to this very frame. -/
def Busy.awaits (b : Busy) (i : Instr) : Bool :=
  b.micros.isEmpty && decide (b.todo.head? = some (.frame i))

/-- Perform a frame. In an idle block it is an operation of its own (R85); in a busy one only the frame the operation in
progress has come to is performed, any other request is refused (R187). -/
def transact (i : Instr) (ms : List Micro) (s : State) : Host.Outcome State Fault Refusal :=
  match s.seq with
  | .idle => .next (runMicros ms (Busy.start (.instr i) []) { s with answer := none })
  | .busy b => if b.awaits i then .next (runMicros ms { b with todo := b.todo.tail } s) else .refused .busy

/-- `sendRead(op)` (R86): gate, marker, opcode, reply. -/
def sendRead (i : Instr) (op : Byte) (s : State) : Host.Outcome State Fault Refusal :=
  match descriptor op with
  | none => .refused .unknownReadOpcode
  | some d => transact i [.gate .gen, .tx cfg.markRead, .tx op, .rx d.1] s

/-- `sendWrite(op, payload)` (R88): gate, marker, opcode, payload bytes in index order. The two refusals of R88 are made
where a payload comes from outside: in the decoder, and in `WR.BRAKE`. -/
def sendWrite (i : Instr) (op : Byte) (payload : List Byte) (s : State) : Host.Outcome State Fault Refusal :=
  transact i (.gate .gen :: .tx cfg.markWrite :: .tx op :: payload.map .tx) s

/-- `sendDisplay(text)` (R87): truncate, the DISP gate, marker, length byte, character bytes. -/
def sendDisplay (i : Instr) (text : List Byte) (s : State) : Host.Outcome State Fault Refusal :=
  transact i (.gate .disp :: .tx cfg.markDisplay :: .tx (BitVec.ofNat 8 (displayChars text).length)
    :: (displayChars text).map .tx) s

/-- The context of a brake frame: the motor whose reversal the guard brakes for, the handshake, or the caller (R137). -/
def brakeContext (q : Seq) : BrakeContext :=
  match q with
  | .busy b =>
    match b.op with
    | .setSpeed .m1 _ _ => .m1
    | .setSpeed .m2 _ _ => .m2
    | .init => .init
    | .instr _ => .caller
    | .sendRead _ => .caller
  | .idle => .caller

/-- A speed frame (R135, R136): emitted only as a step of `SETSPEED`; a direct request is refused (R156). -/
def speedFrame (i : Instr) (op : Byte) (c : Int) (s : State) : Host.Outcome State Fault Refusal :=
  match s.seq with
  | .idle => .refused .motorWriteBypassesGuard
  | .busy b =>
    if b.awaits i then
      if speedInRange c then sendWrite i op (encLe16s c) s else .refused .badOperand
    else .refused .busy

/-- A brake frame with a payload the caller gives: the check of R88 against `PW(0x06)` (R130). -/
def givenBrake (p : List Byte) (s : State) : Host.Outcome State Fault Refusal :=
  let i : Instr := .wrBrake (some p)
  if s.seq = .idle then
    if p.length = (Config.brakePayload .caller).length then sendWrite i cfg.opBrake p s else .refused .badPayloadShape
  else .refused .busy

end Sys2Proof.Machine
end

