-- ==== Sys2Proof/Machine/Reads.lean ====
section
/-! DEFINITION. The sixteen read operations (R101 to R117): each sends its opcode and hands back its reply by the
descriptor table's rule (`descriptor`, `answerOf`). -/

namespace Sys2Proof.Machine

/-- `RD.TEST` (R102). -/
def execRdTest (s : State) : Host.Outcome State Fault Refusal := sendRead .rdTest cfg.opTest s

/-- `RD.IR1` (R103). -/
def execRdIr1 (s : State) : Host.Outcome State Fault Refusal := sendRead .rdIr1 cfg.opIr1 s

/-- `RD.IR2` (R104). -/
def execRdIr2 (s : State) : Host.Outcome State Fault Refusal := sendRead .rdIr2 cfg.opIr2 s

/-- `RD.IR3` (R105). -/
def execRdIr3 (s : State) : Host.Outcome State Fault Refusal := sendRead .rdIr3 cfg.opIr3 s

/-- `RD.IR4` (R106). -/
def execRdIr4 (s : State) : Host.Outcome State Fault Refusal := sendRead .rdIr4 cfg.opIr4 s

/-- `RD.IR5` (R107). -/
def execRdIr5 (s : State) : Host.Outcome State Fault Refusal := sendRead .rdIr5 cfg.opIr5 s

/-- `RD.IR6` (R108). -/
def execRdIr6 (s : State) : Host.Outcome State Fault Refusal := sendRead .rdIr6 cfg.opIr6 s

/-- `RD.BAT` (R109). -/
def execRdBat (s : State) : Host.Outcome State Fault Refusal := sendRead .rdBat cfg.opBat s

/-- `RD.SOUND` (R110). -/
def execRdSound (s : State) : Host.Outcome State Fault Refusal := sendRead .rdSound cfg.opSound s

/-- `RD.LIGHT` (R111). -/
def execRdLight (s : State) : Host.Outcome State Fault Refusal := sendRead .rdLight cfg.opLight s

/-- `RD.TOUCH` (R112). -/
def execRdTouch (s : State) : Host.Outcome State Fault Refusal := sendRead .rdTouch cfg.opTouch s

/-- `RD.COLOR` (R113). -/
def execRdColor (s : State) : Host.Outcome State Fault Refusal := sendRead .rdColor cfg.opColor s

/-- `RD.ENC1` (R114). -/
def execRdEnc1 (s : State) : Host.Outcome State Fault Refusal := sendRead .rdEnc1 cfg.opEnc1 s

/-- `RD.ENC2` (R115). -/
def execRdEnc2 (s : State) : Host.Outcome State Fault Refusal := sendRead .rdEnc2 cfg.opEnc2 s

/-- `RD.ULTRA` (R116). -/
def execRdUltra (s : State) : Host.Outcome State Fault Refusal := sendRead .rdUltra cfg.opUltra s

/-- `RD.PKEY` (R117). -/
def execRdPkey (s : State) : Host.Outcome State Fault Refusal := sendRead .rdPkey cfg.opPkey s

end Sys2Proof.Machine
end

