-- ==== Sys2Proof/Machine/Writes.lean ====
section
/-! DEFINITION. The ten write operations (R131 to R140) and the display transaction (R87). -/

namespace Sys2Proof.Machine

/-- `WR.LED1 r, g, b` (R131): blue first. -/
def execWrLed1 (r g b : Byte) (s : State) : Host.Outcome State Fault Refusal :=
  sendWrite (.wrLed1 r g b) cfg.opLed1 (ledPayload r g b) s

/-- `WR.LED2 r, g, b` (R132). -/
def execWrLed2 (r g b : Byte) (s : State) : Host.Outcome State Fault Refusal :=
  sendWrite (.wrLed2 r g b) cfg.opLed2 (ledPayload r g b) s

/-- `WR.LED3 r, g, b` (R133). -/
def execWrLed3 (r g b : Byte) (s : State) : Host.Outcome State Fault Refusal :=
  sendWrite (.wrLed3 r g b) cfg.opLed3 (ledPayload r g b) s

/-- `WR.LED4 r, g, b` (R134). -/
def execWrLed4 (r g b : Byte) (s : State) : Host.Outcome State Fault Refusal :=
  sendWrite (.wrLed4 r g b) cfg.opLed4 (ledPayload r g b) s

/-- `WR.MOTOR1 c` (R135): the speed frame of `SETSPEED M1`; it writes no motor register by itself. -/
def execWrMotor1 (c : Int) (s : State) : Host.Outcome State Fault Refusal :=
  speedFrame (.wrMotor1 c) cfg.opMotor1 c s

/-- `WR.MOTOR2 c` (R136). -/
def execWrMotor2 (c : Int) (s : State) : Host.Outcome State Fault Refusal :=
  speedFrame (.wrMotor2 c) cfg.opMotor2 c s

/-- `WR.BRAKE` (R137): the payload is `BRAKE_PAYLOAD(ctx)` of whoever sends it; `last_speed` of no motor is written. -/
def execWrBrake (given : Option (List Byte)) (s : State) : Host.Outcome State Fault Refusal :=
  match given with
  | none => sendWrite (.wrBrake none) cfg.opBrake (Config.brakePayload (brakeContext s.seq)) s
  | some p => givenBrake p s

/-- `WR.COLORCAL t` (R138): the block is idle at once, the settle is the caller's (R141). -/
def execWrColorCal (t : Byte) (s : State) : Host.Outcome State Fault Refusal :=
  sendWrite (.wrColorCal t) cfg.opColorCal [t] s

/-- `WR.FILL` (R139). -/
def execWrFill (flag : Byte) (s : State) : Host.Outcome State Fault Refusal :=
  sendWrite (.wrFill flag) cfg.opFill [flag] s

/-- `WR.ENCRST t` (R140): one byte (conflict C2). -/
def execWrEncRst (t : Byte) (s : State) : Host.Outcome State Fault Refusal :=
  sendWrite (.wrEncRst t) cfg.opEncRst [t] s

/-- `DISP text` (R87). -/
def execDisp (text : List Byte) (s : State) : Host.Outcome State Fault Refusal :=
  sendDisplay (.disp text) text s

end Sys2Proof.Machine
end

