-- ==== Sys2Proof/Machine/Dispatch.lean ====
section
/-! DEFINITION. One arm for each instruction, one call of its meaning each. -/

namespace Sys2Proof.Machine

/-- Perform one frame. -/
def exec (i : Instr) (s : State) : Host.Outcome State Fault Refusal :=
  match i with
  | .rdTest => Sys2Proof.Machine.execRdTest s
  | .rdIr1 => Sys2Proof.Machine.execRdIr1 s
  | .rdIr2 => Sys2Proof.Machine.execRdIr2 s
  | .rdIr3 => Sys2Proof.Machine.execRdIr3 s
  | .rdIr4 => Sys2Proof.Machine.execRdIr4 s
  | .rdIr5 => Sys2Proof.Machine.execRdIr5 s
  | .rdIr6 => Sys2Proof.Machine.execRdIr6 s
  | .rdBat => Sys2Proof.Machine.execRdBat s
  | .rdSound => Sys2Proof.Machine.execRdSound s
  | .rdLight => Sys2Proof.Machine.execRdLight s
  | .rdTouch => Sys2Proof.Machine.execRdTouch s
  | .rdColor => Sys2Proof.Machine.execRdColor s
  | .rdEnc1 => Sys2Proof.Machine.execRdEnc1 s
  | .rdEnc2 => Sys2Proof.Machine.execRdEnc2 s
  | .rdUltra => Sys2Proof.Machine.execRdUltra s
  | .rdPkey => Sys2Proof.Machine.execRdPkey s
  | .wrLed1 r g b => Sys2Proof.Machine.execWrLed1 r g b s
  | .wrLed2 r g b => Sys2Proof.Machine.execWrLed2 r g b s
  | .wrLed3 r g b => Sys2Proof.Machine.execWrLed3 r g b s
  | .wrLed4 r g b => Sys2Proof.Machine.execWrLed4 r g b s
  | .wrMotor1 c => Sys2Proof.Machine.execWrMotor1 c s
  | .wrMotor2 c => Sys2Proof.Machine.execWrMotor2 c s
  | .wrBrake given => Sys2Proof.Machine.execWrBrake given s
  | .wrColorCal t => Sys2Proof.Machine.execWrColorCal t s
  | .wrFill flag => Sys2Proof.Machine.execWrFill flag s
  | .wrEncRst t => Sys2Proof.Machine.execWrEncRst t s
  | .disp text => Sys2Proof.Machine.execDisp text s

end Sys2Proof.Machine
end

