-- ==== Sys2Proof/Machine/Requests.lean ====
section
/-! DEFINITION. The request port (R60, R85): which operation a request stands for, and the refusals of R186. -/

namespace Sys2Proof.Machine

/-- The refusal a decoding error stands for (R58, R186; log 20). -/
def refusalOf : DecodeError → Refusal
  | .incomplete => .notAFrame
  | .unknownMarker => .notAFrame
  | .unknownReadOpcode => .unknownReadOpcode
  | .unknownWriteOpcode => .unknownWriteOpcode
  | .badDisplayLength => .badDisplayLength
  | .badPayloadShape => .badPayloadShape

/-- The frame of `sendWrite(op, payload)` (R88): the decoder checks opcode and payload length against the table, and for
the brake register, whose length is open, `WR.BRAKE` itself does, for an empty payload too (log 15). -/
def sendWriteFrame (op : Byte) (payload : List Byte) : Except DecodeError Instr :=
  if op = cfg.opBrake then .ok (.wrBrake (some payload)) else decodeWrite op payload

/-- The LED frame of LED `k`, 1 to `N_LEDS` (R131 to R134). -/
def ledInstr (k : Nat) (r g b : Byte) : Option Instr :=
  if cfg.nLeds < k then none
  else
    match k with
    | 1 => some (.wrLed1 r g b)
    | 2 => some (.wrLed2 r g b)
    | 3 => some (.wrLed3 r g b)
    | 4 => some (.wrLed4 r g b)
    | _ => none

/-- A request's operands are checked and it becomes an operation, or it is refused by name (R186). The order of the
checks is that of R186 (R189): opcode and shape in the decoder, the bypass of the guard when the frame is performed. -/
def Request.operation (r : Request) : Except Refusal Operation :=
  match r with
  | .frame bytes =>
    match decode bytes with
    | .ok i => .ok (.instr i)
    | .error e => .error (refusalOf e)
  | .sendRead op =>
    match readInstr op with
    | some i => .ok (.sendRead i)
    | none => .error .unknownReadOpcode
  | .sendWrite op payload =>
    match sendWriteFrame op payload with
    | .ok i => .ok (.instr i)
    | .error e => .error (refusalOf e)
  | .led k r g b =>
    match byteOf r, byteOf g, byteOf b with
    | some r, some g, some b =>
      match ledInstr k r g b with
      | some i => .ok (.instr i)
      | none => .error .badOperand
    | _, _, _ => .error .badOperand
  | .brake => .ok (.instr (.wrBrake none))
  | .colorCal t =>
    match byteOf t with
    | some t => .ok (.instr (.wrColorCal t))
    | none => .error .badOperand
  | .fill on => .ok (.instr (.wrFill (fillFlag on)))
  | .encRst t =>
    match byteOf t with
    | some t => .ok (.instr (.wrEncRst t))
    | none => .error .badOperand
  | .display text =>
    match bytesOfInts text with
    | some text => .ok (.instr (.disp text))
    | none => .error .badOperand
  | .setSpeed m v =>
    match motorOf m with
    | some m => .ok (.setSpeed m v (clampSpeed v))
    | none => .error .badOperand
  | .init => .ok .init

end Sys2Proof.Machine
end

