-- ==== Sys2Proof/Machine/Sequencer.lean ====
section
/-! DEFINITION. The operations made of several frames (R61): `SETSPEED` (R150 to R158), `INIT` (R165 to R171), the caller's
`COLORCAL` (R141); accepting a request, going on with an operation, and placing an instruction where step takes it. -/

namespace Sys2Proof.Machine

/-- The speed frame of a motor: opcode 0x04 for M1, 0x05 for M2 (R152). -/
def speedInstr (m : Motor) (c : Int) : Instr :=
  match m with
  | .m1 => .wrMotor1 c
  | .m2 => .wrMotor2 c

/-- Steps 3 and 4 of `SETSPEED`: the speed frame, then the record (R152, R153). -/
def speedTasks (m : Motor) (c : Int) : List Task := [.frame (speedInstr m c), .record m c]

/-- Step 2 of `SETSPEED` in case of a reversal: brake, then the settle delay (R151). -/
def brakeTasks : List Task := [.frame (.wrBrake none), .delay cfg.reversalSettle]

/-- The steps of `SETSPEED m` on the clamped speed `c`, the reversal judged against the recorded speed `p` (R154). -/
def setSpeedTasks (m : Motor) (c p : Int) : List Task :=
  (if isReversal c p then brakeTasks else []) ++ speedTasks m c

/-- One attempt of the handshake (R166). -/
def handshakeTasks : List Task := [.frame .rdTest, .testAck]

/-- After a failed attempt: the pause, then the next attempt (R167). -/
def retryTasks : List Task := .delay cfg.initRetryPause :: handshakeTasks

/-- After the acknowledgment: four LEDs off, one brake frame, fill light off, banner (R168), then `ready` (R170). -/
def resetTasks : List Task :=
  [.frame (.wrLed1 0#8 0#8 0#8), .frame (.wrLed2 0#8 0#8 0#8), .frame (.wrLed3 0#8 0#8 0#8),
    .frame (.wrLed4 0#8 0#8 0#8), .frame (.wrBrake none), .frame (.wrFill (fillFlag false)),
    .frame (.disp Config.banner), .markReady]

/-- The block accepts an operation of several steps and is busy (R85). The reversal test is made here, once, on the
speed recorded when the operation begins (R151). -/
def beginOp (op : Operation) (todo : List Task) (s : State) : State :=
  { s with answer := none, seq := .busy (Busy.start op todo) }

/-- An idle block accepts a request or refuses it (R85, R186); a single frame is performed at once. -/
def accept (r : Request) (s : State) : Host.Outcome State Fault Refusal :=
  match r.operation with
  | .error e => .refused e
  | .ok (.instr i) => exec i s
  | .ok (.sendRead i) => exec i (beginOp (.sendRead i) [.frame i] s)
  | .ok (.setSpeed m v c) => .next (beginOp (.setSpeed m v c) (setSpeedTasks m c (s.lastSpeed m)) s)
  | .ok .init => .next (beginOp .init handshakeTasks s)

/-- A busy block goes on with its operation; the clock may advance before each of its steps (R8). A frame or delay that was
stuck is taken up where it stood (R41); while its micro-step is not enabled only the clock moves (R72). -/
def advance (b : Busy) (s : State) : Host.Outcome State Fault Refusal :=
  match b.micros with
  | m :: ms =>
    match microStep m b s with
    | some (b', s') => .next (runMicros ms b' s')
    | none => .next s.tick
  | [] =>
    match b.todo with
    | [] => .next (finish b s)
    | .frame i :: _ => exec i s
    | .delay d :: rest => .next (runMicros [.reachDelay, .leaveDelay d] { b with todo := rest } s)
    | .record m c :: rest => .next (settle { b with todo := rest } (s.tick.setLastSpeed m c))
    | .testAck :: rest =>
      .next (settle { b with todo := (if isAck b.received then resetTasks else retryTasks) ++ rest } s.tick)
    | .markReady :: rest => .next (settle { b with todo := rest } { s.tick with ready := true })

/-- An instruction placed where step takes its next one. A speed frame is reached only inside `SETSPEED` (R156), so for it
the block is placed at step 3 of that operation (log 28); any other goes to the request port of an idle block. -/
def placeFrame (bytes : List Byte) (s : State) : State :=
  match decode bytes with
  | .ok (.wrMotor1 c) => { s with port := none, seq := .busy (Busy.start (.setSpeed .m1 c c) (speedTasks .m1 c)) }
  | .ok (.wrMotor2 c) => { s with port := none, seq := .busy (Busy.start (.setSpeed .m2 c c) (speedTasks .m2 c)) }
  | _ => { s with port := some (.frame bytes), seq := .idle }

/-- The caller presents a request (R85). -/
def State.present (r : Request) (s : State) : State := { s with port := some r }

/-- The caller withdraws its request, as after a refusal, which has changed nothing (R186, R187). -/
def State.withdraw (s : State) : State := { s with port := none }

/-- The caller's own settle delay of `COLORCAL`: it waits until the reading `settleUntil` (R141). A stalled clock never
gets there. -/
def State.callerSettles (s : State) : Option State :=
  s.await (fun t => decide (s.settleUntil ≤ t)) s.settleUntil

/-- `COLORCAL t`: `WR.COLORCAL t`, then the caller's settle (R141). It is the caller's operation, not the block's: `none`
where the frame is not completed or the settle does not end. -/
def colorCalOp (t : Byte) (s : State) : Option State :=
  match exec (.wrColorCal t) s with
  | .next u => if u.seq = .idle then u.callerSettles else none
  | .fault _ => none
  | .refused _ => none

end Sys2Proof.Machine
end

