-- ==== Sys2Proof/Machine/Step.lean ====
section
/-! DEFINITION. One step of the block. -/

namespace Sys2Proof.Machine

/-- One step. A request presented to an idle block is accepted or refused (R85, R186); one presented to a busy block is
refused before anything of it is looked at (R187, R189). With no request, a busy block goes on with its operation, and of an
idle one nothing moves but the clock (R14). -/
def step (s : State) : Host.Outcome State Fault Refusal :=
  match s.port, s.seq with
  | some _, .busy _ => .refused .busy
  | some r, .idle => accept r s.withdraw
  | none, .busy b => advance b s
  | none, .idle => .next s.tick

/-- The instruction whose table word is `w`, placed so that the next step runs it (logs 2, 28, 30). -/
def State.withFetchWord (s : State) (nbits w : Nat) : State := placeFrame (tableBytes nbits w) s

end Sys2Proof.Machine
end

