-- ==== Sys2Proof/Safety.lean ====
section
/-! DEFINITION. The terms claims are stated in: what a frame puts on the wire, the premises on the environment (R207), the
invariants, and the caller's duties. -/

namespace Sys2Proof.Machine

/-- A wire event without its reading. -/
inductive Act where
  | issue (ch : Channel)
  | tx (v : Byte)
  | rx (bs : List Byte)
deriving DecidableEq, Repr

/-- What an event does, its reading left out. -/
def Event.act : Event → Act
  | .issue _ ch => .issue ch
  | .tx _ v => .tx v
  | .rx _ _ bs => .rx bs

/-- The clock reading an event carries (R21). -/
def Event.reading : Event → Nat
  | .issue t _ => t
  | .tx t _ => t
  | .rx t _ _ => t

/-- What a stretch of the trace does. -/
def acts (es : List Event) : List Act := es.map Event.act

/-- The stamps of a channel's frames, in order (the `ISSUE` events, D6). -/
def issueStamps (ch : Channel) : List Event → List Nat
  | [] => []
  | .issue t c :: es => if c = ch then t :: issueStamps ch es else issueStamps ch es
  | .tx _ _ :: es => issueStamps ch es
  | .rx _ _ _ :: es => issueStamps ch es

/-- The bytes the block has sent, in order. -/
def txBytes : List Event → List Byte
  | [] => []
  | .tx _ v :: es => v :: txBytes es
  | .issue _ _ :: es => txBytes es
  | .rx _ _ _ :: es => txBytes es

/-- The events that `t` has and `s` had not yet. -/
def State.since (s t : State) : List Event := t.trace.drop s.trace.length

/-- The channel a frame is gated by (R71): DISP for the display frame, GEN for every other. -/
def channelOf : Instr → Channel
  | .disp _ => .disp
  | _ => .gen

/-- The bytes a frame transmits (R52 to R54): its encoding, and for `WR.BRAKE` the payload of its context (R137). -/
def wire (ctx : BrakeContext) : Instr → List Byte
  | .wrBrake none => writeFrame cfg.opBrake (Config.brakePayload ctx)
  | i => encode i

/-- How many reply bytes a frame reads: `RW(op)` for a read, none for the others (R100). -/
def replyWidth (i : Instr) : Option Nat := ((readOpcode i).bind descriptor).map (·.1)

/-- The frame of an instruction as acts on the wire, in the fixed order of R91: gate, marker, second byte, then the payload
bytes or the reply. `reply` is what the peer delivers. -/
def frameActs (ctx : BrakeContext) (i : Instr) (reply : Nat → List Byte) : List Act :=
  .issue (channelOf i) :: ((wire ctx i).map .tx ++
    match replyWidth i with
    | some n => [.rx (reply n)]
    | none => [])

/-- What is left of a frame: its gate if it has not passed, the bytes still to be sent, and the reply read if there is
one. -/
def restOfFrame (gate : Option Channel) (vs : List Byte) (reply : Option Nat) : List Micro :=
  gate.toList.map .gate ++ (vs.map .tx ++ reply.toList.map .rx)

/-- What the rest of a frame puts on the wire. `incoming` is what the peer delivers. -/
def restActs (gate : Option Channel) (vs : List Byte) (reply : Option Nat) (incoming : Nat → List Byte) : List Act :=
  gate.toList.map .issue ++ (vs.map .tx ++ reply.toList.map fun n => .rx (incoming n))

/-- The environment keeps its part (R207): the clock keeps advancing and bus primitives return. -/
abbrev State.live (s : State) : Prop := s.env.clockStops = none ∧ s.env.busLeft = none

/-- The bytes the peer is about to deliver (R33: any bytes). -/
def State.incoming (s : State) (n : Nat) : List Byte := s.env.nextBytes n

/-- The operation in progress has come to the frame `i`: the one way a busy block performs an instruction. -/
def State.awaits (s : State) (i : Instr) : Bool :=
  match s.seq with
  | .idle => false
  | .busy b => b.awaits i

/-- The block may perform `i` as an operation of its own: it is idle, `i` is no speed frame (R156), and a given brake
payload has the register's length (R88). -/
def State.accepts (s : State) (i : Instr) : Bool :=
  decide (s.seq = .idle) &&
    match i with
    | .wrMotor1 _ => false
    | .wrMotor2 _ => false
    | .wrBrake (some p) => decide (p.length = (Config.brakePayload .caller).length)
    | _ => true

/-- The block performs `i` as a step of the operation in progress: a speed frame in range (R135), never a brake frame with a
given payload. -/
def State.issues (s : State) (i : Instr) : Bool :=
  s.awaits i &&
    match i with
    | .wrMotor1 c => speedInRange c
    | .wrMotor2 c => speedInRange c
    | .wrBrake (some _) => false
    | _ => true

/-- The state is stuck (R182): busy, and the next micro-step is not enabled. -/
def State.stuck (s : State) : Bool :=
  match s.seq with
  | .idle => false
  | .busy b =>
    match b.micros with
    | [] => false
    | m :: _ => (microStep m b s).isNone

/-- The stamps never lie ahead of the clock (R12). -/
abbrev State.stampsPast (s : State) : Prop := s.lastIssueGen ≤ s.now ∧ s.lastIssueDisp ≤ s.now

/-- The recorded speeds are in [-1023, 1023] (R13). -/
abbrev State.speedsInRange (s : State) : Prop :=
  speedInRange s.lastSpeedM1 = true ∧ speedInRange s.lastSpeedM2 = true

/-- What the sequencer holds belongs to its operation (R61): a single frame has nothing after it, `SETSPEED` goes through
the steps of R154 with the clamped speed, `INIT` through those of R165; there is always something left to do. -/
def Busy.onPlan (b : Busy) : Bool :=
  !(b.micros.isEmpty && b.todo.isEmpty) &&
    match b.op with
    | .instr _ => b.todo.isEmpty
    | .sendRead _ => b.todo.isEmpty
    | .setSpeed m v c => decide (c = clampSpeed v) && decide (b.todo <:+ brakeTasks ++ speedTasks m c)
    | .init => decide (b.todo <:+ retryTasks) || decide (b.todo <:+ resetTasks)

/-- The sequencer is idle, or on the plan of its operation with a delay start that is past. -/
def State.sequencerOk (s : State) : Bool :=
  match s.seq with
  | .idle => true
  | .busy b => b.onPlan && decide (b.t0 ≤ s.now)

/-- The invariant of every state a run can reach. -/
abbrev State.Inv (s : State) : Prop := s.stampsPast ∧ s.speedsInRange ∧ s.sequencerOk = true

/-- Consecutive entries are at least `d` apart. -/
def spaced (d : Nat) : List Nat → Bool
  | a :: b :: r => decide (a + d ≤ b) && spaced d (b :: r)
  | _ => true

/-- The spacing property R75 over the whole trace of a channel, and that its register holds no stamp earlier than one on
the wire. -/
def State.spacedOn (s : State) (ch : Channel) : Bool :=
  spaced (cfg.minInterval ch) (issueStamps ch s.trace) &&
    (issueStamps ch s.trace).all fun t => decide (t ≤ s.lastIssue ch)

/-- The readings of a stretch of events never go back, and lie between two readings (R14, R38). -/
def readingsWithin (lo hi : Nat) : List Event → Bool
  | [] => decide (lo ≤ hi)
  | e :: es => decide (lo ≤ e.reading) && readingsWithin e.reading hi es

/-- The caller keeps its duties in this state: a request at its port is made of an idle block (R210), with the calibration
settle over (R141, R211), and is `INIT` unless the block has booted (R206). Nothing in the block checks the last two. -/
def State.callerKeepsDuties (s : State) : Bool :=
  s.port.isNone ||
    (decide (s.seq = .idle) && decide (s.settleUntil ≤ s.now) && (s.ready || decide (s.port = some .init)))

/-- Change a state inside an outcome. -/
def mapNext (f : State → State) : Host.Outcome State Fault Refusal → Host.Outcome State Fault Refusal
  | .next s => .next (f s)
  | .fault e => .fault e
  | .refused r => .refused r

end Sys2Proof.Machine
end

