-- ==== Sys2Proof/Certificates/Slice0/Obligations.lean ====
section
/-! DEFINITION. The statements for the provers. -/

open Sys2Proof Sys2Proof.Machine

namespace Sys2Proof.Machine

/-- What a completed read hands back and puts on the wire, from an idle block in a live environment: the frame
`80 op` with a reply of `n` bytes, and a value that is right for the reply bytes whatever they are; the GEN stamp is
at least 1 after the previous one; nothing else of the block has moved. -/
def ReadCompletes (i : Instr) (op : Byte) (n : Nat) (right : List Byte → Value → Prop) : Prop :=
  ∀ s : State, s.seq = .idle → s.live →
    ∃ t v, exec i s = .next t ∧ t.seq = .idle ∧ t.answer = some (.value v) ∧ right (s.incoming n) v ∧
      (s.incoming n).length = n ∧
      acts (s.since t) = [.issue .gen, .tx 0x80#8, .tx op, .rx (s.incoming n)] ∧
      s.lastIssueGen + 1 ≤ t.lastIssueGen ∧ s.now ≤ t.lastIssueGen ∧ t.lastIssueGen ≤ t.now ∧
      t.lastIssueDisp = s.lastIssueDisp ∧ t.lastSpeedM1 = s.lastSpeedM1 ∧ t.lastSpeedM2 = s.lastSpeedM2

/-- What a completed write puts on the wire, from an idle block in a live environment: the frame `81 op` and the payload
bytes in order; it hands back nothing; the GEN stamp is at least 1 after the previous one; nothing else has moved. -/
def WriteCompletes (i : Instr) (op : Byte) (payload : List Byte) : Prop :=
  ∀ s : State, s.seq = .idle → s.live →
    ∃ t, exec i s = .next t ∧ t.seq = .idle ∧ t.answer = some .done ∧
      acts (s.since t) = .issue .gen :: .tx 0x81#8 :: .tx op :: payload.map .tx ∧
      s.lastIssueGen + 1 ≤ t.lastIssueGen ∧ s.now ≤ t.lastIssueGen ∧ t.lastIssueGen ≤ t.now ∧
      t.lastIssueDisp = s.lastIssueDisp ∧ t.lastSpeedM1 = s.lastSpeedM1 ∧ t.lastSpeedM2 = s.lastSpeedM2

/-- The value of two reply bytes, least significant first. -/
def value16 (b0 b1 : Byte) : Nat := b0.toNat + 256 * b1.toNat

/-- The value of four reply bytes, least significant first. -/
def value32 (b0 b1 b2 b3 : Byte) : Nat := b0.toNat + 256 * b1.toNat + 65536 * b2.toNat + 16777216 * b3.toNat

/-- A 32-bit value read as two's complement. -/
def signed32 (u : Nat) : Int := if u < 2147483648 then (u : Int) else (u : Int) - 4294967296

/-- `q` is `p / 210` truncated toward zero: the magnitude is the floor of `|p| / 210`, the sign that of `p`. -/
def truncatedBy210 (p q : Int) : Prop :=
  210 * q.natAbs ≤ p.natAbs ∧ p.natAbs < 210 * (q.natAbs + 1) ∧ (0 ≤ p → 0 ≤ q) ∧ (p ≤ 0 → q ≤ 0)

/-- What the ghosts and the observation hold is forgotten. -/
def forgetGhosts (t : State) : State := { t with ready := false, trace := [], settleUntil := 0 }

end Sys2Proof.Machine

/-! ## Encoding -/

/-- R50 to R57: decoding what an instruction encodes to gives it back, with every operand at every value its frame can
carry (the operand ranges of R135 and R54; a given brake payload of 1 to 18 bytes, log 15). -/
def Obligations.DecodeAfterEncodeGivesInstruction : Prop :=
  ∀ i : Instr, i.wf = true → decode (encode i) = .ok i

/-- R50 to R57: whatever the decoder accepts is exactly the frame of the instruction it gives. -/
def Obligations.EncodeAfterDecodeGivesBytes : Prop :=
  ∀ (bs : List Byte) (i : Instr), decode bs = .ok i → encode i = bs

/-- R55 to R57: header words of the opcode table, as a sanity check of the decoder.
The layout of a word's further bytes is the model's (log 30). -/
def Obligations.TableWordsDecode : Prop :=
  decodeTableWord 16 0x8000 = some .rdTest ∧ decodeTableWord 16 0x800B = some .rdColor ∧
  decodeTableWord 16 0x800F = some .rdPkey ∧ decodeTableWord 16 0x8102 = some (.wrLed3 0#8 0#8 0#8) ∧
  decodeTableWord 16 0x8105 = some (.wrMotor2 0) ∧ decodeTableWord 16 0x8109 = some (.wrEncRst 0#8) ∧
  decodeTableWord 16 0x8212 = some (.disp (List.replicate 18 0#8)) ∧ decodeTableWord 16 0x8010 = none ∧
  decodeTableWord 16 0x810A = none ∧ decodeTableWord 16 0x8213 = none ∧ decodeTableWord 16 0x8300 = none

/-- R58 (a) to (d), each by its name: reserved read opcodes, reserved write opcodes, other first bytes, length bytes above
18. R58 (e): a payload whose length is not the register's `PW(op)` of R130 (the brake register's payload is open).
Rejecting is the spec's own decision (D17, D25); the names are the model's (log 20). -/
def Obligations.ReservedEncodingsRejected : Prop :=
  (∀ (op : Byte) (rest : List Byte), 0x10 ≤ op.toNat → decode (0x80#8 :: op :: rest) = .error .unknownReadOpcode) ∧
  (∀ (op : Byte) (rest : List Byte), 0x0A ≤ op.toNat → decode (0x81#8 :: op :: rest) = .error .unknownWriteOpcode) ∧
  (∀ (m x : Byte) (rest : List Byte), m ≠ 0x80#8 → m ≠ 0x81#8 → m ≠ 0x82#8 →
    decode (m :: x :: rest) = .error .unknownMarker) ∧
  (∀ (l : Byte) (rest : List Byte), 18 < l.toNat → decode (0x82#8 :: l :: rest) = .error .badDisplayLength) ∧
  (∀ (op : Byte) (rest : List Byte) (w : Nat), op ≠ 0x06#8 → payloadWidth 0 op = some w → rest.length ≠ w →
    decode (0x81#8 :: op :: rest) = .error .badPayloadShape)

/-- R62: from its first two bytes and the tables, every frame the block transmits is cut off whatever stream follows it;
for a brake frame the length is the parameter's, or the given payload's. -/
def Obligations.FramesAreCutFromAStream : Prop :=
  ∀ (ctx : BrakeContext) (i : Instr) (brakeLen : Nat) (rest : List Byte),
    (∀ g, i = .wrBrake g → brakeLen = (g.getD (Config.brakePayload ctx)).length) →
    cutFrame brakeLen (wire ctx i ++ rest) = some (wire ctx i, rest)

/-- R7: the motor payload of every speed in range is low byte first, and read as a signed little-endian number it is that
speed. Two's complement is presumed (D8: general knowledge, log 16). -/
def Obligations.SpeedPayloadIsSignedLittleEndian : Prop :=
  ∀ c : Int, -1023 ≤ c → c ≤ 1023 →
    ∃ lo hi : Byte, encLe16s c = [lo, hi] ∧ (lo.toNat + 256 * hi.toNat : Int) = (if 0 ≤ c then c else c + 65536) ∧
      leS [lo, hi] = c

/-! ## The step -/

/-- A step runs the decoded instruction: a frame presented to an idle block is taken from the port and performed; and a busy
block that has come to a frame performs that one.
What one step is, and that a request stands at a port, are the model's (logs 1, 10). -/
def Obligations.StepRunsTheFrame : Prop :=
  (∀ (s : State) (bytes : List Byte) (i : Instr), s.port = some (.frame bytes) → s.seq = .idle → decode bytes = .ok i →
    i.wf = true → step s = exec i { s with port := none }) ∧
  (∀ (s : State) (b : Busy) (i : Instr) (rest : List Task), s.port = none → s.seq = .busy b → b.micros = [] →
    b.todo = .frame i :: rest → step s = exec i s)

/-- R187, R189: a busy block refuses every request, whatever it is, and every instruction but the one its operation has come
to.
The refusals are the spec's own decision (D18), their form the model's (log 19). -/
def Obligations.BusyBlockRefuses : Prop :=
  ∀ (s : State) (b : Busy), s.seq = .busy b →
    (∀ r, s.port = some r → step s = .refused .busy) ∧ (∀ i : Instr, b.awaits i = false → exec i s = .refused .busy)

/-- R190: the refusal outcome is reached only by a request, with the name `busy` exactly in a busy block (R187) and one of
the reasons of R186 or R58 in an idle one, never `notModelled`. With no request at the port a step always answers next.
The refusals are the spec's own decisions (D17, D18, D22), those for R58 the model's (logs 19, 20). -/
def Obligations.RefusalsOnlyForRequests : Prop :=
  ∀ s : State, s.Inv →
    (s.port = none → ∃ t, step s = .next t) ∧
    (∀ r, step s = .refused r → s.port ≠ none ∧ (r = .busy ↔ s.seq ≠ .idle) ∧ ∀ m, r ≠ .notModelled m)

/-- R186 (1) to (4): requests whose opcode, payload or directness is wrong are refused by name; R189 gives the order.
Refusing is the spec's own decision (D17, D22), its form the model's (logs 19, 35). -/
def Obligations.BadFramesRefused : Prop :=
  ∀ s : State, s.seq = .idle →
    (∀ op rest, s.port = some (.frame (0x80#8 :: op :: rest)) → 0x10 ≤ op.toNat →
      step s = .refused .unknownReadOpcode) ∧
    (∀ op p, s.port = some (.frame (0x81#8 :: op :: p)) → 0x0A ≤ op.toNat → step s = .refused .unknownWriteOpcode) ∧
    (∀ op p w, s.port = some (.frame (0x81#8 :: op :: p)) → op ≠ 0x06#8 → payloadWidth 0 op = some w → p.length ≠ w →
      step s = .refused .badPayloadShape) ∧
    (∀ op lo hi, s.port = some (.frame [0x81#8, op, lo, hi]) → op = 0x04#8 ∨ op = 0x05#8 →
      step s = .refused .motorWriteBypassesGuard) ∧
    (∀ op, s.port = some (.sendRead op) → 0x10 ≤ op.toNat → step s = .refused .unknownReadOpcode) ∧
    (∀ op p, s.port = some (.sendWrite op p) → 0x0A ≤ op.toNat → step s = .refused .unknownWriteOpcode) ∧
    (∀ op p w, s.port = some (.sendWrite op p) → payloadWidth (Config.brakePayload .caller).length op = some w →
      p.length ≠ w → step s = .refused .badPayloadShape) ∧
    (∀ op lo hi, s.port = some (.sendWrite op [lo, hi]) → op = 0x04#8 ∨ op = 0x05#8 →
      step s = .refused .motorWriteBypassesGuard) ∧
    (∀ p, s.port = some (.frame (0x81#8 :: 0x06#8 :: p)) → p ≠ [] →
      p.length ≠ (Config.brakePayload .caller).length → step s = .refused .badPayloadShape)

/-- R186 (5): an operand that is not of its type is refused: an LED component, a trigger or a text element outside 0 to 255,
a motor other than M1 and M2, an LED other than 1 to 4.
Refusing is the spec's own decision (D17), its form the model's (log 19). -/
def Obligations.BadOperandsRefused : Prop :=
  ∀ s : State, s.seq = .idle →
    (∀ k r g b, s.port = some (.led k r g b) →
      (k < 1 ∨ 4 < k ∨ r < 0 ∨ 255 < r ∨ g < 0 ∨ 255 < g ∨ b < 0 ∨ 255 < b) → step s = .refused .badOperand) ∧
    (∀ t, s.port = some (.colorCal t) ∨ s.port = some (.encRst t) → t < 0 ∨ 255 < t → step s = .refused .badOperand) ∧
    (∀ text, s.port = some (.display text) → (∃ v ∈ text, v < 0 ∨ 255 < v) → step s = .refused .badOperand) ∧
    (∀ m v, s.port = some (.setSpeed m v) → m ≠ 1 → m ≠ 2 → step s = .refused .badOperand)

/-- R60: the named requests are performed as their frames, with the operands the caller gives: LED `k` with red, green and
blue, a trigger, a fill flag of 1 or 0 (log 14), a text of any length, a brake. -/
def Obligations.NamedRequestsRunTheirFrames : Prop :=
  ∀ s : State, s.seq = .idle →
    (∀ r g b : Byte, ∀ k i, (k, i) ∈ [(1, Instr.wrLed1 r g b), (2, .wrLed2 r g b), (3, .wrLed3 r g b), (4, .wrLed4 r g b)] →
      s.port = some (.led k r.toNat g.toNat b.toNat) → step s = exec i { s with port := none }) ∧
    (∀ t : Byte, s.port = some (.colorCal t.toNat) → step s = exec (.wrColorCal t) { s with port := none }) ∧
    (∀ t : Byte, s.port = some (.encRst t.toNat) → step s = exec (.wrEncRst t) { s with port := none }) ∧
    (∀ on, s.port = some (.fill on) → step s = exec (.wrFill (if on then 1#8 else 0#8)) { s with port := none }) ∧
    (∀ text : List Byte, s.port = some (.display (text.map fun b => (b.toNat : Int))) →
      step s = exec (.disp text) { s with port := none }) ∧
    (s.port = some .brake → step s = exec (.wrBrake none) { s with port := none })

/-! ## Invariants -/

/-- The invariant holds after reset: the stamps (log 7: the model's value 0) not ahead of the clock, the speeds in range
(R22), the sequencer idle (R24). -/
def Obligations.ResetMeetsInvariant : Prop :=
  State.reset.Inv ∧ ∀ ch, State.reset.spacedOn ch = true

/-- R12, R13, R19, R61: every step keeps the invariant: stamps never ahead of the clock, recorded speeds within
[-1023, 1023], the sequencer on the plan of its operation with a delay start that is past.
What the sequencer holds is the model's (log 1). -/
def Obligations.StepKeepsInvariant : Prop :=
  ∀ s t : State, s.Inv → step s = .next t → t.Inv

/-- R75: on each channel, the stamps of consecutive frames are at least `MIN_INTERVAL` apart, in every state a step leads
to from one where they are, whatever the clock, the bus and the peer do. -/
def Obligations.StepKeepsFrameSpacing : Prop :=
  ∀ (s t : State) (ch : Channel), s.spacedOn ch = true → step s = .next t → t.spacedOn ch = true

/-- R14, R21, R38: a step never moves the clock back and never changes the trace it finds; the events it adds carry readings
that lie between the two and never go back. -/
def Obligations.ClockAndTraceOnlyMoveOn : Prop :=
  ∀ s t : State, step s = .next t →
    s.now ≤ t.now ∧ ∃ es, t.trace = s.trace ++ es ∧ readingsWithin s.now t.now es = true

/-- R13, R153: a step changes a recorded speed only as step 4 of `SETSPEED` for that motor, to the clamped speed. -/
def Obligations.OnlySetSpeedWritesSpeeds : Prop :=
  ∀ (s t : State) (m : Motor), s.Inv → step s = .next t → t.lastSpeed m ≠ s.lastSpeed m →
    ∃ b v c, s.seq = .busy b ∧ b.op = .setSpeed m v c ∧ b.micros = [] ∧ b.todo = [.record m c] ∧
      t.lastSpeed m = c ∧ c = max (-1023) (min 1023 v) ∧ t.trace = s.trace

/-- R11, R72: a step changes a channel's stamp only by a gate of that channel, and then to that gate's reading. -/
def Obligations.OnlyGatesWriteStamps : Prop :=
  ∀ (s t : State) (ch : Channel), step s = .next t → t.lastIssue ch ≠ s.lastIssue ch →
    .issue (t.lastIssue ch) ch ∈ s.since t

/-- R20, R170: a step never clears `ready`, and sets it only as the last step of `INIT`, which leaves the block idle.
`ready` is a ghost (D19, log 8). -/
def Obligations.OnlyInitSetsReady : Prop :=
  ∀ s t : State, s.Inv → step s = .next t → t.ready ≠ s.ready →
    t.ready = true ∧ t.seq = .idle ∧ ∃ b, s.seq = .busy b ∧ b.op = .init ∧ b.todo = [.markReady]

/-- R20, R21: no rule of the block reads the ghosts or the trace: what a step does to the rest is the same whatever they
hold.
`settleUntil` is the model's own ghost (log 11). -/
def Obligations.GhostsAreNeverRead : Prop :=
  ∀ (s : State) (r : Bool) (tr : List Event) (u : Nat),
    mapNext forgetGhosts (step { s with ready := r, trace := tr, settleUntil := u }) = mapNext forgetGhosts (step s)

/-- R74: the channels are independent: an instruction on one channel does the same whatever the other's stamp is, and leaves
that stamp as it is. -/
def Obligations.ChannelsAreIndependent : Prop :=
  ∀ (i : Instr) (s : State) (ch : Channel) (x : Nat), ch ≠ channelOf i →
    exec i (s.setLastIssue ch x) = mapNext (fun t => t.setLastIssue ch x) (exec i s)

/-- R157: the motors are independent: accepting or going on with a `SETSPEED` of one motor does the same whatever speed
the other motor's register holds, and leaves it.
The steps of `SETSPEED` are the model's (log 1). -/
def Obligations.MotorsAreIndependent : Prop :=
  ∀ (s : State) (m m' : Motor) (x : Int), m' ≠ m →
    (s.seq = .idle ∧ (∃ n v, s.port = some (.setSpeed n v) ∧ motorOf n = some m) ∨
      s.port = none ∧ ∃ b v c, s.seq = .busy b ∧ b.op = .setSpeed m v c ∧ b.onPlan = true) →
    step (s.setLastSpeed m' x) = mapNext (fun t => t.setLastSpeed m' x) (step s)

/-! ## Time and the bus -/

/-- R72: with a running clock `GATE(ch)` passes at a reading at least `MIN_INTERVAL[ch]` after the last stamp, at once where
that already holds, else at the first reading where it does; that reading is what it writes and what the trace gains. On a
clock that stalls it is enabled exactly when the condition holds at a reading the clock gets to. It writes nothing else and does
not look at the other channel. One reading is tested and written by the spec's own decision (D3, log 27); where the clock
stands when a step is taken is the model's environment (log 3). -/
def Obligations.GateWaitsAndStamps : Prop :=
  ∀ (ch : Channel) (b : Busy) (s : State),
    (∀ r, s.env.clockStops = some r →
      ((microStep (.gate ch) b s).isSome ↔ cfg.minInterval ch ≤ max s.now r - s.lastIssue ch)) ∧
    (s.env.clockStops = none → ∃ t, microStep (.gate ch) b s = some (b, t)) ∧
    (∀ b' t, microStep (.gate ch) b s = some (b', t) →
      b' = b ∧ s.now ≤ t.now ∧ cfg.minInterval ch ≤ t.now - s.lastIssue ch ∧ t.lastIssue ch = t.now ∧
      (cfg.minInterval ch ≤ s.env.nextReading s.now - s.lastIssue ch → t.now = s.env.nextReading s.now) ∧
      (s.env.nextReading s.now - s.lastIssue ch < cfg.minInterval ch →
        t.now = s.lastIssue ch + cfg.minInterval ch) ∧
      t = { s.setLastIssue ch t.now with now := t.now, env := t.env, trace := s.trace ++ [.issue t.now ch] })

/-- R76: `DELAY(d)` records the reading at which it is reached, and is left at a reading at least `d` later; nothing is
transmitted and no register is written. On a clock that stalls it is left exactly when `d` has passed at a reading the clock
gets to. Where the delay starts is the spec's own decision (D20, log 26). -/
def Obligations.DelayIsALowerBound : Prop :=
  ∀ (d : Nat) (b b' : Busy) (s t : State),
    (microStep .reachDelay b s = some (b', t) →
      b'.t0 = t.now ∧ s.now ≤ t.now ∧ t = { s with now := t.now, env := t.env }) ∧
    (microStep (.leaveDelay d) b s = some (b', t) →
      b' = b ∧ d ≤ t.now - b.t0 ∧ s.now ≤ t.now ∧ t = { s with now := t.now, env := t.env }) ∧
    (∀ r, s.env.clockStops = some r → ((microStep (.leaveDelay d) b s).isSome ↔ d ≤ max s.now r - b.t0))

/-- R77: a wait on a clock that stalls before the condition of the gate or delay holds goes on for ever: after any number of
steps nothing of the state has moved but the clock, and that not beyond the reading it stalls at. No fault, no refusal.
The stalling clock is the model's `clockStops` (log 3; D29). -/
def Obligations.StalledClockWaitsForEver : Prop :=
  ∀ (s : State) (b : Busy) (m : Micro) (ms : List Micro) (n r : Nat),
    s.port = none → s.seq = .busy b → b.micros = m :: ms → s.env.clockStops = some r →
    (∃ ch, m = .gate ch ∧ max s.now r - s.lastIssue ch < cfg.minInterval ch) ∨
      (∃ d, m = .leaveDelay d ∧ max s.now r - b.t0 < d) →
    ∃ t, Host.Core.run Sys2Proof.core n s = .next t ∧ t = { s with now := t.now, env := t.env } ∧ s.now ≤ t.now ∧
      t.now ≤ max s.now r

/-- R41: a bus that stalls in the middle of a frame, of an operation of its own or of `SETSPEED` or `INIT`, leaves the block
stuck there, busy and without an answer, with exactly the acts done so far on the wire, the gate's stamp written and the rest of
the frame still to do; no speed is written and no step after the frame is taken. A stalled bus is the model's `busLeft` (log 6). -/
def Obligations.StalledBusLeavesFrameStuck : Prop :=
  ∀ (i : Instr) (s : State) (k : Nat), s.accepts i = true ∨ s.issues i = true → s.env.clockStops = none →
    s.env.busLeft = some k → k + 1 < (frameActs (brakeContext s.seq) i s.incoming).length →
    ∃ t b, exec i s = .next t ∧ t.stuck = true ∧ t.seq = .busy b ∧
      b.micros = restOfFrame none ((wire (brakeContext s.seq) i).drop k) (replyWidth i) ∧
      (s.seq = .idle → b.op = .instr i ∧ b.todo = [] ∧ t.answer = none) ∧
      (∀ b₀, s.seq = .busy b₀ → b.op = b₀.op ∧ b₀.todo = .frame i :: b.todo ∧ t.answer = s.answer) ∧
      acts (s.since t) = (frameActs (brakeContext s.seq) i s.incoming).take (k + 1) ∧
      s.lastIssue (channelOf i) + cfg.minInterval (channelOf i) ≤ t.lastIssue (channelOf i) ∧
      t.lastSpeedM1 = s.lastSpeedM1 ∧ t.lastSpeedM2 = s.lastSpeedM2

/-- R41, R182: a frame that was stuck, before its gate, between its bytes or before its reply, goes on where it stood once the
environment moves: what is left of it is done in order, nothing is done again; then the operation is complete and answers, or has
come to its next step. That a step takes a stuck frame up again is the model's (logs 1, 6). -/
def Obligations.StuckFrameGoesOn : Prop :=
  ∀ (s : State) (b : Busy) (g : Option Channel) (vs : List Byte) (n : Option Nat), s.port = none → s.seq = .busy b →
    b.micros = restOfFrame g vs n → b.micros ≠ [] → s.live →
    ∃ t, step s = .next t ∧ acts (s.since t) = restActs g vs n s.incoming ∧
      (∀ ch, g ≠ some ch → t.lastIssue ch = s.lastIssue ch) ∧
      (∀ ch, g = some ch → s.lastIssue ch + cfg.minInterval ch ≤ t.lastIssue ch) ∧
      (b.todo = [] → t.seq = .idle ∧ t.answer = some (answerOf b.op ((n.map s.incoming).getD b.received))) ∧
      (∀ k rest, b.todo = k :: rest → ∃ b', t.seq = .busy b' ∧ b'.op = b.op ∧ b'.micros = [] ∧ b'.todo = k :: rest ∧
        b'.received = (n.map s.incoming).getD b.received) ∧
      t.lastSpeedM1 = s.lastSpeedM1 ∧ t.lastSpeedM2 = s.lastSpeedM2

/-- R73, R91: whatever the clock and the bus do, what an instruction puts on the wire is its frame in the fixed order, or a
first part of it, with the gate first; the block is idle or goes on with its next step only when the whole frame is on the
wire. -/
def Obligations.FrameActsInOrder : Prop :=
  ∀ (i : Instr) (s t : State), exec i s = .next t →
    acts (s.since t) <+: frameActs (brakeContext s.seq) i s.incoming ∧
    ((∀ b, t.seq = .busy b → b.micros = []) → acts (s.since t) = frameActs (brakeContext s.seq) i s.incoming)

/-! ## What instructions leave alone -/

/-- R71, R86, R88: every read and every write but the display frame leaves the display channel's stamp, both recorded
speeds, `ready` and the port as they were, in every environment; it only adds to the trace; and the calibration ghost, the
model's own (log 11), changes for `WR.COLORCAL` alone where the invariant `Inv` holds. -/
def Obligations.GeneralFramesLeaveTheRest : Prop :=
  ∀ (i : Instr) (s t : State), (∀ text, i ≠ .disp text) → exec i s = .next t →
    t.lastIssueDisp = s.lastIssueDisp ∧ t.lastSpeedM1 = s.lastSpeedM1 ∧ t.lastSpeedM2 = s.lastSpeedM2 ∧
    t.ready = s.ready ∧ t.port = s.port ∧ s.trace <+: t.trace ∧
    (s.Inv → (∀ c, i ≠ .wrColorCal c) → t.settleUntil = s.settleUntil)

/-- R87: a display frame does not write the general channel's stamp and leaves both recorded speeds, `ready`, the port and
the calibration ghost as they were, in every environment; it only adds to the trace.
It is said where the invariant `Inv` holds; the calibration ghost is the model's own (log 11). -/
def Obligations.DisplayFrameLeavesTheRest : Prop :=
  ∀ (text : List Byte) (s t : State), s.Inv → exec (.disp text) s = .next t →
    t.lastIssueGen = s.lastIssueGen ∧ t.lastSpeedM1 = s.lastSpeedM1 ∧ t.lastSpeedM2 = s.lastSpeedM2 ∧
    t.ready = s.ready ∧ t.port = s.port ∧ s.trace <+: t.trace ∧ t.settleUntil = s.settleUntil

/-! ## Reads -/

/-- R102: `RD.TEST` sends 80 00, reads one byte and hands it back unjudged. -/
def Obligations.TestReadCompletes : Prop :=
  ReadCompletes .rdTest 0x00#8 1 fun bs v => ∀ b, bs = [b] → v = .raw b.toNat

/-- R103 to R108, R110, R111, R119: the inverted-analog reads send 80 and their opcode, read two bytes and hand back
`4095 - raw`, negative where the raw value is above 4095 (D9, log 17). The two-byte width is an unverified choice (R125, log 23). -/
def Obligations.InvertedAnalogReadsComplete : Prop :=
  ∀ i op, (i, op) ∈ [(Instr.rdIr1, 0x01#8), (.rdIr2, 0x02#8), (.rdIr3, 0x03#8), (.rdIr4, 0x04#8), (.rdIr5, 0x05#8),
      (.rdIr6, 0x06#8), (.rdSound, 0x08#8), (.rdLight, 0x09#8)] →
    ReadCompletes i op 2 fun bs v => ∀ b0 b1, bs = [b0, b1] → v = .inverted (4095 - (value16 b0 b1 : Int))

/-- R109, R121: `RD.BAT` sends 80 07, reads four bytes and hands over their little-endian pattern, whatever it is.
The result is carried as its pattern (D37, log 33). -/
def Obligations.BatteryReadCompletes : Prop :=
  ReadCompletes .rdBat 0x07#8 4 fun bs v =>
    ∀ b0 b1 b2 b3, bs = [b0, b1, b2, b3] → ∃ w : BitVec 32, v = .float32 w ∧ w.toNat = value32 b0 b1 b2 b3

/-- R112, R117, R118: the touch and power-key reads send 80 0A and 80 0F, read one byte and answer true for the value 1
only. -/
def Obligations.BooleanReadsComplete : Prop :=
  ∀ i op, (i, op) ∈ [(Instr.rdTouch, 0x0A#8), (.rdPkey, 0x0F#8)] →
    ReadCompletes i op 1 fun bs v => ∀ b, bs = [b] → v = .flag (decide (b.toNat = 1))

/-- R113, R122: `RD.COLOR` sends 80 0B, reads three bytes and hands back `(byte2<<16)|(byte1<<8)|byte0`, at most 0xFFFFFF.
The three-byte width is a choice between two passages (C1, log 23). -/
def Obligations.ColorReadCompletes : Prop :=
  ReadCompletes .rdColor 0x0B#8 3 fun bs v =>
    ∀ b0 b1 b2, bs = [b0, b1, b2] →
      ∃ n, v = .packed n ∧ n = b2.toNat <<< 16 ||| b1.toNat <<< 8 ||| b0.toNat ∧
        n = 65536 * b2.toNat + 256 * b1.toNat + b0.toNat ∧ n ≤ 0xFFFFFF

/-- R114, R115, R124: the encoder reads send 80 0C and 80 0D, read four bytes, take them as a signed little-endian count and
hand back its quotient by 210, truncated toward zero.
Two's complement is presumed (D8, log 16). -/
def Obligations.EncoderReadsComplete : Prop :=
  ∀ i op, (i, op) ∈ [(Instr.rdEnc1, 0x0C#8), (.rdEnc2, 0x0D#8)] →
    ReadCompletes i op 4 fun bs v =>
      ∀ b0 b1 b2 b3, bs = [b0, b1, b2, b3] →
        ∃ q, v = .revolutions q ∧ truncatedBy210 (signed32 (value32 b0 b1 b2 b3)) q

/-- R116: `RD.ULTRA` sends 80 0E, reads two bytes and hands back their unsigned value, 0 to 65535, as is. The two-byte width
is an unverified choice (R125, log 23). -/
def Obligations.UltrasonicReadCompletes : Prop :=
  ReadCompletes .rdUltra 0x0E#8 2 fun bs v => ∀ b0 b1, bs = [b0, b1] → v = .raw (value16 b0 b1) ∧ value16 b0 b1 ≤ 65535

/-! ## Writes and the display -/

/-- R131 to R134: the LED writes send 81, their opcode, then blue, green, red. -/
def Obligations.LedWritesComplete : Prop :=
  ∀ r g b : Byte, WriteCompletes (.wrLed1 r g b) 0x00#8 [b, g, r] ∧ WriteCompletes (.wrLed2 r g b) 0x01#8 [b, g, r] ∧
    WriteCompletes (.wrLed3 r g b) 0x02#8 [b, g, r] ∧ WriteCompletes (.wrLed4 r g b) 0x03#8 [b, g, r]

/-- R138, R139, R140: the calibration trigger, the fill-light flag and the encoder-reset trigger are sent as one byte
after 81 07, 81 08 and 81 09, whatever the byte is.
Any flag byte is accepted (log 32); the encoder-reset payload of one byte is a choice between two passages (C2, log 23). -/
def Obligations.OneByteWritesComplete : Prop :=
  ∀ t : Byte, WriteCompletes (.wrColorCal t) 0x07#8 [t] ∧ WriteCompletes (.wrFill t) 0x08#8 [t] ∧
    WriteCompletes (.wrEncRst t) 0x09#8 [t]

/-- R137: a caller's brake sends 81 06 and `BRAKE_PAYLOAD(CALLER)`, which has at most 18 bytes, and writes no recorded speed;
a payload the caller gives is sent as given when it has that length (R88), and refused otherwise.
The payload is open (D10, log 12), a given one the model's reading of R88 (log 15). -/
def Obligations.BrakeWriteCompletes : Prop :=
  WriteCompletes (.wrBrake none) 0x06#8 (Config.brakePayload .caller) ∧ (Config.brakePayload .caller).length ≤ 18 ∧
  ∀ p : List Byte, (p.length = (Config.brakePayload .caller).length → WriteCompletes (.wrBrake (some p)) 0x06#8 p) ∧
    (p.length ≠ (Config.brakePayload .caller).length →
      ∀ s : State, s.seq = .idle → exec (.wrBrake (some p)) s = .refused .badPayloadShape)

/-- R135, R136: the speed frames, as steps of an operation that has come to them, send 81 04 or 81 05 and the speed as two
bytes, and write no recorded speed by themselves; the operation goes on with what is left of it.
Two's complement is presumed (D8, log 16). -/
def Obligations.SpeedFramesComplete : Prop :=
  ∀ i op c, (i, op) ∈ [(Instr.wrMotor1 c, 0x04#8), (.wrMotor2 c, 0x05#8)] → -1023 ≤ c → c ≤ 1023 →
    ∀ (s : State) (b : Busy) (k : Task) (rest : List Task), s.seq = .busy b → b.micros = [] →
      b.todo = .frame i :: k :: rest → s.live →
      ∃ t b', exec i s = .next t ∧ t.seq = .busy b' ∧ b'.micros = [] ∧ b'.todo = k :: rest ∧ b'.op = b.op ∧
        acts (s.since t) = .issue .gen :: .tx 0x81#8 :: .tx op :: (encLe16s c).map .tx ∧
        s.lastIssueGen + 1 ≤ t.lastIssueGen ∧ t.lastSpeedM1 = s.lastSpeedM1 ∧ t.lastSpeedM2 = s.lastSpeedM2

/-- R156: a direct request for a speed frame is refused, for every operand, by an idle block.
Refusing is the spec's own decision (D22, log 19). -/
def Obligations.DirectSpeedFramesRefused : Prop :=
  ∀ (s : State) (c : Int), s.seq = .idle →
    exec (.wrMotor1 c) s = .refused .motorWriteBypassesGuard ∧ exec (.wrMotor2 c) s = .refused .motorWriteBypassesGuard

/-- R155 (a), R156: a speed frame is performed only as step 3 of a `SETSPEED` of its own motor, with that operation's clamped
speed, and nothing but the record of that speed is left of the operation then.
It rests on the model's invariant `Inv`, which every step keeps. -/
def Obligations.SpeedFramesOnlyFromTheGuard : Prop :=
  ∀ (s t : State) (c : Int) (i : Instr) (m : Motor), (i, m) ∈ [(Instr.wrMotor1 c, Motor.m1), (.wrMotor2 c, .m2)] →
    s.Inv → exec i s = .next t →
    ∃ b v, s.seq = .busy b ∧ b.op = .setSpeed m v c ∧ c = max (-1023) (min 1023 v) ∧ b.micros = [] ∧
      b.todo = [.frame i, .record m c]

/-- R87: `DISP text` of any length sends 82, the length byte `min(len(text), 18)` and the first 18 bytes of the text at
most, gated by the display channel alone: its stamp is at least 50 after the previous one, the general stamp is untouched. -/
def Obligations.DisplayFrameCompletes : Prop :=
  ∀ (text : List Byte) (s : State), s.seq = .idle → s.live →
    ∃ t l, exec (.disp text) s = .next t ∧ t.seq = .idle ∧ t.answer = some .done ∧ l.toNat = min text.length 18 ∧
      acts (s.since t) = .issue .disp :: .tx 0x82#8 :: .tx l :: (text.take 18).map .tx ∧
      s.lastIssueDisp + 50 ≤ t.lastIssueDisp ∧ s.now ≤ t.lastIssueDisp ∧ t.lastIssueDisp ≤ t.now ∧
      t.lastIssueGen = s.lastIssueGen ∧ t.lastSpeedM1 = s.lastSpeedM1 ∧ t.lastSpeedM2 = s.lastSpeedM2

/-! ## The motor guard -/

/-- R150: the clamp is the identity in [-1023, 1023] and gives the nearer bound outside; it keeps the sign. -/
def Obligations.ClampKeepsRangeAndSign : Prop :=
  ∀ v : Int, (1023 < v → clampSpeed v = 1023) ∧ (v < -1023 → clampSpeed v = -1023) ∧
    (-1023 ≤ v → v ≤ 1023 → clampSpeed v = v) ∧ -1023 ≤ clampSpeed v ∧ clampSpeed v ≤ 1023 ∧
    (clampSpeed v).sign = v.sign

/-- R151: the reversal test holds exactly for strictly positive against strictly negative, which is where the sign product is
-1; zero on either side is no reversal. -/
def Obligations.ReversalIsStrictSignChange : Prop :=
  ∀ c p : Int, (isReversal c p = true ↔ (0 < p ∧ c < 0 ∨ p < 0 ∧ 0 < c)) ∧
    (isReversal c p = true ↔ c.sign * p.sign = -1)

/-- R152, R153, R154: `SETSPEED` with no reversal, from an idle block in a live environment: after three steps the block is
idle, exactly the speed frame of the clamped speed is on the wire, and the clamped speed is recorded for that motor only.
The record is a step of its own, after the last byte (D30, log 25); the number of steps is the model's (log 1). -/
def Obligations.SetSpeedWithoutReversal : Prop :=
  ∀ (s : State) (n : Nat) (m : Motor) (v c : Int) (op : Byte), s.seq = .idle → s.live →
    s.port = some (.setSpeed n v) → (n, m, op) ∈ [(1, Motor.m1, 0x04#8), (2, .m2, 0x05#8)] →
    c = max (-1023) (min 1023 v) → c.sign * (s.lastSpeed m).sign ≠ -1 →
    ∃ t, Host.Core.run Sys2Proof.core 3 s = .next t ∧ t.seq = .idle ∧ t.port = none ∧ t.answer = some .done ∧
      acts (s.since t) = .issue .gen :: .tx 0x81#8 :: .tx op :: (encLe16s c).map .tx ∧
      t.lastSpeed m = c ∧ (∀ m', m' ≠ m → t.lastSpeed m' = s.lastSpeed m') ∧ t.lastIssueDisp = s.lastIssueDisp

/-- R151 to R155: `SETSPEED` with a reversal: after five steps the block is idle; on the wire are the brake frame of that
motor's context and then the speed frame, whose gate is passed at least 10 time-units after the brake frame's last byte was
sent; the clamped speed is recorded for that motor only.
The settle starts at the brake frame's end (D20, log 26), the record comes after the last byte (D30, log 25); the number of
steps is the model's (log 1). -/
def Obligations.SetSpeedWithReversal : Prop :=
  ∀ (s : State) (n : Nat) (m : Motor) (ctx : BrakeContext) (v c : Int) (op : Byte), s.seq = .idle → s.live →
    s.port = some (.setSpeed n v) →
    (n, m, ctx, op) ∈ [(1, Motor.m1, BrakeContext.m1, 0x04#8), (2, .m2, .m2, 0x05#8)] →
    c = max (-1023) (min 1023 v) → c.sign * (s.lastSpeed m).sign = -1 →
    ∃ t brake speed, Host.Core.run Sys2Proof.core 5 s = .next t ∧ t.seq = .idle ∧ t.port = none ∧
      t.answer = some .done ∧ s.since t = brake ++ speed ∧
      acts brake = .issue .gen :: .tx 0x81#8 :: .tx 0x06#8 :: (Config.brakePayload ctx).map .tx ∧
      acts speed = .issue .gen :: .tx 0x81#8 :: .tx op :: (encLe16s c).map .tx ∧
      (∀ e ∈ brake, ∀ f ∈ speed, e.reading + 10 ≤ f.reading) ∧
      t.lastSpeed m = c ∧ (∀ m', m' ≠ m → t.lastSpeed m' = s.lastSpeed m') ∧ t.lastIssueDisp = s.lastIssueDisp

/-! ## The handshake -/

/-- R165, R168, R170: `INIT` against a peer that acknowledges at once: after eleven steps the block is idle and `ready`; on
the wire are the diagnostic read and the seven frames in order: four LEDs off, one brake, fill light off, banner cut to 18
bytes; no recorded speed has changed.
The order, the one brake frame and the all-zero colour are the spec's own decisions (D13, D14, log 24), the flag byte 0 D11
(log 14), the banner open (log 13), that no `INIT` writes a recorded speed D36 (log 37); the number of steps is the model's
(log 1). -/
def Obligations.InitSendsTheResetSequence : Prop :=
  ∀ s : State, s.seq = .idle → s.live → s.port = some .init → s.incoming 1 = [0xCA#8] →
    ∃ t, Host.Core.run Sys2Proof.core 11 s = .next t ∧ t.seq = .idle ∧ t.ready = true ∧ t.port = none ∧
      t.answer = some .done ∧ t.lastSpeedM1 = s.lastSpeedM1 ∧ t.lastSpeedM2 = s.lastSpeedM2 ∧
      acts (s.since t) =
        [.issue .gen, .tx 0x80#8, .tx 0x00#8, .rx [0xCA#8]] ++
        ([0x00#8, 0x01#8, 0x02#8, 0x03#8].flatMap fun op =>
          [.issue .gen, .tx 0x81#8, .tx op, .tx 0x00#8, .tx 0x00#8, .tx 0x00#8]) ++
        (.issue .gen :: .tx 0x81#8 :: .tx 0x06#8 :: (Config.brakePayload .init).map .tx) ++
        [.issue .gen, .tx 0x81#8, .tx 0x08#8, .tx 0x00#8] ++
        (.issue .disp :: .tx 0x82#8 :: .tx (BitVec.ofNat 8 (min Config.banner.length 18)) ::
          (Config.banner.take 18).map .tx)

/-- R165, R166, R167, R169: if the first reply equal to 0xCA is the k-th, `INIT` issues exactly k diagnostic reads, whose stamps are
at least 200 time-units apart, and then goes on to the reset sequence.
The number of steps is the model's (log 1). -/
def Obligations.InitReadsUntilAcknowledged : Prop :=
  ∀ (s : State) (fails rest : List Byte), s.seq = .idle → s.live → s.port = some .init →
    s.env.replies = fails ++ 0xCA#8 :: rest → (∀ r ∈ fails, r ≠ 0xCA#8) →
    ∃ t b, Host.Core.run Sys2Proof.core (3 * fails.length + 3) s = .next t ∧ t.seq = .busy b ∧ b.op = .init ∧
      b.micros = [] ∧ b.todo = resetTasks ∧ t.ready = s.ready ∧
      acts (s.since t) = (fails ++ [0xCA#8]).flatMap (fun r => [.issue .gen, .tx 0x80#8, .tx 0x00#8, .rx [r]]) ∧
      spaced 200 (issueStamps .gen (s.since t)) = true

/-- R167, R182: against a peer whose scripted replies are all failing ones, `INIT` goes on: after n + 1 steps, for every n up to
the number of those replies, the block is still busy with it, `ready` is as it was before, and no step has faulted or been
refused. The number of steps is the model's (log 1), the scripted replies are its environment (log 5). -/
def Obligations.InitNeverGivesUp : Prop :=
  ∀ (s : State) (n : Nat), s.seq = .idle → s.live → s.port = some .init → n ≤ s.env.replies.length →
    (∀ r ∈ s.env.replies, r ≠ 0xCA#8) →
    ∃ t b, Host.Core.run Sys2Proof.core (n + 1) s = .next t ∧ t.seq = .busy b ∧ b.op = .init ∧ t.ready = s.ready

/-! ## Pure functions, the caller, reset -/

/-- R123, R122: `calcRGB` undoes `pack` component by component, and the colour reply `[b, g, r]` decodes to `PACK(r, g, b)`
(the assignment of components to bytes is the spec's own choice, D7, log 18). -/
def Obligations.ColorComponentsRoundTrip : Prop :=
  ∀ r g b : Byte, calcRgb .red (pack r g b) = r.toNat ∧ calcRgb .green (pack r g b) = g.toNat ∧
    calcRgb .blue (pack r g b) = b.toNat ∧ decPack [b, g, r] = pack r g b

/-- R119: the law of the inverted decode: for raw in [0, 0xFFF] the result is `0xFFF - raw` and lies in 0 to 4095; it is
strictly decreasing over all two-byte replies.
Above 0xFFF the negative value is the spec's own decision (D9, log 17). -/
def Obligations.InvertedDecodeLaw : Prop :=
  ∀ b0 b1 c0 c1 : Byte, decInv [b0, b1] = 0xFFF - (value16 b0 b1 : Int) ∧
    (value16 b0 b1 ≤ 0xFFF → 0 ≤ decInv [b0, b1] ∧ decInv [b0, b1] ≤ 4095) ∧
    (value16 b0 b1 < value16 c0 c1 → decInv [c0, c1] < decInv [b0, b1])

/-- R141, R211: after `WR.COLORCAL` the block is idle at once; the caller's `COLORCAL` ends at least 200 time-units after the
frame has been completed, with nothing more on the wire.
The caller's duty is the model's ghost and a function beside the step (logs 11, 38). -/
def Obligations.ColorCalSettlesWithTheCaller : Prop :=
  ∀ (t : Byte) (s : State), s.seq = .idle → s.live →
    ∃ u w, exec (.wrColorCal t) s = .next u ∧ u.seq = .idle ∧ u.settleUntil = u.now + 200 ∧
      colorCalOp t s = some w ∧ u.now + 200 ≤ w.now ∧ w.trace = u.trace ∧ w.seq = .idle

/-- R22: after reset both recorded speeds are 0. By choice (D5, D19, D36, log 8) the sequencer is idle, `ready` is false and the
trace is empty (R24, R201), and by choice (D4, log 7) the stamps hold `LAST_ISSUE_RESET` = 0. -/
def Obligations.ResetState : Prop :=
  State.reset.lastSpeedM1 = 0 ∧ State.reset.lastSpeedM2 = 0 ∧ State.reset.seq = .idle ∧ State.reset.ready = false ∧
    State.reset.trace = [] ∧ State.reset.lastIssueGen = 0 ∧ State.reset.lastIssueDisp = 0

/-! ## Single rules of the spec, and the codec's own requests -/

/-- R22: after reset both recorded speeds are 0. -/
def Obligations.ResetSpeedsAreZero : Prop := State.reset.lastSpeedM1 = 0 ∧ State.reset.lastSpeedM2 = 0

/-- R150: the clamp is 1023 above 1023, -1023 below -1023 and the identity between; it lies in [-1023, 1023] and keeps the
sign; and everything `SETSPEED` does after it uses the clamped speed: the steps it begins are those of the clamped speed, and
a speed and its clamp begin the same steps. -/
def Obligations.SetSpeedUsesTheClampedSpeed : Prop :=
  ∀ v : Int, (1023 < v → clampSpeed v = 1023) ∧ (v < -1023 → clampSpeed v = -1023) ∧
    (-1023 ≤ v → v ≤ 1023 → clampSpeed v = v) ∧ (-1023 ≤ clampSpeed v ∧ clampSpeed v ≤ 1023) ∧
    (clampSpeed v).sign = v.sign ∧
    ∀ (s : State) (n : Nat) (m : Motor), s.seq = .idle → motorOf n = some m →
      ∃ t t' b b', step { s with port := some (.setSpeed n v) } = .next t ∧
        step { s with port := some (.setSpeed n (clampSpeed v)) } = .next t' ∧ t.seq = .busy b ∧ t'.seq = .busy b' ∧
        b.op = .setSpeed m v (clampSpeed v) ∧ b.micros = [] ∧ b'.micros = [] ∧ b'.todo = b.todo ∧
        b.todo = setSpeedTasks m (clampSpeed v) (s.lastSpeed m) ∧ t = { t' with seq := t.seq }

/-- R86: the request `sendRead(op)` sends 80 and the opcode, reads the bytes the descriptor table gives it and returns them
as they are, whatever they are; the GEN stamp is at least 1 after the previous one and nothing else of the block has moved.
The widths are log 23. -/
def Obligations.SendReadReturnsTheBytes : Prop :=
  ∀ (s : State) (op : Byte) (n : Nat) (rule : DecodeRule), s.seq = .idle → s.live → s.port = some (.sendRead op) →
    descriptor op = some (n, rule) →
    ∃ t, step s = .next t ∧ t.seq = .idle ∧ t.port = none ∧ t.answer = some (.bytes (s.incoming n)) ∧
      (s.incoming n).length = n ∧ acts (s.since t) = [.issue .gen, .tx 0x80#8, .tx op, .rx (s.incoming n)] ∧
      s.lastIssueGen + 1 ≤ t.lastIssueGen ∧ s.now ≤ t.lastIssueGen ∧ t.lastIssueGen ≤ t.now ∧
      t.lastIssueDisp = s.lastIssueDisp ∧ t.lastSpeedM1 = s.lastSpeedM1 ∧ t.lastSpeedM2 = s.lastSpeedM2

/-- R88, R130: the request `sendWrite(op, payload)`, with a payload of the register's length `PW(op)`, sends 81, the opcode and
the payload as given, in order (a direct write to a speed register is refused, R156); for the brake register too, an empty
payload among them where `BRAKE_PAYLOAD(CALLER)` is empty. The widths are log 23, the brake's length open (D10, log 12). -/
def Obligations.SendWriteSendsThePayload : Prop :=
  ∀ (s : State) (op : Byte) (p : List Byte), s.seq = .idle → s.live → s.port = some (.sendWrite op p) →
    payloadWidth (Config.brakePayload .caller).length op = some p.length → op ≠ 0x04#8 → op ≠ 0x05#8 →
    ∃ t, step s = .next t ∧ t.seq = .idle ∧ t.port = none ∧ t.answer = some .done ∧
      acts (s.since t) = .issue .gen :: .tx 0x81#8 :: .tx op :: p.map .tx ∧
      s.lastIssueGen + 1 ≤ t.lastIssueGen ∧ s.now ≤ t.lastIssueGen ∧ t.lastIssueGen ≤ t.now ∧
      t.lastIssueDisp = s.lastIssueDisp ∧ t.lastSpeedM1 = s.lastSpeedM1 ∧ t.lastSpeedM2 = s.lastSpeedM2
end

