-- ==== Sys2Proof/Laws/Encoding.lean ====
section
/-! SUPPORT. The value of every parameter, and the small lemmas of the encoding. -/

namespace Sys2Proof

@[simp] theorem cfg_minIntervalGen : cfg.minIntervalGen = 1 := rfl

@[simp] theorem cfg_minIntervalDisp : cfg.minIntervalDisp = 50 := rfl

@[simp] theorem cfg_reversalSettle : cfg.reversalSettle = 10 := rfl

@[simp] theorem cfg_initRetryPause : cfg.initRetryPause = 200 := rfl

@[simp] theorem cfg_calSettle : cfg.calSettle = 200 := rfl

@[simp] theorem cfg_speedMax : cfg.speedMax = 1023 := rfl

@[simp] theorem cfg_displayMax : cfg.displayMax = 18 := rfl

@[simp] theorem cfg_ack : cfg.ack = 0xCA#8 := rfl

@[simp] theorem cfg_markRead : cfg.markRead = 0x80#8 := rfl

@[simp] theorem cfg_markWrite : cfg.markWrite = 0x81#8 := rfl

@[simp] theorem cfg_markDisplay : cfg.markDisplay = 0x82#8 := rfl

@[simp] theorem cfg_invBase : cfg.invBase = 0xFFF := rfl

@[simp] theorem cfg_encPpr : cfg.encPpr = 7 := rfl

@[simp] theorem cfg_encGear : cfg.encGear = 30 := rfl

@[simp] theorem cfg_fillOn : cfg.fillOn = 0x01#8 := rfl

@[simp] theorem cfg_fillOff : cfg.fillOff = 0x00#8 := rfl

@[simp] theorem cfg_lastIssueResetGen : cfg.lastIssueResetGen = 0 := rfl

@[simp] theorem cfg_lastIssueResetDisp : cfg.lastIssueResetDisp = 0 := rfl

@[simp] theorem cfg_redShift : cfg.redShift = 16 := rfl

@[simp] theorem cfg_greenShift : cfg.greenShift = 8 := rfl

@[simp] theorem cfg_blueShift : cfg.blueShift = 0 := rfl

@[simp] theorem cfg_encDiv : cfg.encDiv = 210 := rfl

@[simp] theorem cfg_minInterval_gen : cfg.minInterval .gen = 1 := rfl

@[simp] theorem cfg_minInterval_disp : cfg.minInterval .disp = 50 := rfl

/-- A read frame is decoded by its opcode. -/
@[simp] theorem decode_read (op : Byte) (rest : List Byte) : decode (0x80#8 :: op :: rest) = decodeRead op rest := rfl

/-- A write frame is decoded by its opcode and payload. -/
@[simp] theorem decode_write (op : Byte) (rest : List Byte) : decode (0x81#8 :: op :: rest) = decodeWrite op rest := rfl

/-- A display frame is decoded by its length byte. -/
@[simp] theorem decode_display (l : Byte) (rest : List Byte) : decode (0x82#8 :: l :: rest) = decodeDisplay l rest := rfl

/-- Any other first byte is no marker (R51, R58). -/
theorem decode_unknown {m : Byte} (x : Byte) (rest : List Byte) (h0 : m ≠ 0x80#8) (h1 : m ≠ 0x81#8) (h2 : m ≠ 0x82#8) :
    decode (m :: x :: rest) = .error .unknownMarker := by
  show (if m = cfg.markRead then decodeRead x rest else if m = cfg.markWrite then decodeWrite x rest
    else if m = cfg.markDisplay then decodeDisplay x rest else .error .unknownMarker) = _
  rw [if_neg (show ¬ m = cfg.markRead from h0), if_neg (show ¬ m = cfg.markWrite from h1),
    if_neg (show ¬ m = cfg.markDisplay from h2)]

/-- A byte is the number it holds. -/
theorem byte_eq_of_toNat {x : Byte} {n : Nat} (h : x.toNat = n) : x = BitVec.ofNat 8 n := by
  apply BitVec.eq_of_toNat_eq
  rw [BitVec.toNat_ofNat, ← h, Nat.mod_eq_of_lt x.isLt]

/-- The two bytes of a speed: the two's complement word's low and high byte (R7). -/
theorem encLe16s_eq {c : Int} (h0 : -32768 ≤ c) (h1 : c ≤ 32767) :
    ∃ lo hi : Byte, encLe16s c = [lo, hi] ∧ ((lo.toNat + 256 * hi.toNat : Nat) : Int) = if 0 ≤ c then c else c + 65536 := by
  have hw : (word16 c : Int) = if 0 ≤ c then c else c + 65536 := by
    unfold word16; split <;> omega
  have hlt : word16 c < 65536 := by split at hw <;> omega
  have e1 : word16 c &&& 0xFF = word16 c % 256 := Nat.and_two_pow_sub_one_eq_mod _ 8
  have e2 : word16 c >>> 8 = word16 c / 256 := Nat.shiftRight_eq_div_pow _ 8
  refine ⟨_, _, rfl, ?_⟩
  rw [BitVec.toNat_ofNat, BitVec.toNat_ofNat, e1, e2, ← hw]
  norm_cast
  omega

/-- The signed value of two bytes (R7). -/
theorem leS_two (lo hi : Byte) : leS [lo, hi] =
    if lo.toNat + 256 * hi.toNat < 32768 then (lo.toNat + 256 * hi.toNat : Int)
    else (lo.toNat + 256 * hi.toNat : Int) - 65536 := by
  simp [leS, leU]

/-- The signed value of four bytes (R7). -/
theorem leS_four (a b c d : Byte) : leS [a, b, c, d] =
    if leU [a, b, c, d] < 2147483648 then (leU [a, b, c, d] : Int) else (leU [a, b, c, d] : Int) - 4294967296 := by
  simp [leS]

/-- The payload of a speed in the signed 16-bit range decodes to that speed. -/
theorem leS_encLe16s {c : Int} (h0 : -32768 ≤ c) (h1 : c ≤ 32767) : leS (encLe16s c) = c := by
  obtain ⟨lo, hi, he, hv⟩ := encLe16s_eq h0 h1
  rw [he, leS_two]
  split at hv <;> split <;> omega

/-- Every two bytes are the payload of the speed they stand for. -/
theorem encLe16s_leS (lo hi : Byte) : encLe16s (leS [lo, hi]) = [lo, hi] := by
  have hl := lo.isLt; have hh := hi.isLt
  have hr : -32768 ≤ leS [lo, hi] ∧ leS [lo, hi] ≤ 32767 := by rw [leS_two]; split <;> omega
  obtain ⟨a, b, he, hv⟩ := encLe16s_eq hr.1 hr.2
  have ha := a.isLt; have hb := b.isLt
  have e : a.toNat = lo.toNat ∧ b.toNat = hi.toNat := by
    rw [leS_two] at hv
    split at hv <;> split at hv <;> omega
  rw [he, BitVec.eq_of_toNat_eq e.1, BitVec.eq_of_toNat_eq e.2]

/-- The frame of the instruction a read opcode stands for. -/
theorem encode_of_readInstr {op : Byte} {i : Instr} (h : readInstr op = some i) : encode i = [0x80#8, op] := by
  have key : ∀ op : Byte, ∀ i ∈ readInstr op, encode i = [0x80#8, op] := by decide
  exact key op i h

/-- The read opcodes are 0x00 to 0x0F (R56, R58). -/
theorem readInstr_isSome (op : Byte) : (readInstr op).isSome = decide (op.toNat < 0x10) := by
  revert op; decide

/-- The write opcodes are 0x00 to 0x09 (R57, R58). -/
theorem payloadWidth_isSome (n : Nat) (op : Byte) : (payloadWidth n op).isSome = decide (op.toNat < 0x0A) := by
  have h0 : ∀ op : Byte, (payloadWidth 0 op).isSome = decide (op.toNat < 0x0A) := by decide
  rw [← h0 op]
  unfold payloadWidth writeWidths
  simp only [List.lookup]
  repeat' split
  all_goals rfl

/-- The channels a request can be gated by are as many as `N_CHANNELS` (R5). -/
theorem channels_counted : [Channel.gen, .disp].length = cfg.nChannels ∧ ∀ ch, ch ∈ [Channel.gen, .disp] :=
  ⟨rfl, fun ch => by cases ch <;> decide⟩

namespace Machine

@[simp] theorem descriptor_00 : descriptor 0x00#8 = some (1, .raw) := rfl

@[simp] theorem descriptor_01 : descriptor 0x01#8 = some (2, .inv) := rfl

@[simp] theorem descriptor_02 : descriptor 0x02#8 = some (2, .inv) := rfl

@[simp] theorem descriptor_03 : descriptor 0x03#8 = some (2, .inv) := rfl

@[simp] theorem descriptor_04 : descriptor 0x04#8 = some (2, .inv) := rfl

@[simp] theorem descriptor_05 : descriptor 0x05#8 = some (2, .inv) := rfl

@[simp] theorem descriptor_06 : descriptor 0x06#8 = some (2, .inv) := rfl

@[simp] theorem descriptor_07 : descriptor 0x07#8 = some (4, .f32) := rfl

@[simp] theorem descriptor_08 : descriptor 0x08#8 = some (2, .inv) := rfl

@[simp] theorem descriptor_09 : descriptor 0x09#8 = some (2, .inv) := rfl

@[simp] theorem descriptor_0A : descriptor 0x0A#8 = some (1, .bool) := rfl

@[simp] theorem descriptor_0B : descriptor 0x0B#8 = some (3, .pack) := rfl

@[simp] theorem descriptor_0C : descriptor 0x0C#8 = some (4, .enc) := rfl

@[simp] theorem descriptor_0D : descriptor 0x0D#8 = some (4, .enc) := rfl

@[simp] theorem descriptor_0E : descriptor 0x0E#8 = some (2, .raw) := rfl

@[simp] theorem descriptor_0F : descriptor 0x0F#8 = some (1, .bool) := rfl

end Machine

end Sys2Proof
end

