-- ==== Sys2Proof/Laws/State.lean ====
section
/-! SUPPORT. One lemma per field per update of the state, so that no later proof unfolds a record update. -/

namespace Sys2Proof.Machine

variable (s : State) (ch : Channel) (m : Motor) (t n : Nat) (c : Int) (e : Event)

@[simp] theorem setLastIssue_lastSpeedM1 : (s.setLastIssue ch t).lastSpeedM1 = s.lastSpeedM1 := by cases ch <;> rfl

@[simp] theorem setLastIssue_lastSpeedM2 : (s.setLastIssue ch t).lastSpeedM2 = s.lastSpeedM2 := by cases ch <;> rfl

@[simp] theorem setLastIssue_seq : (s.setLastIssue ch t).seq = s.seq := by cases ch <;> rfl

@[simp] theorem setLastIssue_ready : (s.setLastIssue ch t).ready = s.ready := by cases ch <;> rfl

@[simp] theorem setLastIssue_now : (s.setLastIssue ch t).now = s.now := by cases ch <;> rfl

@[simp] theorem setLastIssue_trace : (s.setLastIssue ch t).trace = s.trace := by cases ch <;> rfl

@[simp] theorem setLastIssue_port : (s.setLastIssue ch t).port = s.port := by cases ch <;> rfl

@[simp] theorem setLastIssue_answer : (s.setLastIssue ch t).answer = s.answer := by cases ch <;> rfl

@[simp] theorem setLastIssue_settleUntil : (s.setLastIssue ch t).settleUntil = s.settleUntil := by cases ch <;> rfl

@[simp] theorem setLastIssue_env : (s.setLastIssue ch t).env = s.env := by cases ch <;> rfl

@[simp] theorem setLastIssue_gen_gen : (s.setLastIssue .gen t).lastIssueGen = t := rfl

@[simp] theorem setLastIssue_gen_disp : (s.setLastIssue .gen t).lastIssueDisp = s.lastIssueDisp := rfl

@[simp] theorem setLastIssue_disp_disp : (s.setLastIssue .disp t).lastIssueDisp = t := rfl

@[simp] theorem setLastIssue_disp_gen : (s.setLastIssue .disp t).lastIssueGen = s.lastIssueGen := rfl

@[simp] theorem lastIssue_gen : s.lastIssue .gen = s.lastIssueGen := rfl

@[simp] theorem lastIssue_disp : s.lastIssue .disp = s.lastIssueDisp := rfl

/-- Writing a channel's stamp and reading it back. -/
@[simp] theorem lastIssue_setLastIssue_same : (s.setLastIssue ch t).lastIssue ch = t := by cases ch <;> rfl

/-- Writing one channel leaves the other alone (R11). -/
theorem lastIssue_setLastIssue_other (ch' : Channel) (h : ch' ≠ ch) :
    (s.setLastIssue ch t).lastIssue ch' = s.lastIssue ch' := by
  cases ch <;> cases ch' <;> first | rfl | exact absurd rfl h

/-- Writing a motor's speed and reading it back. -/
@[simp] theorem lastSpeed_setLastSpeed_same : (s.setLastSpeed m c).lastSpeed m = c := by cases m <;> rfl

/-- Writing one motor leaves the other alone (R157). -/
theorem lastSpeed_setLastSpeed_other (m' : Motor) (h : m' ≠ m) :
    (s.setLastSpeed m c).lastSpeed m' = s.lastSpeed m' := by
  cases m <;> cases m' <;> first | rfl | exact absurd rfl h

@[simp] theorem setLastSpeed_m1_m1 : (s.setLastSpeed .m1 c).lastSpeedM1 = c := rfl

@[simp] theorem setLastSpeed_m1_m2 : (s.setLastSpeed .m1 c).lastSpeedM2 = s.lastSpeedM2 := rfl

@[simp] theorem setLastSpeed_m2_m2 : (s.setLastSpeed .m2 c).lastSpeedM2 = c := rfl

@[simp] theorem setLastSpeed_m2_m1 : (s.setLastSpeed .m2 c).lastSpeedM1 = s.lastSpeedM1 := rfl

@[simp] theorem lastSpeed_m1 : s.lastSpeed .m1 = s.lastSpeedM1 := rfl

@[simp] theorem lastSpeed_m2 : s.lastSpeed .m2 = s.lastSpeedM2 := rfl

@[simp] theorem lastIssue_setLastSpeed : (s.setLastSpeed m c).lastIssue ch = s.lastIssue ch := by
  cases m <;> cases ch <;> rfl

@[simp] theorem lastSpeed_setLastIssue : (s.setLastIssue ch t).lastSpeed m = s.lastSpeed m := by
  cases m <;> cases ch <;> rfl

@[simp] theorem setLastSpeed_lastIssueGen : (s.setLastSpeed m c).lastIssueGen = s.lastIssueGen := by cases m <;> rfl

@[simp] theorem setLastSpeed_lastIssueDisp : (s.setLastSpeed m c).lastIssueDisp = s.lastIssueDisp := by cases m <;> rfl

@[simp] theorem setLastSpeed_seq : (s.setLastSpeed m c).seq = s.seq := by cases m <;> rfl

@[simp] theorem setLastSpeed_ready : (s.setLastSpeed m c).ready = s.ready := by cases m <;> rfl

@[simp] theorem setLastSpeed_now : (s.setLastSpeed m c).now = s.now := by cases m <;> rfl

@[simp] theorem setLastSpeed_trace : (s.setLastSpeed m c).trace = s.trace := by cases m <;> rfl

@[simp] theorem setLastSpeed_port : (s.setLastSpeed m c).port = s.port := by cases m <;> rfl

@[simp] theorem setLastSpeed_answer : (s.setLastSpeed m c).answer = s.answer := by cases m <;> rfl

@[simp] theorem setLastSpeed_settleUntil : (s.setLastSpeed m c).settleUntil = s.settleUntil := by cases m <;> rfl

@[simp] theorem setLastSpeed_env : (s.setLastSpeed m c).env = s.env := by cases m <;> rfl

@[simp] theorem emit_lastIssueGen : (s.emit e).lastIssueGen = s.lastIssueGen := rfl

@[simp] theorem emit_lastIssueDisp : (s.emit e).lastIssueDisp = s.lastIssueDisp := rfl

@[simp] theorem emit_lastSpeedM1 : (s.emit e).lastSpeedM1 = s.lastSpeedM1 := rfl

@[simp] theorem emit_lastSpeedM2 : (s.emit e).lastSpeedM2 = s.lastSpeedM2 := rfl

@[simp] theorem emit_seq : (s.emit e).seq = s.seq := rfl

@[simp] theorem emit_ready : (s.emit e).ready = s.ready := rfl

@[simp] theorem emit_now : (s.emit e).now = s.now := rfl

@[simp] theorem emit_port : (s.emit e).port = s.port := rfl

@[simp] theorem emit_answer : (s.emit e).answer = s.answer := rfl

@[simp] theorem emit_settleUntil : (s.emit e).settleUntil = s.settleUntil := rfl

@[simp] theorem emit_env : (s.emit e).env = s.env := rfl

@[simp] theorem emit_trace : (s.emit e).trace = s.trace ++ [e] := rfl

@[simp] theorem lastIssue_emit : (s.emit e).lastIssue ch = s.lastIssue ch := by cases ch <;> rfl

@[simp] theorem lastSpeed_emit : (s.emit e).lastSpeed m = s.lastSpeed m := by cases m <;> rfl

@[simp] theorem tick_lastIssueGen : s.tick.lastIssueGen = s.lastIssueGen := rfl

@[simp] theorem tick_lastIssueDisp : s.tick.lastIssueDisp = s.lastIssueDisp := rfl

@[simp] theorem tick_lastSpeedM1 : s.tick.lastSpeedM1 = s.lastSpeedM1 := rfl

@[simp] theorem tick_lastSpeedM2 : s.tick.lastSpeedM2 = s.lastSpeedM2 := rfl

@[simp] theorem tick_seq : s.tick.seq = s.seq := rfl

@[simp] theorem tick_ready : s.tick.ready = s.ready := rfl

@[simp] theorem tick_trace : s.tick.trace = s.trace := rfl

@[simp] theorem tick_port : s.tick.port = s.port := rfl

@[simp] theorem tick_answer : s.tick.answer = s.answer := rfl

@[simp] theorem tick_settleUntil : s.tick.settleUntil = s.settleUntil := rfl

@[simp] theorem lastIssue_tick : s.tick.lastIssue ch = s.lastIssue ch := by cases ch <;> simp

@[simp] theorem lastSpeed_tick : s.tick.lastSpeed m = s.lastSpeed m := by cases m <;> simp

@[simp] theorem deliver_lastIssueGen : (s.deliver n).lastIssueGen = s.lastIssueGen := rfl

@[simp] theorem deliver_lastIssueDisp : (s.deliver n).lastIssueDisp = s.lastIssueDisp := rfl

@[simp] theorem deliver_lastSpeedM1 : (s.deliver n).lastSpeedM1 = s.lastSpeedM1 := rfl

@[simp] theorem deliver_lastSpeedM2 : (s.deliver n).lastSpeedM2 = s.lastSpeedM2 := rfl

@[simp] theorem deliver_seq : (s.deliver n).seq = s.seq := rfl

@[simp] theorem deliver_ready : (s.deliver n).ready = s.ready := rfl

@[simp] theorem deliver_now : (s.deliver n).now = s.now := rfl

@[simp] theorem deliver_port : (s.deliver n).port = s.port := rfl

@[simp] theorem deliver_answer : (s.deliver n).answer = s.answer := rfl

@[simp] theorem deliver_settleUntil : (s.deliver n).settleUntil = s.settleUntil := rfl

@[simp] theorem deliver_trace : (s.deliver n).trace = s.trace ++ [.rx s.now n (s.env.nextBytes n)] := rfl

@[simp] theorem deliver_env : (s.deliver n).env = s.env.bytesTaken n := rfl

@[simp] theorem lastIssue_deliver : (s.deliver n).lastIssue ch = s.lastIssue ch := by cases ch <;> rfl

@[simp] theorem lastSpeed_deliver : (s.deliver n).lastSpeed m = s.lastSpeed m := by cases m <;> rfl

section Finish

variable (b : Busy)

@[simp] theorem finish_lastIssueGen : (finish b s).lastIssueGen = s.lastIssueGen := rfl

@[simp] theorem finish_lastIssueDisp : (finish b s).lastIssueDisp = s.lastIssueDisp := rfl

@[simp] theorem finish_lastSpeedM1 : (finish b s).lastSpeedM1 = s.lastSpeedM1 := rfl

@[simp] theorem finish_lastSpeedM2 : (finish b s).lastSpeedM2 = s.lastSpeedM2 := rfl

@[simp] theorem finish_ready : (finish b s).ready = s.ready := rfl

@[simp] theorem finish_trace : (finish b s).trace = s.trace := rfl

@[simp] theorem finish_port : (finish b s).port = s.port := rfl

@[simp] theorem finish_seq : (finish b s).seq = .idle := rfl

@[simp] theorem finish_answer : (finish b s).answer = some (answerOf b.op b.received) := rfl

@[simp] theorem finish_now : (finish b s).now = s.tick.now := rfl

@[simp] theorem finish_settleUntil : (finish b s).settleUntil = settleAfter b.op s.tick := rfl

@[simp] theorem finish_env : (finish b s).env = s.tick.env := rfl

@[simp] theorem lastIssue_finish : (finish b s).lastIssue ch = s.lastIssue ch := by cases ch <;> rfl

@[simp] theorem lastSpeed_finish : (finish b s).lastSpeed m = s.lastSpeed m := by cases m <;> rfl

end Finish

/-- The clock never goes back in a tick (R14). -/
theorem now_le_tick : s.now ≤ s.tick.now := by
  show s.now ≤ s.env.nextReading s.now
  unfold Env.nextReading
  split <;> omega

end Sys2Proof.Machine
end

