-- ==== Sys2Proof/Laws/Ops.lean ====
section
/-! SUPPORT. What each shared operation can do, said once: waiting, the micro-steps, running a frame. -/

namespace Sys2Proof.Machine

/-! ### Waiting and the bus -/

/-- A clock that stalls shows no reading above the one it stalls at (R77). -/
theorem tick_le_stop {s : State} {r : Nat} (h : s.env.clockStops = some r) : s.tick.now ≤ max s.now r := by
  show s.env.nextReading s.now ≤ _
  unfold Env.nextReading
  simp only [h]
  omega

/-- A step taken after a wait: the clock has not gone back, the condition holds, nothing else of the block has moved, and
the transport and the peer are as they were. -/
theorem await_some {p : Nat → Bool} {e : Nat} {s u : State} (hp : ∀ t, e ≤ t → p t = true)
    (h : s.await p e = some u) :
    s.now ≤ u.now ∧ p u.now = true ∧ u = { s with now := u.now, env := u.env } ∧ u.env.busLeft = s.env.busLeft
      ∧ u.env.replies = s.env.replies ∧ u.env.bytesDrawn = s.env.bytesDrawn := by
  have hn := now_le_tick s
  unfold State.await at h
  split at h
  · cases h; exact ⟨hn, ‹_›, rfl, rfl, rfl, rfl⟩
  · split at h
    · cases h; exact ⟨hn.trans (le_max_left _ _), hp _ (le_max_right _ _), rfl, rfl, rfl, rfl⟩
    · cases h

/-- The reading a step is taken at: the one the clock shows if the step is enabled there, else the earliest one from there on. -/
theorem await_now {p : Nat → Bool} {e : Nat} {s u : State} (h : s.await p e = some u) :
    (p s.tick.now = true → u.now = s.tick.now) ∧ (p s.tick.now = false → u.now = max s.tick.now e) := by
  unfold State.await at h
  split at h <;> rename_i hp
  · cases h; exact ⟨fun _ => rfl, fun h => by simp [h] at hp⟩
  · split at h
    · cases h; exact ⟨fun h => absurd h hp, fun _ => rfl⟩
    · cases h

/-- With a running clock a wait always ends (R77). -/
theorem await_running {p : Nat → Bool} {e : Nat} {s : State} (h : s.env.clockStops = none) :
    ∃ u, s.await p e = some u ∧ u.env.clockStops = none := by
  unfold State.await Env.reaches
  split
  · exact ⟨_, rfl, h⟩
  · exact ⟨{ s.tick with now := max s.tick.now e }, by simp only [h, if_true], h⟩

/-- On a clock that stalls, a wait goes on for ever exactly where the condition holds neither at the next reading nor at one
the clock still gets to (R77). -/
theorem await_none {p : Nat → Bool} {e r : Nat} {s : State} (h : s.env.clockStops = some r) :
    s.await p e = none ↔ p s.tick.now = false ∧ max s.now r < e := by
  unfold State.await Env.reaches
  simp only [h]
  split <;> rename_i hp
  · simp [hp]
  · split <;> rename_i he <;> simp only [decide_eq_true_eq] at he <;> simp [hp]
    · omega
    · omega

/-- The gate's condition holds from `last + interval` on. -/
theorem gateOpen_of_le {t last d : Nat} (h : last + d ≤ t) : gateOpen t last d = true := by
  simp only [gateOpen, decide_eq_true_eq]; omega

/-- An open gate on a channel whose interval is positive: the stamp is at least the interval later. -/
theorem le_of_gateOpen {t last d : Nat} (hd : 0 < d) (h : gateOpen t last d = true) : last + d ≤ t := by
  simp only [gateOpen, decide_eq_true_eq] at h; omega

/-- Both intervals are positive (R5). -/
theorem minInterval_pos (ch : Channel) : 0 < cfg.minInterval ch := by cases ch <;> decide

theorem delayOver_of_le {t t0 d : Nat} (h : t0 + d ≤ t) : delayOver t t0 d = true := by
  simp only [delayOver, decide_eq_true_eq]; omega

/-- A returned bus primitive changes only how many more will return. -/
theorem busReturns_some {s u : State} (h : s.busReturns = some u) :
    s.env.busLeft ≠ some 0 ∧ u = { s with env := { s.env with busLeft := s.env.busLeft.map (· - 1) } } := by
  unfold State.busReturns at h
  split at h
  · cases h
  · cases h; exact ⟨by assumption, rfl⟩

/-- What a tick does to the environment: it never touches the transport or the peer. -/
@[simp] theorem tick_busLeft (s : State) : s.tick.env.busLeft = s.env.busLeft := rfl

@[simp] theorem tick_replies (s : State) : s.tick.env.replies = s.env.replies := rfl

@[simp] theorem tick_bytesDrawn (s : State) : s.tick.env.bytesDrawn = s.env.bytesDrawn := rfl

@[simp] theorem tick_clockStops (s : State) : s.tick.env.clockStops = s.env.clockStops := rfl

/-- The bytes delivered depend only on the peer's part of the environment (R33). -/
theorem nextBytes_congr {e e' : Env} (n : Nat) (h : e'.replies = e.replies) (h' : e'.bytesDrawn = e.bytesDrawn) :
    e'.nextBytes n = e.nextBytes n := by
  simp [Env.nextBytes, h, h']

/-- A read of `n` bytes delivers `n` bytes (R86). -/
@[simp] theorem length_nextBytes (e : Env) (n : Nat) : (e.nextBytes n).length = n := by simp [Env.nextBytes]

/-! ### The trace's vocabulary -/

@[simp] theorem acts_nil : acts [] = [] := rfl

@[simp] theorem acts_append (a b : List Event) : acts (a ++ b) = acts a ++ acts b := by simp [acts]

@[simp] theorem acts_cons (e : Event) (b : List Event) : acts (e :: b) = e.act :: acts b := rfl

@[simp] theorem issueStamps_append (ch : Channel) (a b : List Event) :
    issueStamps ch (a ++ b) = issueStamps ch a ++ issueStamps ch b := by
  induction a with
  | nil => rfl
  | cons e a ih =>
    cases e <;> simp only [List.cons_append, issueStamps, ih]
    split <;> rfl

@[simp] theorem txBytes_append (a b : List Event) : txBytes (a ++ b) = txBytes a ++ txBytes b := by
  induction a with
  | nil => rfl
  | cons e a ih => cases e <;> simp [txBytes, ih]

/-- What has been added to the trace. -/
theorem since_eq {s t : State} {es : List Event} (h : t.trace = s.trace ++ es) : s.since t = es := by
  simp [State.since, h]

/-- The bytes sent are the `TX` acts. -/
theorem txBytes_of_acts {es : List Event} {vs : List Byte} {ch : Channel} {r : List Act}
    (hr : r = [] ∨ ∃ bs, r = [.rx bs]) (h : acts es = .issue ch :: (vs.map .tx ++ r)) : txBytes es = vs := by
  have key : ∀ (es : List Event) (vs : List Byte), acts es = vs.map .tx ++ r → txBytes es = vs := by
    intro es
    induction es with
    | nil =>
      intro vs h
      cases vs with
      | nil => rfl
      | cons v vs => simp at h
    | cons e es ih =>
      intro vs h
      cases vs with
      | nil =>
        rcases hr with rfl | ⟨bs, rfl⟩
        · simp at h
        · cases e with
          | rx t n b =>
            have : es = [] := by simpa [acts] using congrArg List.tail h
            subst this; rfl
          | issue t c => simp [Event.act] at h
          | tx t v => simp [Event.act] at h
      | cons v vs =>
        cases e with
        | tx t w =>
          simp only [acts_cons, Event.act, List.map_cons, List.cons_append, List.cons.injEq, Act.tx.injEq] at h
          simp [txBytes, h.1, ih vs h.2]
        | issue t c => simp [Event.act] at h
        | rx t n b => simp [Event.act] at h
  cases es with
  | nil => simp at h
  | cons e es =>
    cases e with
    | issue t c =>
      simp only [acts_cons, List.cons.injEq] at h
      simpa [txBytes] using key es vs h.2
    | tx t v => simp [Event.act] at h
    | rx t n b => simp [Event.act] at h

/-! ### Micro-steps -/

/-- What a stretch of micro-steps leaves as it was, and how the clock and the trace move on. -/
structure Moved (s t : State) : Prop where
  seq : t.seq = s.seq
  ready : t.ready = s.ready
  port : t.port = s.port
  answer : t.answer = s.answer
  settleUntil : t.settleUntil = s.settleUntil
  speedM1 : t.lastSpeedM1 = s.lastSpeedM1
  speedM2 : t.lastSpeedM2 = s.lastSpeedM2
  now_le : s.now ≤ t.now
  traced : ∃ es, t.trace = s.trace ++ es ∧ readingsWithin s.now t.now es = true

theorem Moved.refl (s : State) : Moved s s :=
  ⟨rfl, rfl, rfl, rfl, rfl, rfl, rfl, le_refl _, [], by simp, by simp [readingsWithin]⟩

@[simp] theorem readingsWithin_nil (lo hi : Nat) : readingsWithin lo hi [] = true ↔ lo ≤ hi := by
  simp [readingsWithin]

@[simp] theorem readingsWithin_cons (lo hi : Nat) (e : Event) (es : List Event) :
    readingsWithin lo hi (e :: es) = true ↔ lo ≤ e.reading ∧ readingsWithin e.reading hi es = true := by
  simp only [readingsWithin, Bool.and_eq_true, decide_eq_true_eq]

/-- The upper bound of a stretch may grow. -/
theorem readingsWithin_mono {lo hi hi' : Nat} {es : List Event} (h : readingsWithin lo hi es = true) (hh : hi ≤ hi') :
    readingsWithin lo hi' es = true := by
  induction es generalizing lo with
  | nil => simp only [readingsWithin, decide_eq_true_eq] at h ⊢; omega
  | cons e es ih =>
    simp only [readingsWithin, Bool.and_eq_true, decide_eq_true_eq] at h ⊢
    exact ⟨h.1, ih h.2⟩

/-- Two stretches, one after the other. -/
theorem readingsWithin_append {lo mid hi : Nat} {a b : List Event} (ha : readingsWithin lo mid a = true)
    (hb : readingsWithin mid hi b = true) : readingsWithin lo hi (a ++ b) = true := by
  induction a generalizing lo with
  | nil =>
    simp only [readingsWithin, decide_eq_true_eq] at ha
    cases b with
    | nil => simp only [readingsWithin, List.append_nil, decide_eq_true_eq] at hb ⊢; omega
    | cons e es =>
      simp only [readingsWithin, List.nil_append, Bool.and_eq_true, decide_eq_true_eq] at hb ⊢
      exact ⟨by omega, hb.2⟩
  | cons e es ih =>
    simp only [readingsWithin, List.cons_append, Bool.and_eq_true, decide_eq_true_eq] at ha ⊢
    exact ⟨ha.1, ih ha.2⟩

theorem Moved.trans {s t u : State} (h : Moved s t) (h' : Moved t u) : Moved s u := by
  obtain ⟨es, e1, r1⟩ := h.traced
  obtain ⟨fs, e2, r2⟩ := h'.traced
  exact ⟨h'.seq.trans h.seq, h'.ready.trans h.ready, h'.port.trans h.port, h'.answer.trans h.answer,
    h'.settleUntil.trans h.settleUntil, h'.speedM1.trans h.speedM1, h'.speedM2.trans h.speedM2,
    h.now_le.trans h'.now_le, es ++ fs, by rw [e2, e1, List.append_assoc], readingsWithin_append r1 r2⟩

/-- A tick moves only the clock. -/
theorem moved_tick (s : State) : Moved s s.tick :=
  ⟨by simp, by simp, by simp, by simp, by simp, by simp, by simp, now_le_tick s, [], by simp,
    by simpa [readingsWithin] using now_le_tick s⟩

/-- A gate that has passed (R72): the reading that passed the test is written and recorded; the transport and the peer have
not moved. -/
theorem gateStep_some {ch : Channel} {s u : State} (h : gateStep ch s = some u) :
    s.now ≤ u.now ∧ gateOpen u.now (s.lastIssue ch) (cfg.minInterval ch) = true
      ∧ u = { s.setLastIssue ch u.now with now := u.now, env := u.env, trace := s.trace ++ [.issue u.now ch] }
      ∧ u.env.busLeft = s.env.busLeft ∧ u.env.replies = s.env.replies ∧ u.env.bytesDrawn = s.env.bytesDrawn := by
  obtain ⟨v, hv, rfl⟩ := Option.map_eq_some_iff.mp h
  obtain ⟨h1, h2, h3, h4, h5, h6⟩ := await_some (fun t => gateOpen_of_le) hv
  refine ⟨by simpa using h1, by simpa using h2, ?_, by simpa using h4, by simpa using h5, by simpa using h6⟩
  rw [h3]
  cases ch <;> rfl

/-- A byte that has been sent (R8). -/
theorem txStep_some {v : Byte} {s u : State} (h : txStep v s = some u) :
    s.env.busLeft ≠ some 0 ∧ s.now ≤ u.now ∧ u = { s with now := u.now, env := u.env, trace := s.trace ++ [.tx u.now v] }
      ∧ u.env.busLeft = s.env.busLeft.map (· - 1) ∧ u.env.replies = s.env.replies
      ∧ u.env.bytesDrawn = s.env.bytesDrawn := by
  obtain ⟨w, hw, rfl⟩ := Option.map_eq_some_iff.mp h
  obtain ⟨h0, rfl⟩ := busReturns_some hw
  refine ⟨h0, ?_, ?_, by simp, by simp, by simp⟩
  · rw [emit_now]; exact now_le_tick { s with env := { s.env with busLeft := s.env.busLeft.map (· - 1) } }
  · rfl

/-- A reply that has been read (R8, R33): the bytes are those the peer was about to deliver. -/
theorem rxStep_some {n : Nat} {s u : State} {bs : List Byte} (h : rxStep n s = some (bs, u)) :
    s.env.busLeft ≠ some 0 ∧ s.now ≤ u.now ∧ bs = s.env.nextBytes n
      ∧ u = { s with now := u.now, env := u.env, trace := s.trace ++ [.rx u.now n bs] }
      ∧ u.env.busLeft = s.env.busLeft.map (· - 1) := by
  obtain ⟨w, hw, hr⟩ := Option.map_eq_some_iff.mp h
  obtain ⟨h0, rfl⟩ := busReturns_some hw
  cases hr
  refine ⟨h0, ?_, nextBytes_congr n (by simp) (by simp), ?_, by simp [Env.bytesTaken]⟩
  · rw [deliver_now]; exact now_le_tick { s with env := { s.env with busLeft := s.env.busLeft.map (· - 1) } }
  · rfl

/-- A delay that has been left (R76). -/
theorem leaveStep_some {t0 d : Nat} {s u : State} (h : leaveStep t0 d s = some u) :
    s.now ≤ u.now ∧ delayOver u.now t0 d = true ∧ u = { s with now := u.now, env := u.env }
      ∧ u.env.busLeft = s.env.busLeft ∧ u.env.replies = s.env.replies ∧ u.env.bytesDrawn = s.env.bytesDrawn :=
  await_some (fun _ => delayOver_of_le) h

/-- What a micro-step puts on the wire. -/
def Micro.acts (bs : List Byte) : Micro → List Act
  | .gate ch => [.issue ch]
  | .tx v => [.tx v]
  | .rx _ => [.rx bs]
  | .reachDelay => []
  | .leaveDelay _ => []

/-- Everything common to all micro-steps: the operation in progress keeps its plan, the block's other state is as it was,
and the trace gains exactly the micro-step's act. -/
theorem microStep_moved {m : Micro} {b b' : Busy} {s s' : State} (h : microStep m b s = some (b', s')) :
    Moved s s' ∧ b'.op = b.op ∧ b'.todo = b.todo ∧ b'.micros = b.micros
      ∧ (∃ es, s'.trace = s.trace ++ es ∧ acts es = m.acts b'.received)
      ∧ ((∃ ch, m = .gate ch) ∨ s'.lastIssueGen = s.lastIssueGen ∧ s'.lastIssueDisp = s.lastIssueDisp) := by
  cases m with
  | gate ch =>
    obtain ⟨u, hu, hr⟩ := Option.map_eq_some_iff.mp h
    cases hr
    obtain ⟨h1, -, h3, -⟩ := gateStep_some hu
    have ht : s'.trace = s.trace ++ [.issue s'.now ch] := by rw [h3]
    refine ⟨⟨?_, ?_, ?_, ?_, ?_, ?_, ?_, h1, _, ht, by simp [readingsWithin, Event.reading, h1]⟩, rfl, rfl, rfl,
      ⟨_, ht, rfl⟩, .inl ⟨ch, rfl⟩⟩ <;> rw [h3] <;> simp
  | tx v =>
    obtain ⟨u, hu, hr⟩ := Option.map_eq_some_iff.mp h
    cases hr
    obtain ⟨-, h1, h3, -⟩ := txStep_some hu
    have ht : s'.trace = s.trace ++ [.tx s'.now v] := by rw [h3]
    refine ⟨⟨?_, ?_, ?_, ?_, ?_, ?_, ?_, h1, _, ht, by simp [readingsWithin, Event.reading, h1]⟩, rfl, rfl, rfl,
      ⟨_, ht, rfl⟩, .inr ⟨?_, ?_⟩⟩ <;> rw [h3]
  | rx n =>
    obtain ⟨⟨bs, u⟩, hu, hr⟩ := Option.map_eq_some_iff.mp h
    cases hr
    obtain ⟨-, h1, -, h3, -⟩ := rxStep_some hu
    have ht : u.trace = s.trace ++ [.rx u.now n bs] := by rw [h3]
    refine ⟨⟨?_, ?_, ?_, ?_, ?_, ?_, ?_, h1, _, ht, by simp [readingsWithin, Event.reading, h1]⟩, rfl, rfl, rfl,
      ⟨_, ht, rfl⟩, .inr ⟨?_, ?_⟩⟩ <;> rw [h3]
  | reachDelay =>
    cases h
    exact ⟨moved_tick s, rfl, rfl, rfl, ⟨[], by simp, rfl⟩, .inr ⟨by simp, by simp⟩⟩
  | leaveDelay d =>
    obtain ⟨u, hu, hr⟩ := Option.map_eq_some_iff.mp h
    cases hr
    obtain ⟨h1, -, h3, -⟩ := leaveStep_some hu
    have ht : s'.trace = s.trace ++ [] := by rw [h3]; simp
    refine ⟨⟨?_, ?_, ?_, ?_, ?_, ?_, ?_, h1, [], ht, by simp [readingsWithin, h1]⟩, rfl, rfl, rfl,
      ⟨_, ht, rfl⟩, .inr ⟨?_, ?_⟩⟩ <;> rw [h3]

/-- In a live environment every micro-step is enabled, and the environment stays live (R207). -/
theorem microStep_live (m : Micro) (b : Busy) {s : State} (h : s.live) :
    ∃ r, microStep m b s = some r ∧ r.2.live := by
  obtain ⟨hc, hb⟩ := h
  have bus : s.busReturns = some s := by
    unfold State.busReturns
    rw [if_neg (by simp [hb]), hb]
    obtain ⟨_, _, _, _, _, _, _, _, _, _, _, ⟨_, _, _, _, _, _⟩⟩ := s
    simp_all
  cases m with
  | gate ch =>
    obtain ⟨u, hu, huc⟩ := await_running (p := fun t => gateOpen t (s.lastIssue ch) (cfg.minInterval ch))
      (e := s.lastIssue ch + cfg.minInterval ch) hc
    obtain ⟨-, -, -, hub, -⟩ := await_some (fun t => gateOpen_of_le) hu
    exact ⟨(b, (u.setLastIssue ch u.now).emit (.issue u.now ch)), by simp [microStep, gateStep, hu],
      by simp [State.live, huc, hub, hb]⟩
  | tx v =>
    exact ⟨(b, s.tick.emit (.tx s.tick.now v)), by simp [microStep, txStep, bus],
      by simp [State.live, hc, hb]⟩
  | rx n =>
    exact ⟨(_, s.tick.deliver n), by simp only [microStep, rxStep, bus, Option.map_some]; rfl,
      by simp [State.live, Env.bytesTaken, hc, hb]⟩
  | reachDelay => exact ⟨_, rfl, by simp [State.live, hc, hb]⟩
  | leaveDelay d =>
    obtain ⟨u, hu, huc⟩ := await_running (p := fun t => delayOver t b.t0 d) (e := b.t0 + d) hc
    obtain ⟨-, -, -, hub, -⟩ := await_some (fun t => delayOver_of_le) hu
    exact ⟨(b, u), by simp [microStep, leaveStep, hu], by simp [State.live, huc, hub, hb]⟩

/-! ### Running micro-steps -/

/-- The micro-steps `ms` have all been taken, from the sequencer and state `b`, `s` to `b'`, `s'`. -/
inductive Ran : List Micro → Busy → State → Busy → State → Prop where
  | done (b : Busy) (s : State) : Ran [] b s b s
  | step {m : Micro} {ms : List Micro} {b b₁ b₂ : Busy} {s s₁ s₂ : State} :
      microStep m b s = some (b₁, s₁) → Ran ms b₁ s₁ b₂ s₂ → Ran (m :: ms) b s b₂ s₂

/-- Running a list of micro-steps ends in one of two ways (R182): all were taken and the operation goes on or is complete,
or the block is stuck before one that is not enabled. -/
theorem runMicros_cases (ms : List Micro) (b : Busy) (s : State) :
    (∃ b' u, Ran ms b s b' u ∧ runMicros ms b s = settle b' u) ∨
    (∃ done m left b' u, ms = done ++ m :: left ∧ Ran done b s b' u ∧ microStep m b' u = none
      ∧ runMicros ms b s = { u with seq := .busy { b' with micros := m :: left } }) := by
  induction ms generalizing b s with
  | nil => exact .inl ⟨b, s, .done b s, rfl⟩
  | cons m ms ih =>
    cases hm : microStep m b s with
    | none => exact .inr ⟨[], m, ms, b, s, rfl, .done b s, hm, by simp [runMicros, hm]⟩
    | some r =>
      obtain ⟨b₁, s₁⟩ := r
      have hrun : runMicros (m :: ms) b s = runMicros ms b₁ s₁ := by simp [runMicros, hm]
      rw [hrun]
      rcases ih b₁ s₁ with ⟨b', u, hr, he⟩ | ⟨done, m', left, b', u, hms, hr, hn, he⟩
      · exact .inl ⟨b', u, .step hm hr, he⟩
      · exact .inr ⟨m :: done, m', left, b', u, by simp [hms], .step hm hr, hn, he⟩

/-- Taken micro-steps keep the operation's plan and everything outside the frame. -/
theorem Ran.moved {ms : List Micro} {b b' : Busy} {s s' : State} (h : Ran ms b s b' s') :
    Moved s s' ∧ b'.op = b.op ∧ b'.todo = b.todo ∧ b'.micros = b.micros := by
  induction h with
  | done b s => exact ⟨.refl s, rfl, rfl, rfl⟩
  | step hm _ ih =>
    obtain ⟨h1, h2, h3, h4, -⟩ := microStep_moved hm
    exact ⟨h1.trans ih.1, ih.2.1.trans h2, ih.2.2.1.trans h3, ih.2.2.2.trans h4⟩

/-- In a live environment all micro-steps are taken (R182: the operation is not stuck). -/
theorem runMicros_live (ms : List Micro) (b : Busy) {s : State} (h : s.live) :
    ∃ b' u, Ran ms b s b' u ∧ u.live ∧ runMicros ms b s = settle b' u := by
  induction ms generalizing b s with
  | nil => exact ⟨b, s, .done b s, h, rfl⟩
  | cons m ms ih =>
    obtain ⟨⟨b₁, s₁⟩, hm, hl⟩ := microStep_live m b h
    obtain ⟨b', u, hr, hu, he⟩ := ih b₁ hl
    exact ⟨b', u, .step hm hr, hu, by simp [runMicros, hm, he]⟩

/-- Sending bytes: the stamps and the bytes received stay, the peer and its next bytes stay, the trace gains the bytes in
order (R38). -/
theorem Ran.sends {vs : List Byte} {b b' : Busy} {s s' : State} (h : Ran (vs.map .tx) b s b' s') :
    b' = b ∧ s'.lastIssueGen = s.lastIssueGen ∧ s'.lastIssueDisp = s.lastIssueDisp
      ∧ s'.env.replies = s.env.replies ∧ s'.env.bytesDrawn = s.env.bytesDrawn
      ∧ ∃ es, s'.trace = s.trace ++ es ∧ acts es = vs.map .tx := by
  induction vs generalizing b s with
  | nil =>
    cases h
    exact ⟨rfl, rfl, rfl, rfl, rfl, [], by simp, rfl⟩
  | cons v vs ih =>
    cases h with
    | step hm hr =>
      obtain ⟨u, hu, he⟩ := Option.map_eq_some_iff.mp hm
      cases he
      obtain ⟨-, -, h3, -, h5, h6⟩ := txStep_some hu
      obtain ⟨i1, i2, i3, i4, i5, es, i6, i7⟩ := ih hr
      have ht := congrArg State.trace h3
      exact ⟨i1, by rw [i2, h3], by rw [i3, h3], i4.trans h5, i5.trans h6, _ :: es,
        by rw [i6, ht, List.append_assoc]; rfl, by simp [Event.act, i7]⟩

/-- Taken micro-steps in two parts. -/
theorem Ran.append_inv {ms ns : List Micro} {b b' : Busy} {s s' : State} (h : Ran (ms ++ ns) b s b' s') :
    ∃ b₁ s₁, Ran ms b s b₁ s₁ ∧ Ran ns b₁ s₁ b' s' := by
  induction ms generalizing b s with
  | nil => exact ⟨b, s, .done b s, h⟩
  | cons m ms ih =>
    cases h with
    | step hm hr =>
      obtain ⟨b₁, s₁, h1, h2⟩ := ih hr
      exact ⟨b₁, s₁, .step hm h1, h2⟩

/-- The rest of a frame that has been done (R41, R91): its gate's stamp is written, its bytes are sent in order, its reply is
received. -/
theorem Ran.rest {g : Option Channel} {vs : List Byte} {n : Option Nat} {b b' : Busy} {s u : State}
    (h : Ran (restOfFrame g vs n) b s b' u) :
    (∃ es, u.trace = s.trace ++ es ∧ acts es = restActs g vs n s.incoming)
      ∧ (∀ ch, g ≠ some ch → u.lastIssue ch = s.lastIssue ch)
      ∧ (∀ ch, g = some ch → s.lastIssue ch + cfg.minInterval ch ≤ u.lastIssue ch)
      ∧ b'.received = (n.map s.incoming).getD b.received := by
  obtain ⟨b₁, s₁, hg, h⟩ := h.append_inv
  obtain ⟨b₂, s₂, hs, hx⟩ := h.append_inv
  obtain ⟨rfl, t1, t2, t3, t4, et, t5, t6⟩ := hs.sends
  have hin : b₂ = b ∧ s₁.env.replies = s.env.replies ∧ s₁.env.bytesDrawn = s.env.bytesDrawn
      ∧ (∃ es, s₁.trace = s.trace ++ es ∧ acts es = g.toList.map .issue)
      ∧ (∀ ch, g ≠ some ch → s₁.lastIssue ch = s.lastIssue ch)
      ∧ (∀ ch, g = some ch → s.lastIssue ch + cfg.minInterval ch ≤ s₁.lastIssue ch) := by
    cases g with
    | none => cases hg; exact ⟨rfl, rfl, rfl, ⟨[], by simp, rfl⟩, fun _ _ => rfl, fun _ h => by cases h⟩
    | some c =>
      cases hg with
      | step hm hd =>
        cases hd
        obtain ⟨v, hv, he⟩ := Option.map_eq_some_iff.mp hm
        cases he
        obtain ⟨-, g2, g3, -, g5, g6⟩ := gateStep_some hv
        have hgap := le_of_gateOpen (minInterval_pos _) g2
        refine ⟨rfl, g5, g6, ⟨_, congrArg State.trace g3, rfl⟩, fun ch hch => ?_, fun ch hch => ?_⟩
        · rw [g3]; cases c <;> cases ch <;> first | rfl | exact absurd rfl hch
        · cases hch; rw [g3]; cases c <;> exact hgap
  obtain ⟨rfl, g1, g2, ⟨eg, g3, g4⟩, g5, g6⟩ := hin
  have ht : ∀ ch, s₂.lastIssue ch = s₁.lastIssue ch := fun ch => by cases ch <;> simp [State.lastIssue, t1, t2]
  have hb : ∀ k, s₂.env.nextBytes k = s.incoming k := fun k => nextBytes_congr k (t3.trans g1) (t4.trans g2)
  cases n with
  | none =>
    cases hx
    refine ⟨⟨eg ++ et, by rw [t5, g3, List.append_assoc], ?_⟩, fun ch hc => (ht ch).trans (g5 ch hc),
      fun ch hc => (ht ch).symm ▸ g6 ch hc, rfl⟩
    simp [restActs, g4, t6]
  | some k =>
    cases hx with
    | step hm hd =>
      cases hd
      obtain ⟨⟨bs, w⟩, hw, he⟩ := Option.map_eq_some_iff.mp hm
      cases he
      obtain ⟨-, -, x2, x3, -⟩ := rxStep_some hw
      have hl : ∀ ch, w.lastIssue ch = s₁.lastIssue ch := fun ch => by rw [x3, ← ht ch]; cases ch <;> rfl
      refine ⟨⟨eg ++ (et ++ [.rx w.now k bs]), ?_, ?_⟩, fun ch hc => (hl ch).trans (g5 ch hc),
        fun ch hc => (hl ch).symm ▸ g6 ch hc, by simp [x2, hb]⟩
      · rw [show w.trace = _ from congrArg State.trace x3, t5, g3]; simp
      · simp [restActs, g4, t6, Event.act, x2, hb]

/-- On a bus that stalls after `k` more primitives, `k` bytes of the rest of a frame are sent and then the block is stuck before
the next bus primitive (R41). -/
theorem runMicros_stalled {vs : List Byte} {n : Option Nat} {k : Nat} {b : Busy} {s : State}
    (hk : s.env.busLeft = some k) (hlt : k < vs.length + n.toList.length) :
    ∃ u, runMicros (restOfFrame none vs n) b s = { u with seq := .busy { b with micros := restOfFrame none (vs.drop k) n } }
      ∧ u.env.busLeft = some 0 ∧ Moved s u ∧ (∀ ch, u.lastIssue ch = s.lastIssue ch)
      ∧ ∃ es, u.trace = s.trace ++ es ∧ acts es = (vs.take k).map .tx := by
  induction vs generalizing k s with
  | nil =>
    cases n with
    | none => simp at hlt
    | some n =>
      obtain rfl : k = 0 := by simp at hlt; omega
      exact ⟨s, by simp [restOfFrame, runMicros, microStep, rxStep, State.busReturns, hk], hk, .refl s, fun _ => rfl, [],
        by simp, rfl⟩
  | cons v vs ih =>
    cases k with
    | zero =>
      exact ⟨s, by simp [restOfFrame, runMicros, microStep, txStep, State.busReturns, hk], hk, .refl s, fun _ => rfl, [],
        by simp, rfl⟩
    | succ k =>
      cases hm : microStep (.tx v) b s with
      | none => simp [microStep, txStep, State.busReturns, hk] at hm
      | some r =>
        obtain ⟨b₁, s₁⟩ := r
        obtain ⟨hmv, -, -, -, ⟨e, he, hea⟩, hl⟩ := microStep_moved hm
        obtain ⟨w, hw, h⟩ := Option.map_eq_some_iff.mp hm
        cases h
        have hl := hl.resolve_left (by rintro ⟨_, h⟩; cases h)
        obtain ⟨u, hu, h1, h2, h3, es, h4, h5⟩ := ih (s := s₁) (k := k)
          (by rw [(txStep_some hw).2.2.2.1, hk]; rfl) (by simp only [List.length_cons] at hlt; omega)
        refine ⟨u, ?_, h1, hmv.trans h2, fun ch => (h3 ch).trans (by cases ch <;> simp [hl]), e ++ es,
          by rw [h4, he, List.append_assoc], by simp [hea, h5, Micro.acts]⟩
        show runMicros (.tx v :: restOfFrame none vs n) b s = _
        simp only [runMicros, hm, hu, List.drop_succ_cons]

end Sys2Proof.Machine
end

