-- ==== Sys2Proof/Laws/Exec.lean ====
section
/-! SUPPORT. What an instruction can do, said once for all of them: when it is performed, what it puts on the wire, what it
leaves alone; then what a step can do. -/

namespace Sys2Proof.Machine

/-- The micro-steps of a frame (R91): gate, the transmitted bytes, the reply. -/
def frameMicros (ctx : BrakeContext) (i : Instr) : List Micro :=
  .gate (channelOf i) :: ((wire ctx i).map .tx ++
    match replyWidth i with
    | some n => [.rx n]
    | none => [])

/-- A frame is the rest of itself. -/
theorem frameMicros_eq_rest (ctx : BrakeContext) (i : Instr) :
    frameMicros ctx i = restOfFrame (some (channelOf i)) (wire ctx i) (replyWidth i) := by
  unfold frameMicros restOfFrame
  cases replyWidth i <;> simp

/-- An instruction of an idle block is its frame's micro-steps, run from the start of an operation of its own (R85). -/
theorem exec_of_accepts {i : Instr} {s : State} (h : s.accepts i = true) :
    s.seq = .idle ∧ exec i s =
      .next (runMicros (frameMicros .caller i) (Busy.start (.instr i) []) { s with answer := none }) := by
  simp only [State.accepts, Bool.and_eq_true, decide_eq_true_eq] at h
  obtain ⟨hs, hi⟩ := h
  refine ⟨hs, ?_⟩
  cases i with
  | wrMotor1 c => simp at hi
  | wrMotor2 c => simp at hi
  | wrBrake given =>
    cases given with
    | none =>
      simp only [exec, execWrBrake, sendWrite, transact, hs, brakeContext]
      simp [frameMicros, channelOf, wire, writeFrame, replyWidth, readOpcode]
    | some p =>
      simp only [decide_eq_true_eq] at hi
      simp only [exec, execWrBrake, givenBrake, sendWrite, transact, hs, if_pos hi, if_true]
      simp [frameMicros, channelOf, wire, encode, writeFrame, replyWidth, readOpcode]
  | disp text =>
    simp only [exec, execDisp, sendDisplay, transact, hs]
    simp [frameMicros, channelOf, wire, encode, displayFrame, replyWidth, readOpcode]
  | _ => simp only [exec, execRdTest, execRdIr1, execRdIr2, execRdIr3, execRdIr4, execRdIr5, execRdIr6, execRdBat,
      execRdSound, execRdLight, execRdTouch, execRdColor, execRdEnc1, execRdEnc2, execRdUltra, execRdPkey, execWrLed1,
      execWrLed2, execWrLed3, execWrLed4, execWrColorCal, execWrFill, execWrEncRst, sendRead, sendWrite, transact, hs]; rfl

/-- An instruction the operation in progress has come to is its frame's micro-steps, run in that operation. -/
theorem exec_of_issues {i : Instr} {s : State} (h : s.issues i = true) :
    ∃ b, s.seq = .busy b ∧ b.awaits i = true ∧
      exec i s = .next (runMicros (frameMicros (brakeContext s.seq) i) { b with todo := b.todo.tail } s) := by
  simp only [State.issues, State.awaits, Bool.and_eq_true] at h
  obtain ⟨ha, hi⟩ := h
  cases hs : s.seq with
  | idle => simp [hs] at ha
  | busy b =>
    rw [hs] at ha
    refine ⟨b, rfl, ha, ?_⟩
    simp only at ha
    cases i with
    | wrMotor1 c =>
      simp only at hi
      simp only [exec, execWrMotor1, speedFrame, sendWrite, transact, hs, ha, hi, if_true]; rfl
    | wrMotor2 c =>
      simp only at hi
      simp only [exec, execWrMotor2, speedFrame, sendWrite, transact, hs, ha, hi, if_true]; rfl
    | wrBrake given =>
      cases given with
      | none =>
        simp only [exec, execWrBrake, sendWrite, transact, hs, ha, if_true]
        simp [frameMicros, channelOf, wire, writeFrame, replyWidth, readOpcode]
      | some p => simp at hi
    | disp text =>
      simp only [exec, execDisp, sendDisplay, transact, hs, ha, if_true]
      simp [frameMicros, channelOf, wire, encode, displayFrame, replyWidth, readOpcode]
    | _ => simp only [exec, execRdTest, execRdIr1, execRdIr2, execRdIr3, execRdIr4, execRdIr5, execRdIr6, execRdBat,
        execRdSound, execRdLight, execRdTouch, execRdColor, execRdEnc1, execRdEnc2, execRdUltra, execRdPkey, execWrLed1,
        execWrLed2, execWrLed3, execWrLed4, execWrColorCal, execWrFill, execWrEncRst, sendRead, sendWrite, transact, hs, ha,
        if_true]; rfl

/-- Where an instruction is neither accepted nor issued it is refused, by one of four names (R186, R187). -/
theorem exec_refused {i : Instr} {s : State} (h : s.accepts i = false) (h' : s.issues i = false) :
    ∃ r, exec i s = .refused r ∧
      (r = .busy ∧ s.seq ≠ .idle ∨ r = .motorWriteBypassesGuard ∧ s.seq = .idle
        ∨ r = .badPayloadShape ∧ s.seq = .idle ∨ r = .badOperand ∧ s.awaits i = true) := by
  cases hs : s.seq with
  | idle =>
    cases i with
    | wrMotor1 c => exact ⟨_, by simp only [exec, execWrMotor1, speedFrame, hs], .inr (.inl ⟨rfl, rfl⟩)⟩
    | wrMotor2 c => exact ⟨_, by simp only [exec, execWrMotor2, speedFrame, hs], .inr (.inl ⟨rfl, rfl⟩)⟩
    | wrBrake given =>
      cases given with
      | none => simp [State.accepts, hs] at h
      | some p =>
        simp only [State.accepts, hs, decide_true, Bool.true_and, decide_eq_false_iff_not] at h
        exact ⟨_, by simp only [exec, execWrBrake, givenBrake, hs, if_true, if_neg h],
          .inr (.inr (.inl ⟨rfl, rfl⟩))⟩
    | _ => simp [State.accepts, hs] at h
  | busy b =>
    cases ha : b.awaits i with
    | false =>
      refine ⟨.busy, ?_, .inl ⟨rfl, by simp⟩⟩
      cases i with
      | wrBrake given =>
        cases given with
        | none => simp [exec, execWrBrake, sendWrite, transact, hs, ha]
        | some p => simp [exec, execWrBrake, givenBrake, hs]
      | _ => simp [exec, execRdTest, execRdIr1, execRdIr2, execRdIr3, execRdIr4, execRdIr5, execRdIr6, execRdBat,
          execRdSound, execRdLight, execRdTouch, execRdColor, execRdEnc1, execRdEnc2, execRdUltra, execRdPkey, execWrLed1,
          execWrLed2, execWrLed3, execWrLed4, execWrColorCal, execWrFill, execWrEncRst, execDisp, execWrMotor1,
          execWrMotor2, speedFrame, sendRead, sendWrite, sendDisplay, transact, hs, ha]
    | true =>
      cases i with
      | wrMotor1 c =>
        have hr : speedInRange c = false := by simpa [State.issues, State.awaits, hs, ha] using h'
        exact ⟨.badOperand, by simp [exec, execWrMotor1, speedFrame, hs, ha, hr],
          .inr (.inr (.inr ⟨rfl, by simp [State.awaits, hs, ha]⟩))⟩
      | wrMotor2 c =>
        have hr : speedInRange c = false := by simpa [State.issues, State.awaits, hs, ha] using h'
        exact ⟨.badOperand, by simp [exec, execWrMotor2, speedFrame, hs, ha, hr],
          .inr (.inr (.inr ⟨rfl, by simp [State.awaits, hs, ha]⟩))⟩
      | wrBrake given =>
        cases given with
        | none => simp [State.issues, State.awaits, hs, ha] at h'
        | some p => exact ⟨.busy, by simp [exec, execWrBrake, givenBrake, hs], .inl ⟨rfl, by simp⟩⟩
      | _ => simp [State.issues, State.awaits, hs, ha] at h'

/-- An instruction answers next only where it is accepted or issued. -/
theorem exec_next {i : Instr} {s t : State} (h : exec i s = .next t) : s.accepts i = true ∨ s.issues i = true := by
  by_contra hc
  simp only [not_or, Bool.not_eq_true] at hc
  obtain ⟨r, hr, -⟩ := exec_refused hc.1 hc.2
  rw [hr] at h
  cases h

/-- What an instruction that answers next has done: it has run its frame's micro-steps from a sequencer `b`, the state of
the block otherwise being the one it was given. -/
theorem exec_next_cases {i : Instr} {s t : State} (h : exec i s = .next t) :
    ∃ b s₀, t = runMicros (frameMicros (brakeContext s.seq) i) b s₀ ∧ s₀ = { s with answer := s₀.answer } ∧
      (s.seq = .idle ∧ b = Busy.start (.instr i) [] ∧ s₀.answer = none ∨
        ∃ b₀, s.seq = .busy b₀ ∧ b₀.awaits i = true ∧ b = { b₀ with todo := b₀.todo.tail } ∧ s₀ = s) := by
  rcases exec_next h with ha | hi
  · obtain ⟨hs, he⟩ := exec_of_accepts ha
    rw [he] at h
    cases h
    exact ⟨Busy.start (.instr i) [], { s with answer := none }, by rw [hs]; rfl, rfl, .inl ⟨hs, rfl, rfl⟩⟩
  · obtain ⟨b, hs, hb, he⟩ := exec_of_issues hi
    rw [he] at h
    cases h
    exact ⟨_, s, rfl, rfl, .inr ⟨b, hs, hb, rfl, rfl⟩⟩

/-- The gate comes first: the micro-steps of a frame that have been taken are none, or the gate and some of the rest. -/
theorem frame_ran {ctx : BrakeContext} {i : Instr} {b b' : Busy} {s u : State}
    (h : Ran (frameMicros ctx i) b s b' u) :
    s.now ≤ u.lastIssue (channelOf i) ∧ u.lastIssue (channelOf i) ≤ u.now
      ∧ s.lastIssue (channelOf i) + cfg.minInterval (channelOf i) ≤ u.lastIssue (channelOf i)
      ∧ (∀ ch, ch ≠ channelOf i → u.lastIssue ch = s.lastIssue ch)
      ∧ (∃ es, u.trace = s.trace ++ es ∧ acts es = frameActs ctx i s.incoming
          ∧ es.head? = some (.issue (u.lastIssue (channelOf i)) (channelOf i)))
      ∧ ∀ n, replyWidth i = some n → b'.received = s.incoming n := by
  obtain ⟨hm, hop, -⟩ := h.moved
  cases h with
  | step hg hr =>
    obtain ⟨v, hv, he⟩ := Option.map_eq_some_iff.mp hg
    obtain ⟨rfl, rfl⟩ : b = _ ∧ v = _ := by simpa using he
    obtain ⟨g1, g2, g3, g4, g5, g6⟩ := gateStep_some hv
    obtain ⟨b₁, s₁, hs, hrx⟩ := hr.append_inv
    obtain ⟨rfl, s2, s3, s4, s5, es, s6, s7⟩ := hs.sends
    have hst : v.lastIssue (channelOf i) = v.now := by
      rw [g3]; generalize channelOf i = c; cases c <;> rfl
    have hoth : ∀ ch, ch ≠ channelOf i → v.lastIssue ch = s.lastIssue ch := by
      intro ch hch
      rw [g3]
      generalize channelOf i = c at hch ⊢
      cases c <;> cases ch <;> first | rfl | exact absurd rfl hch
    have hsame : ∀ ch, s₁.lastIssue ch = v.lastIssue ch := by intro ch; cases ch <;> simp [s2, s3]
    have hgt : v.trace = s.trace ++ [.issue v.now (channelOf i)] := congrArg State.trace g3
    have hvs := hs.moved.1.now_le
    have hin : ∀ n, s₁.env.nextBytes n = s.incoming n := fun n =>
      nextBytes_congr n (s4.trans g5) (s5.trans g6)
    have hgap := le_of_gateOpen (minInterval_pos _) g2
    cases hw : replyWidth i with
    | none =>
      rw [hw] at hrx
      cases hrx
      refine ⟨by rw [hsame, hst]; exact g1, by rw [hsame, hst]; exact hvs, by rw [hsame, hst]; exact hgap,
        fun ch hch => by rw [hsame, hoth ch hch], ⟨_ :: es, by rw [s6, hgt, List.append_assoc]; rfl, ?_, ?_⟩,
        fun n h => by simp at h⟩
      · simp only [acts_cons, Event.act, frameActs, hw, s7, List.append_nil]
      · simp [hsame, hst]
    | some n =>
      rw [hw] at hrx
      cases hrx with
      | step hx hd =>
        cases hd
        obtain ⟨⟨bs, w⟩, hw', he⟩ := Option.map_eq_some_iff.mp hx
        cases he
        obtain ⟨-, x1, x2, x3, -⟩ := rxStep_some hw'
        have hxs : ∀ ch, w.lastIssue ch = s₁.lastIssue ch := by
          intro ch; rw [x3]; cases ch <;> rfl
        have hxt : w.trace = s₁.trace ++ [.rx w.now n bs] := congrArg State.trace x3
        refine ⟨by rw [hxs, hsame, hst]; exact g1, by rw [hxs, hsame, hst]; exact hvs.trans x1,
          by rw [hxs, hsame, hst]; exact hgap, fun ch hch => by rw [hxs, hsame, hoth ch hch],
          ⟨.issue v.now (channelOf i) :: (es ++ [.rx w.now n bs]), by rw [hxt, s6, hgt]; simp, ?_, ?_⟩, fun k h => ?_⟩
        · simp only [acts_cons, acts_append, Event.act, frameActs, hw, s7, x2, hin]
          rfl
        · simp [hxs, hsame, hst]
        · cases h; exact x2.trans (hin n)

/-- The state after an operation of one frame, in a live environment (R86 to R88): the frame is on the wire, its stamp in
the channel's register, the result with the caller, the block idle. -/
theorem exec_accepted_live {i : Instr} {s : State} (h : s.accepts i = true) (hl : s.live) :
    ∃ t, exec i s = .next t ∧ t.seq = .idle ∧ acts (s.since t) = frameActs .caller i s.incoming
      ∧ (∃ bs, t.answer = some (answerOf (.instr i) bs) ∧ ∀ n, replyWidth i = some n → bs = s.incoming n)
      ∧ s.now ≤ t.lastIssue (channelOf i) ∧ t.lastIssue (channelOf i) ≤ t.now
      ∧ s.lastIssue (channelOf i) + cfg.minInterval (channelOf i) ≤ t.lastIssue (channelOf i)
      ∧ (s.since t).head? = some (.issue (t.lastIssue (channelOf i)) (channelOf i)) := by
  obtain ⟨-, he⟩ := exec_of_accepts h
  obtain ⟨b', u, hr, -, hu⟩ := runMicros_live (frameMicros .caller i) (Busy.start (.instr i) [])
    (s := { s with answer := none }) hl
  obtain ⟨f1, f2, f3, -, ⟨es, f5, f6, f7⟩, f8⟩ := frame_ran hr
  obtain ⟨-, hop, htodo, -⟩ := hr.moved
  have hset : settle b' u = finish { b' with micros := [] } u := by
    unfold settle; rw [htodo]; rfl
  rw [he, hu, hset]
  refine ⟨_, rfl, rfl, ?_, ⟨b'.received, by simp [finish, hop, Busy.start], f8⟩, ?_, ?_, ?_, ?_⟩
  · rw [since_eq (s := s) (t := finish _ u) (es := es) f5, f6]; rfl
  · rw [lastIssue_finish]; exact f1
  · rw [lastIssue_finish, finish_now]; exact f2.trans (now_le_tick u)
  · rw [lastIssue_finish]; exact f3
  · rw [since_eq (s := s) (t := finish _ u) (es := es) f5, f7, lastIssue_finish]

/-! ### The codec's own requests -/

/-- A read opcode has its instruction, which sends that opcode. -/
theorem readInstr_of_descriptor {op : Byte} {d : Nat × DecodeRule} (h : descriptor op = some d) :
    ∃ i, readInstr op = some i ∧ readOpcode i = some op := by
  have key : ∀ op : Byte, (descriptor op).isSome → (readInstr op).any fun i => readOpcode i = some op := by decide
  have := key op (by rw [h]; rfl)
  rw [Option.any_eq_true] at this
  simpa using this

/-- A read's channel and bytes, and that an operation that has come to it performs it. -/
theorem read_frame {i : Instr} {op : Byte} (h : readOpcode i = some op) :
    channelOf i = .gen ∧ (∀ ctx, wire ctx i = [0x80#8, op])
      ∧ ∀ s : State, s.awaits i = true → s.issues i = true := by
  cases i <;> cases h <;> exact ⟨rfl, fun _ => rfl, fun s h => by simp [State.issues, h]⟩

/-- A payload of the register's length: `sendWrite` has an instruction for it, which sends exactly these bytes. -/
theorem sendWriteFrame_of_width {op : Byte} {p : List Byte}
    (h : payloadWidth (Config.brakePayload .caller).length op = some p.length) (h4 : op ≠ 0x04#8) (h5 : op ≠ 0x05#8) :
    ∃ i, sendWriteFrame op p = .ok i ∧ channelOf i = .gen ∧ readOpcode i = none ∧ (∀ ctx, wire ctx i = 0x81#8 :: op :: p)
      ∧ ∀ s : State, s.seq = .idle → s.accepts i = true := by
  have hlt : op.toNat < 0x0A := by
    have := payloadWidth_isSome (Config.brakePayload .caller).length op
    rw [h] at this; simpa using this.symm
  have hcases : op = 0x00#8 ∨ op = 0x01#8 ∨ op = 0x02#8 ∨ op = 0x03#8 ∨ op = 0x06#8 ∨ op = 0x07#8 ∨ op = 0x08#8
      ∨ op = 0x09#8 := by
    clear h; revert op; decide
  have three : ∀ {p : List Byte}, some 3 = some p.length → ∃ b g r, p = [b, g, r] := by
    intro p h; match p, h with | [b, g, r], _ => exact ⟨b, g, r, rfl⟩
  have one : ∀ {p : List Byte}, some 1 = some p.length → ∃ t, p = [t] := by
    intro p h; match p, h with | [t], _ => exact ⟨t, rfl⟩
  rcases hcases with rfl | rfl | rfl | rfl | rfl | rfl | rfl | rfl <;>
    first
      | obtain ⟨b, g, r, rfl⟩ := three h
        exact ⟨_, rfl, rfl, rfl, fun _ => rfl, fun s hs => by simp [State.accepts, hs]⟩
      | obtain ⟨t, rfl⟩ := one h
        exact ⟨_, rfl, rfl, rfl, fun _ => rfl, fun s hs => by simp [State.accepts, hs]⟩
      | exact ⟨_, rfl, rfl, rfl, fun _ => rfl, fun s hs => by simp [State.accepts, hs, (Option.some.inj h).symm]⟩

/-! ### What a step can do -/

/-- The cases of a step that answers next. -/
theorem step_cases {s t : State} (h : step s = .next t) :
    (∃ r i, s.port = some r ∧ s.seq = .idle ∧ r.operation = .ok (.instr i) ∧ exec i s.withdraw = .next t) ∨
    (∃ r i, s.port = some r ∧ s.seq = .idle ∧ r.operation = .ok (.sendRead i) ∧
      exec i (beginOp (.sendRead i) [.frame i] s.withdraw) = .next t) ∨
    (∃ r m v c, s.port = some r ∧ s.seq = .idle ∧ r.operation = .ok (.setSpeed m v c) ∧
      t = beginOp (.setSpeed m v c) (setSpeedTasks m c (s.lastSpeed m)) s.withdraw) ∨
    (∃ r, s.port = some r ∧ s.seq = .idle ∧ r.operation = .ok .init ∧ t = beginOp .init handshakeTasks s.withdraw) ∨
    (∃ b, s.port = none ∧ s.seq = .busy b ∧ advance b s = .next t) ∨
    (s.port = none ∧ s.seq = .idle ∧ t = s.tick) := by
  unfold step at h
  split at h
  · cases h
  · rename_i r hp hs
    unfold accept at h
    split at h
    · cases h
    · rename_i i ho; exact .inl ⟨r, i, hp, hs, ho, h⟩
    · rename_i i ho; exact .inr (.inl ⟨r, i, hp, hs, ho, h⟩)
    · rename_i m v c ho
      cases h
      exact .inr (.inr (.inl ⟨r, m, v, c, hp, hs, ho, by cases m <;> rfl⟩))
    · rename_i ho
      cases h
      exact .inr (.inr (.inr (.inl ⟨r, hp, hs, ho, rfl⟩)))
  · rename_i b hp hs; exact .inr (.inr (.inr (.inr (.inl ⟨b, hp, hs, h⟩))))
  · rename_i hp hs; cases h; exact .inr (.inr (.inr (.inr (.inr ⟨hp, hs, rfl⟩))))

/-- The cases of a busy block's step that answers next. -/
theorem advance_cases {b : Busy} {s t : State} (h : advance b s = .next t) :
    (∃ m ms, b.micros = m :: ms ∧ microStep m b s = none ∧ t = s.tick) ∨
    (∃ m ms, b.micros = m :: ms ∧ t = runMicros (m :: ms) b s ∧ microStep m b s ≠ none) ∨
    (b.micros = [] ∧ b.todo = [] ∧ t = finish b s) ∨
    (∃ i rest, b.micros = [] ∧ b.todo = .frame i :: rest ∧ exec i s = .next t) ∨
    (∃ d rest, b.micros = [] ∧ b.todo = .delay d :: rest ∧
      t = runMicros [.reachDelay, .leaveDelay d] { b with todo := rest } s) ∨
    (∃ m c rest, b.micros = [] ∧ b.todo = .record m c :: rest ∧
      t = settle { b with todo := rest } (s.tick.setLastSpeed m c)) ∨
    (∃ rest, b.micros = [] ∧ b.todo = .testAck :: rest ∧
      t = settle { b with todo := (if isAck b.received then resetTasks else retryTasks) ++ rest } s.tick) ∨
    (∃ rest, b.micros = [] ∧ b.todo = .markReady :: rest ∧
      t = settle { b with todo := rest } { s.tick with ready := true }) := by
  unfold advance at h
  split at h
  · rename_i m ms hb
    split at h
    · rename_i b' s' hm
      cases h
      exact .inr (.inl ⟨m, ms, hb, by simp [runMicros, hm], by simp [hm]⟩)
    · rename_i hm; cases h; exact .inl ⟨m, ms, hb, hm, rfl⟩
  · rename_i hb
    split at h
    · rename_i ht; cases h; exact .inr (.inr (.inl ⟨hb, ht, rfl⟩))
    · rename_i i rest ht; exact .inr (.inr (.inr (.inl ⟨i, rest, hb, ht, h⟩)))
    · rename_i d rest ht; cases h; exact .inr (.inr (.inr (.inr (.inl ⟨d, rest, hb, ht, rfl⟩))))
    · rename_i m c rest ht; cases h; exact .inr (.inr (.inr (.inr (.inr (.inl ⟨m, c, rest, hb, ht, rfl⟩)))))
    · rename_i rest ht; cases h; exact .inr (.inr (.inr (.inr (.inr (.inr (.inl ⟨rest, hb, ht, rfl⟩))))))
    · rename_i rest ht; cases h; exact .inr (.inr (.inr (.inr (.inr (.inr (.inr ⟨rest, hb, ht, rfl⟩))))))

end Sys2Proof.Machine
end

