-- ==== Sys2Proof/Laws/Runs.lean ====
section
/-! SUPPORT. What a frame or a delay of an operation in progress leaves, and what keeps the invariant. -/

namespace Sys2Proof.Machine

/-- How many reply bytes a stretch of micro-steps reads. -/
def rxCount : List Micro → Nat
  | [] => 0
  | .rx n :: ms => n + rxCount ms
  | .gate _ :: ms => rxCount ms
  | .tx _ :: ms => rxCount ms
  | .reachDelay :: ms => rxCount ms
  | .leaveDelay _ :: ms => rxCount ms

theorem rxCount_append (a b : List Micro) : rxCount (a ++ b) = rxCount a + rxCount b := by
  induction a with
  | nil => simp [rxCount]
  | cons m a ih => cases m <;> simp [rxCount, ih, Nat.add_assoc]

theorem rxCount_tx (vs : List Byte) : rxCount (vs.map .tx) = 0 := by
  induction vs with
  | nil => rfl
  | cons v vs ih => simpa [rxCount] using ih

/-- The replies used up are those the micro-steps read (R33). -/
theorem Ran.replies {ms : List Micro} {b b' : Busy} {s u : State} (h : Ran ms b s b' u) :
    u.env.replies = s.env.replies.drop (rxCount ms) := by
  induction h with
  | done b s => simp [rxCount]
  | step hm _ ih =>
    rw [ih]
    rename_i m ms _ _ _ _ _ _ _
    cases m with
    | gate ch =>
      obtain ⟨v, hv, he⟩ := Option.map_eq_some_iff.mp hm
      cases he
      rw [(gateStep_some hv).2.2.2.2.1]; rfl
    | tx w =>
      obtain ⟨v, hv, he⟩ := Option.map_eq_some_iff.mp hm
      cases he
      rw [(txStep_some hv).2.2.2.2.1]; rfl
    | rx n =>
      obtain ⟨v, hv, he⟩ := Option.map_eq_some_iff.mp hm
      cases he
      obtain ⟨w, hw, hr⟩ := Option.map_eq_some_iff.mp hv
      obtain ⟨-, rfl⟩ := busReturns_some hw
      cases hr
      simp [Env.bytesTaken, rxCount, List.drop_drop]
    | reachDelay => cases hm; rw [tick_replies]; rfl
    | leaveDelay d =>
      obtain ⟨v, hv, he⟩ := Option.map_eq_some_iff.mp hm
      cases he
      rw [(leaveStep_some hv).2.2.2.2.1]; rfl

/-- A frame reads its reply and nothing else. -/
theorem rxCount_frame (ctx : BrakeContext) (i : Instr) : rxCount (frameMicros ctx i) = (replyWidth i).getD 0 := by
  unfold frameMicros
  rw [rxCount, rxCount_append, rxCount_tx]
  cases replyWidth i <;> simp [rxCount]

/-- A stretch's own events carry readings of the stretch. -/
theorem Moved.within {s t : State} (h : Moved s t) {es : List Event} (he : t.trace = s.trace ++ es) :
    readingsWithin s.now t.now es = true := by
  obtain ⟨es', he', hw⟩ := h.traced
  rw [he'] at he
  rwa [← List.append_cancel_left he]

/-- The lower bound of a stretch may sink. -/
theorem readingsWithin_anti {lo lo' hi : Nat} {es : List Event} (h : readingsWithin lo' hi es = true) (hl : lo ≤ lo') :
    readingsWithin lo hi es = true := by
  cases es with
  | nil => rw [readingsWithin_nil] at h ⊢; omega
  | cons e es => rw [readingsWithin_cons] at h ⊢; exact ⟨by omega, h.2⟩

/-- Every event of a stretch lies between its two readings. -/
theorem reading_within {lo hi : Nat} {es : List Event} (h : readingsWithin lo hi es = true) :
    lo ≤ hi ∧ ∀ e ∈ es, lo ≤ e.reading ∧ e.reading ≤ hi := by
  induction es generalizing lo with
  | nil => simpa [readingsWithin] using h
  | cons e es ih =>
    simp only [readingsWithin, Bool.and_eq_true, decide_eq_true_eq] at h
    obtain ⟨h1, h2⟩ := ih h.2
    refine ⟨by omega, fun f hf => ?_⟩
    rcases List.mem_cons.mp hf with rfl | hf
    · exact ⟨h.1, h1⟩
    · exact ⟨h.1.trans (h2 f hf).1, (h2 f hf).2⟩

/-- A frame of an operation in progress, with more to do after it, in a live environment: the frame is on the wire, its
stamp in the channel's register, and the operation goes on with what is left. -/
theorem exec_issued_live {i : Instr} {s : State} {b : Busy} {k : Task} {rest : List Task} (hi : s.issues i = true)
    (hs : s.seq = .busy b) (ht : b.todo = .frame i :: k :: rest) (hl : s.live) :
    ∃ b' t es, exec i s = .next t ∧ t.seq = .busy b' ∧ b'.op = b.op ∧ b'.micros = [] ∧ b'.todo = k :: rest ∧ t.live
      ∧ t.trace = s.trace ++ es ∧ acts es = frameActs (brakeContext s.seq) i s.incoming
      ∧ readingsWithin s.now t.now es = true
      ∧ es.head? = some (.issue (t.lastIssue (channelOf i)) (channelOf i))
      ∧ s.lastIssue (channelOf i) + cfg.minInterval (channelOf i) ≤ t.lastIssue (channelOf i)
      ∧ (∀ ch, ch ≠ channelOf i → t.lastIssue ch = s.lastIssue ch)
      ∧ (∀ n, replyWidth i = some n → b'.received = s.incoming n)
      ∧ t.env.replies = s.env.replies.drop ((replyWidth i).getD 0)
      ∧ t.ready = s.ready ∧ t.port = s.port ∧ t.answer = s.answer
      ∧ t.lastSpeedM1 = s.lastSpeedM1 ∧ t.lastSpeedM2 = s.lastSpeedM2 := by
  obtain ⟨b₀, hb, -, he⟩ := exec_of_issues hi
  obtain rfl : b = b₀ := by rw [hs] at hb; cases hb; rfl
  obtain ⟨b', u, hr, hlu, hu⟩ := runMicros_live (frameMicros (brakeContext s.seq) i) { b with todo := b.todo.tail } hl
  obtain ⟨-, -, f3, f4, ⟨es, f5, f6, f7⟩, f8⟩ := frame_ran hr
  obtain ⟨hm, hop, htodo, -⟩ := hr.moved
  have htodo : b'.todo = k :: rest := by rw [htodo, ht]; rfl
  have hset : settle b' u = { u with seq := .busy { b' with micros := [] } } := by
    unfold settle; rw [htodo]
  have hq : ∀ (q : Seq) ch, State.lastIssue { u with seq := q } ch = u.lastIssue ch := fun q ch => by cases ch <;> rfl
  refine ⟨{ b' with micros := [] }, { u with seq := .busy { b' with micros := [] } }, es, by rw [he, hu, hset], rfl, hop, rfl, htodo, hlu, f5, f6, hm.within f5, ?_, ?_,
    ?_, f8, ?_, hm.ready, hm.port, hm.answer, hm.speedM1, hm.speedM2⟩
  · rw [hq]; exact f7
  · rw [hq]; exact f3
  · intro ch h; rw [hq]; exact f4 ch h
  · rw [← rxCount_frame (brakeContext s.seq)]; exact hr.replies

/-- With no request at the port a busy block goes on with its operation. -/
theorem step_busy {s : State} {b : Busy} (hp : s.port = none) (hs : s.seq = .busy b) : step s = advance b s := by
  simp only [step, hp, hs]

/-- With a request at the port an idle block accepts or refuses it. -/
theorem step_request {s : State} {r : Request} (hp : s.port = some r) (hs : s.seq = .idle) :
    step s = accept r s.withdraw := by
  simp only [step, hp, hs]

/-- No steps leave the state as it is. -/
theorem run_zero (s : State) : Host.Core.run Sys2Proof.core 0 s = .next s := rfl

/-- One step and then the others. -/
theorem run_succ (n : Nat) {s t : State} (h : step s = .next t) :
    Host.Core.run Sys2Proof.core (n + 1) s = Host.Core.run Sys2Proof.core n t := by
  have h : Sys2Proof.core.step s = .next t := h
  simp only [Host.Core.run, h]

/-- A run goes on from where its first part has ended. -/
theorem run_add (m n : Nat) {s t : State} (h : Host.Core.run Sys2Proof.core m s = .next t) :
    Host.Core.run Sys2Proof.core (m + n) s = Host.Core.run Sys2Proof.core n t := by
  induction m generalizing s with
  | zero => rw [run_zero] at h; cases h; rw [Nat.zero_add]
  | succ m ih =>
    cases hs : step s with
    | next u => rw [run_succ m hs] at h; rw [Nat.add_right_comm, run_succ _ hs, ih h]
    | fault e => cases e
    | refused r =>
      have hs : Sys2Proof.core.step s = .refused r := hs
      simp only [Host.Core.run, hs] at h; cases h

/-- A delay of an operation in progress, with more to do after it, in a live environment: only the clock and what drives it
move, and the clock by at least the delay (R76). -/
theorem delay_live {s : State} {b : Busy} {d : Nat} {k : Task} {rest : List Task} (hp : s.port = none)
    (hs : s.seq = .busy b) (hm : b.micros = []) (ht : b.todo = .delay d :: k :: rest) (hl : s.live) :
    ∃ b' t, step s = .next t ∧ t.seq = .busy b' ∧ b'.op = b.op ∧ b'.micros = [] ∧ b'.todo = k :: rest
      ∧ b'.received = b.received ∧ t.live ∧ s.now + d ≤ t.now
      ∧ t = { s with seq := .busy b', now := t.now, env := t.env } ∧ t.env.replies = s.env.replies := by
  have hl' : s.tick.live := hl
  obtain ⟨u, hu, hc⟩ := await_running (p := fun t => delayOver t s.tick.now d) (e := s.tick.now + d) hl'.1
  obtain ⟨h1, h2, h3, h4, h5, -⟩ := await_some (fun _ => delayOver_of_le) hu
  simp only [delayOver, decide_eq_true_eq] at h2
  have hn := now_le_tick s
  have htick : s.tick = { s with now := s.tick.now, env := s.tick.env } := rfl
  refine ⟨{ b with micros := [], todo := k :: rest, t0 := s.tick.now },
    { u with seq := .busy { b with micros := [], todo := k :: rest, t0 := s.tick.now } }, ?_, rfl, rfl, rfl, rfl, rfl,
    ⟨hc, ?_⟩, ?_, ?_, ?_⟩
  · simp only [step, hp, hs, advance, hm, ht, runMicros, microStep, leaveStep]
    simp only [hu, Option.map_some, settle]
  · show u.env.busLeft = none; rw [h4, tick_busLeft]; exact hl.2
  · show s.now + d ≤ u.now; omega
  · rw [h3, htick]
  · exact h5.trans (tick_replies s)

/-! ### The invariant -/

/-- A clamped speed is in range (R150). -/
theorem clampSpeed_inRange (v : Int) : speedInRange (clampSpeed v) = true := by
  simp only [speedInRange, clampSpeed, clamp, Bool.and_eq_true, decide_eq_true_eq]
  split
  · omega
  · split <;> omega

/-- Micro-steps keep the stamps and the delay's start behind the clock (R12). -/
theorem Ran.inv {ms : List Micro} {b b' : Busy} {s u : State} (h : Ran ms b s b' u) (hs : s.stampsPast)
    (ht : b.t0 ≤ s.now) : u.stampsPast ∧ b'.t0 ≤ u.now := by
  induction h with
  | done b s => exact ⟨hs, ht⟩
  | step hm hr ih =>
    apply ih
    · obtain ⟨h1, -, -, -, -, h6⟩ := microStep_moved hm
      have := h1.now_le
      rcases h6 with ⟨ch, rfl⟩ | ⟨h6, h7⟩
      · obtain ⟨v, hv, he⟩ := Option.map_eq_some_iff.mp hm
        cases he
        obtain ⟨g1, g2, g3, -⟩ := gateStep_some hv
        rw [g3]
        obtain ⟨a, b⟩ := hs
        cases ch <;> exact ⟨by simp <;> omega, by simp <;> omega⟩
      · obtain ⟨a, b⟩ := hs
        exact ⟨by omega, by omega⟩
    · have := (microStep_moved hm).1.now_le
      rename_i m _ _ _ _ _ _ _
      cases m <;> (simp only [microStep] at hm)
      case reachDelay => cases hm; exact le_refl _
      all_goals (obtain ⟨v, hv, he⟩ := Option.map_eq_some_iff.mp hm; cases he; first | omega | exact ht.trans this)

/-- The invariant after the last micro-step of a frame or a delay. -/
theorem settle_Inv {b : Busy} {u : State} (h1 : u.stampsPast) (h2 : u.speedsInRange) (h3 : b.t0 ≤ u.now)
    (hp : b.todo ≠ [] → ({ b with micros := [] } : Busy).onPlan = true) : (settle b u).Inv := by
  unfold settle
  split
  · have := now_le_tick u
    exact ⟨⟨h1.1.trans this, h1.2.trans this⟩, h2, rfl⟩
  · rename_i hk
    refine ⟨h1, h2, ?_⟩
    simp only [State.sequencerOk, Bool.and_eq_true, decide_eq_true_eq]
    exact ⟨hp (by simp [hk]), h3⟩

/-- Taking the next step of an operation stays on its plan. -/
theorem onPlan_of {b b' : Busy} (h : b.onPlan = true) (hop : b'.op = b.op)
    (htodo : b'.todo = b.todo ∨ ∃ k, b.todo = k :: b'.todo) (hne : ¬ (b'.micros = [] ∧ b'.todo = [])) :
    b'.onPlan = true := by
  have hsuf : ∀ l, b.todo <:+ l → b'.todo <:+ l := by
    intro l hl
    rcases htodo with h | ⟨k, h⟩
    · rwa [h]
    · exact (List.suffix_cons k _).trans (h ▸ hl)
  have hemp : b.todo.isEmpty → b'.todo.isEmpty := by
    rcases htodo with h | ⟨k, h⟩ <;> simp [h]
  unfold Busy.onPlan at h ⊢
  rw [hop]
  simp only [Bool.and_eq_true] at h ⊢
  refine ⟨by simp; exact Classical.or_iff_not_imp_left.mpr fun h hh => by simp_all, ?_⟩
  have h := h.2
  split at h
  · exact hemp h
  · exact hemp h
  · simp only [Bool.and_eq_true, decide_eq_true_eq] at h ⊢
    exact ⟨h.1, hsuf _ h.2⟩
  · simp only [Bool.or_eq_true, decide_eq_true_eq] at h ⊢
    exact h.imp (hsuf _) (hsuf _)

/-- The invariant after running micro-steps. -/
theorem run_Inv {ms : List Micro} {b : Busy} {s : State} (h1 : s.stampsPast) (h2 : s.speedsInRange)
    (h3 : b.t0 ≤ s.now)
    (hp : ∀ b' : Busy, b'.op = b.op → b'.todo = b.todo → ¬ (b'.micros = [] ∧ b'.todo = []) → b'.onPlan = true) :
    (runMicros ms b s).Inv := by
  rcases runMicros_cases ms b s with ⟨b', u, hr, he⟩ | ⟨d, m, l, b', u, hms, hr, -, he⟩
  · rw [he]
    obtain ⟨i1, i2⟩ := hr.inv h1 h3
    obtain ⟨hm, ho, ht, hmi⟩ := hr.moved
    refine settle_Inv i1 ?_ i2 ?_
    · exact ⟨(congrArg speedInRange hm.speedM1).trans h2.1, (congrArg speedInRange hm.speedM2).trans h2.2⟩
    · intro hne; exact hp _ ho ht (by simpa using hne)
  · rw [he]
    obtain ⟨i1, i2⟩ := hr.inv h1 h3
    obtain ⟨hm, ho, ht, hmi⟩ := hr.moved
    refine ⟨i1, ⟨(congrArg speedInRange hm.speedM1).trans h2.1, (congrArg speedInRange hm.speedM2).trans h2.2⟩, ?_⟩
    simp only [State.sequencerOk, Bool.and_eq_true, decide_eq_true_eq]
    exact ⟨hp _ ho ht (by simp), i2⟩

end Sys2Proof.Machine
end

