-- ==== Sys2Proof/Laws/PerInstr.lean ====
section
/-! SUPPORT. A statement about the syntax of every instruction, one lemma per constructor. -/

namespace Sys2Proof.Laws.FrameShape

open Sys2Proof

/-- A well-formed instruction's frame opens with one of the three markers and a second byte, and at most 18 payload bytes
follow (R50, R51). -/
def Statement (i : Instr) : Prop :=
  i.wf = true → ∃ m x rest, encode i = m :: x :: rest ∧ m ∈ [0x80#8, 0x81#8, 0x82#8] ∧ rest.length ≤ 18

/-- A read frame is its two header bytes. -/
theorem of_read {i : Instr} {op : Byte} (h : encode i = readFrame op) : Statement i := fun _ =>
  ⟨_, op, [], h, by simp, by simp⟩

/-- A write frame is its header and its payload. -/
theorem of_write {i : Instr} {op : Byte} {p : List Byte} (h : encode i = writeFrame op p)
    (hp : i.wf = true → p.length ≤ 18) : Statement i := fun hw =>
  ⟨_, op, p, h, by simp, hp hw⟩

theorem rdTest : Statement .rdTest := of_read rfl

theorem rdIr1 : Statement .rdIr1 := of_read rfl

theorem rdIr2 : Statement .rdIr2 := of_read rfl

theorem rdIr3 : Statement .rdIr3 := of_read rfl

theorem rdIr4 : Statement .rdIr4 := of_read rfl

theorem rdIr5 : Statement .rdIr5 := of_read rfl

theorem rdIr6 : Statement .rdIr6 := of_read rfl

theorem rdBat : Statement .rdBat := of_read rfl

theorem rdSound : Statement .rdSound := of_read rfl

theorem rdLight : Statement .rdLight := of_read rfl

theorem rdTouch : Statement .rdTouch := of_read rfl

theorem rdColor : Statement .rdColor := of_read rfl

theorem rdEnc1 : Statement .rdEnc1 := of_read rfl

theorem rdEnc2 : Statement .rdEnc2 := of_read rfl

theorem rdUltra : Statement .rdUltra := of_read rfl

theorem rdPkey : Statement .rdPkey := of_read rfl

theorem wrLed1 (r g b : Byte) : Statement (.wrLed1 r g b) := of_write rfl (by simp)

theorem wrLed2 (r g b : Byte) : Statement (.wrLed2 r g b) := of_write rfl (by simp)

theorem wrLed3 (r g b : Byte) : Statement (.wrLed3 r g b) := of_write rfl (by simp)

theorem wrLed4 (r g b : Byte) : Statement (.wrLed4 r g b) := of_write rfl (by simp)

theorem wrMotor1 (c : Int) : Statement (.wrMotor1 c) := of_write rfl (by simp [encLe16s])

theorem wrMotor2 (c : Int) : Statement (.wrMotor2 c) := of_write rfl (by simp [encLe16s])

theorem wrBrake (given : Option (List Byte)) : Statement (.wrBrake given) := by
  cases given with
  | none => exact of_write rfl (by simp)
  | some p =>
    exact of_write rfl fun h => by
      simp only [Instr.wf, givenPayloadFits, Bool.and_eq_true, decide_eq_true_eq] at h
      exact h.2

theorem wrColorCal (t : Byte) : Statement (.wrColorCal t) := of_write rfl (by simp)

theorem wrFill (flag : Byte) : Statement (.wrFill flag) := of_write rfl (by simp)

theorem wrEncRst (t : Byte) : Statement (.wrEncRst t) := of_write rfl (by simp)

theorem disp (text : List Byte) : Statement (.disp text) := fun _ =>
  ⟨_, _, displayChars text, rfl, by simp, by simp [displayChars]⟩

end Sys2Proof.Laws.FrameShape
end

