-- ==== Sys2Proof/Tests/Slice0.lean ====
section
/-! SUPPORT. Tests: ill-formed terms, words written out from the spec's encodings (30_encoding.md), the spec's test vectors
(95_test_vectors.md), and a witness for the hypotheses of every obligation that has any. -/

namespace Sys2Proof.Tests

open Sys2Proof Sys2Proof.Machine

/-- A small state: reset, with a clock reading, a clock that advances only as a wait needs, and the peer's replies. -/
def st (now : Nat) (replies : List Byte) : State :=
  { State.reset with
    now := now
    env := { lag := List.replicate 12 0, clockStops := none, busLeft := none, replies := replies, lagsDrawn := 0, bytesDrawn := 0 } }

/-- A small busy state, at the head of `todo`. -/
def atTask (op : Operation) (todo : List Task) : State :=
  { st 100 [] with seq := .busy (Busy.start op todo) }

/-- What a step's or an instruction's outcome has handed to the caller. -/
def handed : Host.Outcome State Fault Refusal → Option Answer
  | .next t => t.answer
  | .fault _ => none
  | .refused _ => none

/-- The bytes on the wire after it. -/
def sent : Host.Outcome State Fault Refusal → List Byte
  | .next t => txBytes t.trace
  | .fault _ => []
  | .refused _ => []

/-- What the state after it shows. -/
def seen {α : Type} (f : State → α) : Host.Outcome State Fault Refusal → Option α
  | .next t => some (f t)
  | .fault _ => none
  | .refused _ => none

/-- Run a read and show the opcode sent and the value (the marker is checked with it). -/
def readAt (i : Instr) (replies : List Byte) : List Byte × Option Answer :=
  let o := exec i (st 100 replies)
  (sent o, handed o)

/-! ### WellFormed: one ill-formed term for each check -/

theorem test_wf_speed_above : (Instr.wrMotor1 1024).wf = false := by decide

theorem test_wf_speed_below : (Instr.wrMotor2 (-1024)).wf = false := by decide

theorem test_wf_given_brake_empty : (Instr.wrBrake (some [])).wf = false := by decide

theorem test_wf_given_brake_long : (Instr.wrBrake (some (List.replicate 19 0#8))).wf = false := by decide

theorem test_wf_text_long : (Instr.disp (List.replicate 19 0x2A#8)).wf = false := by decide

/-! ### Decode: the frames of R52 to R57 and of the test vectors, byte by byte -/

theorem test_decode_rdTest : decode [0x80#8, 0x00#8] = .ok .rdTest := rfl

theorem test_decode_rdIr1 : decode [0x80#8, 0x01#8] = .ok .rdIr1 := rfl

theorem test_decode_rdIr2 : decode [0x80#8, 0x02#8] = .ok .rdIr2 := rfl

theorem test_decode_rdIr3 : decode [0x80#8, 0x03#8] = .ok .rdIr3 := rfl

theorem test_decode_rdIr4 : decode [0x80#8, 0x04#8] = .ok .rdIr4 := rfl

theorem test_decode_rdIr5 : decode [0x80#8, 0x05#8] = .ok .rdIr5 := rfl

theorem test_decode_rdIr6 : decode [0x80#8, 0x06#8] = .ok .rdIr6 := rfl

theorem test_decode_rdBat : decode [0x80#8, 0x07#8] = .ok .rdBat := rfl

theorem test_decode_rdSound : decode [0x80#8, 0x08#8] = .ok .rdSound := rfl

theorem test_decode_rdLight : decode [0x80#8, 0x09#8] = .ok .rdLight := rfl

theorem test_decode_rdTouch : decode [0x80#8, 0x0A#8] = .ok .rdTouch := rfl

theorem test_decode_rdColor : decode [0x80#8, 0x0B#8] = .ok .rdColor := rfl

theorem test_decode_rdEnc1 : decode [0x80#8, 0x0C#8] = .ok .rdEnc1 := rfl

theorem test_decode_rdEnc2 : decode [0x80#8, 0x0D#8] = .ok .rdEnc2 := rfl

theorem test_decode_rdUltra : decode [0x80#8, 0x0E#8] = .ok .rdUltra := rfl

theorem test_decode_rdPkey : decode [0x80#8, 0x0F#8] = .ok .rdPkey := rfl

/-- V-W1: blue first. -/
theorem test_decode_wrLed1 : decode [0x81#8, 0x00#8, 0x10#8, 0x80#8, 0xFF#8] = .ok (.wrLed1 0xFF#8 0x80#8 0x10#8) := rfl

/-- V-W3. -/
theorem test_decode_wrLed2 : decode [0x81#8, 0x01#8, 0x00#8, 0x00#8, 0xFF#8] = .ok (.wrLed2 0xFF#8 0x00#8 0x00#8) := rfl

/-- V-W4. -/
theorem test_decode_wrLed3 : decode [0x81#8, 0x02#8, 0x00#8, 0xFF#8, 0x00#8] = .ok (.wrLed3 0x00#8 0xFF#8 0x00#8) := rfl

/-- V-W5. -/
theorem test_decode_wrLed4 : decode [0x81#8, 0x03#8, 0xFF#8, 0x00#8, 0x00#8] = .ok (.wrLed4 0x00#8 0x00#8 0xFF#8) := rfl

/-- Speed payload table: -50. -/
theorem test_decode_wrMotor1 : decode [0x81#8, 0x04#8, 0xCE#8, 0xFF#8] = .ok (.wrMotor1 (-50)) := rfl

/-- Speed payload table: 1023. -/
theorem test_decode_wrMotor2 : decode [0x81#8, 0x05#8, 0xFF#8, 0x03#8] = .ok (.wrMotor2 1023) := rfl

/-- V-W8. -/
theorem test_decode_wrBrake : decode [0x81#8, 0x06#8] = .ok (.wrBrake none) := rfl

/-- V-W9. -/
theorem test_decode_wrBrake_given : decode [0x81#8, 0x06#8, 0x01#8] = .ok (.wrBrake (some [0x01#8])) := rfl

/-- V-W10. -/
theorem test_decode_wrColorCal : decode [0x81#8, 0x07#8, 0x01#8] = .ok (.wrColorCal 0x01#8) := rfl

/-- V-W12. -/
theorem test_decode_wrFill : decode [0x81#8, 0x08#8, 0x01#8] = .ok (.wrFill 0x01#8) := rfl

/-- V-W15. -/
theorem test_decode_wrEncRst : decode [0x81#8, 0x09#8, 0xFF#8] = .ok (.wrEncRst 0xFF#8) := rfl

/-- V-CX15. -/
theorem test_decode_disp : decode [0x82#8, 0x02#8, 0x48#8, 0x69#8] = .ok (.disp [0x48#8, 0x69#8]) := rfl

/-- V-CX14. -/
theorem test_decode_disp_empty : decode [0x82#8, 0x00#8] = .ok (.disp []) := rfl

/-- R58, and 2.7 of the test vectors: not frames of this block. -/
theorem test_decode_reserved :
    decode [0x80#8, 0x10#8] = .error .unknownReadOpcode ∧ decode [0x81#8, 0x0A#8] = .error .unknownWriteOpcode ∧
    decode [0x82#8, 0x13#8] = .error .badDisplayLength ∧ decode [0x83#8, 0x00#8] = .error .unknownMarker ∧
    decode [0x00#8, 0x00#8] = .error .unknownMarker ∧ decode [0x7F#8, 0x00#8] = .error .unknownMarker ∧
    decode [0x80#8] = .error .incomplete := ⟨rfl, rfl, rfl, rfl, rfl, rfl, rfl⟩

/-- Speed payload table: -300, 256, -512 and -1023. -/
theorem test_speed_payloads : encLe16s (-300) = [0xD4#8, 0xFE#8] ∧ encLe16s 256 = [0x00#8, 0x01#8] ∧
    encLe16s (-512) = [0x00#8, 0xFE#8] ∧ encLe16s (-1023) = [0x01#8, 0xFC#8] := by decide

/-! ### Reads: 2.3 of the test vectors -/

/-- V-RD1. -/
theorem test_rdTest : readAt .rdTest [0xCA#8] = ([0x80#8, 0x00#8], some (.value (.raw 202))) := by decide

/-- V-RD4. -/
theorem test_rdIr1 : readAt .rdIr1 [0xFF#8, 0x0F#8] = ([0x80#8, 0x01#8], some (.value (.inverted 0))) := by decide

/-- V-RD5. -/
theorem test_rdIr2 : readAt .rdIr2 [0x01#8, 0x00#8] = ([0x80#8, 0x02#8], some (.value (.inverted 4094))) := by decide

/-- V-RD6. -/
theorem test_rdIr3 : readAt .rdIr3 [0x34#8, 0x02#8] = ([0x80#8, 0x03#8], some (.value (.inverted 3531))) := by decide

/-- V-RD7. -/
theorem test_rdIr4 : readAt .rdIr4 [0x00#8, 0x08#8] = ([0x80#8, 0x04#8], some (.value (.inverted 2047))) := by decide

/-- V-RD8. -/
theorem test_rdIr5 : readAt .rdIr5 [0xFE#8, 0x0F#8] = ([0x80#8, 0x05#8], some (.value (.inverted 1))) := by decide

/-- V-RD10: the reply is above 0xFFF. -/
theorem test_rdIr6 : readAt .rdIr6 [0xFF#8, 0xFF#8] = ([0x80#8, 0x06#8], some (.value (.inverted (-61440)))) := by decide

/-- V-RD26. -/
theorem test_rdBat : readAt .rdBat [0x66#8, 0x66#8, 0x86#8, 0x40#8] =
    ([0x80#8, 0x07#8], some (.value (.float32 0x40866666#32))) := by decide

/-- V-RD12. -/
theorem test_rdSound : readAt .rdSound [0xFF#8, 0x07#8] = ([0x80#8, 0x08#8], some (.value (.inverted 2048))) := by decide

/-- V-RD13. -/
theorem test_rdLight : readAt .rdLight [0x10#8, 0x00#8] = ([0x80#8, 0x09#8], some (.value (.inverted 4079))) := by decide

/-- V-RD14 and V-RD16. -/
theorem test_rdTouch : readAt .rdTouch [0x01#8] = ([0x80#8, 0x0A#8], some (.value (.flag true))) ∧
    (readAt .rdTouch [0x02#8]).2 = some (.value (.flag false)) := by decide

/-- V-RD23. -/
theorem test_rdColor : readAt .rdColor [0x10#8, 0x20#8, 0x30#8] =
    ([0x80#8, 0x0B#8], some (.value (.packed 0x302010))) := by decide

/-- V-RD39: toward zero, not to the floor. -/
theorem test_rdEnc1 : readAt .rdEnc1 [0x2D#8, 0xFF#8, 0xFF#8, 0xFF#8] =
    ([0x80#8, 0x0C#8], some (.value (.revolutions (-1)))) := by decide

/-- V-RD45. -/
theorem test_rdEnc2 : readAt .rdEnc2 [0x40#8, 0x42#8, 0x0F#8, 0x00#8] =
    ([0x80#8, 0x0D#8], some (.value (.revolutions 4761))) := by decide

/-- V-RD20. -/
theorem test_rdUltra : readAt .rdUltra [0x2C#8, 0x01#8] = ([0x80#8, 0x0E#8], some (.value (.raw 300))) := by decide

/-- V-RD18 and V-RD19. -/
theorem test_rdPkey : readAt .rdPkey [0x01#8] = ([0x80#8, 0x0F#8], some (.value (.flag true))) ∧
    (readAt .rdPkey [0x81#8]).2 = some (.value (.flag false)) := by decide

/-- V-RD46. -/
theorem test_calcRgb : calcRgb .green 0x1ABCDEF = 0xCD := by decide

/-! ### Writes and the display: 2.2 and 2.4 of the test vectors -/

/-- V-W1. -/
theorem test_wrLed1 : sent (exec (.wrLed1 0xFF#8 0x80#8 0x10#8) (st 100 [])) =
    [0x81#8, 0x00#8, 0x10#8, 0x80#8, 0xFF#8] := by decide

/-- V-W3. -/
theorem test_wrLed2 : sent (exec (.wrLed2 255#8 0#8 0#8) (st 100 [])) = [0x81#8, 0x01#8, 0x00#8, 0x00#8, 0xFF#8] := by decide

/-- V-W4. -/
theorem test_wrLed3 : sent (exec (.wrLed3 0#8 255#8 0#8) (st 100 [])) = [0x81#8, 0x02#8, 0x00#8, 0xFF#8, 0x00#8] := by decide

/-- V-W5. -/
theorem test_wrLed4 : sent (exec (.wrLed4 0#8 0#8 255#8) (st 100 [])) = [0x81#8, 0x03#8, 0xFF#8, 0x00#8, 0x00#8] := by decide

/-- V-W8, with the open payload after the two bytes. -/
theorem test_wrBrake : ∃ t, exec (.wrBrake none) (st 100 []) = .next t ∧ t.seq = .idle ∧
    acts ((st 100 []).since t) = frameActs .caller (.wrBrake none) (st 100 []).incoming := by
  obtain ⟨t, h1, h2, h3, -⟩ := exec_accepted_live (i := .wrBrake none) (s := st 100 []) (by decide) ⟨rfl, rfl⟩
  exact ⟨t, h1, h2, h3⟩

/-- V-W11: the block forwards any byte; it is idle at once and the caller owes 200 time-units (V-W10). -/
theorem test_wrColorCal : sent (exec (.wrColorCal 0x00#8) (st 100 [])) = [0x81#8, 0x07#8, 0x00#8] ∧
    seen (fun t => (decide (t.seq = .idle), t.settleUntil)) (exec (.wrColorCal 0x00#8) (st 100 [])) = some (true, 300) := by
  decide

/-- V-W12 and V-W13. -/
theorem test_wrFill : sent (step { st 100 [] with port := some (.fill true) }) = [0x81#8, 0x08#8, 0x01#8] ∧
    sent (step { st 100 [] with port := some (.fill false) }) = [0x81#8, 0x08#8, 0x00#8] := by decide

/-- V-W14. -/
theorem test_wrEncRst : sent (exec (.wrEncRst 0x01#8) (st 100 [])) = [0x81#8, 0x09#8, 0x01#8] := by decide

/-- V-G1's frame, and V-CX13: the same frame as a caller's request is refused. -/
theorem test_wrMotor1 :
    sent (exec (.wrMotor1 100) (atTask (.setSpeed .m1 100 100) (speedTasks .m1 100))) = [0x81#8, 0x04#8, 0x64#8, 0x00#8] ∧
    step { st 100 [] with port := some (.frame [0x81#8, 0x04#8, 0x64#8, 0x00#8]) } = .refused .motorWriteBypassesGuard :=
  ⟨by decide, rfl⟩

/-- V-G18's frame. -/
theorem test_wrMotor2 :
    sent (exec (.wrMotor2 (-100)) (atTask (.setSpeed .m2 (-100) (-100)) (speedTasks .m2 (-100)))) =
      [0x81#8, 0x05#8, 0x9C#8, 0xFF#8] := by decide

/-- V-CX15, and V-T9: reset, `now = 30`, the display gate waits until 50. -/
theorem test_disp : sent (exec (.disp [0x48#8, 0x69#8]) (st 100 [])) = [0x82#8, 0x02#8, 0x48#8, 0x69#8] ∧
    seen State.lastIssueDisp (exec (.disp []) (st 30 [])) = some 50 := by decide

/-- V-CX19: 300 characters give a length byte of 18. -/
theorem test_disp_truncates : displayFrame (List.replicate 300 0x2A#8) = 0x82#8 :: 0x12#8 :: List.replicate 18 0x2A#8 := by
  decide

/-! ### The guard, the handshake, the port: 2.5, 2.6 of the test vectors -/

/-- V-G15: clamp, then test; V-G3 and V-G4: zero is no sign flip. -/
theorem test_reversal : clampSpeed (-2000) = -1023 ∧ isReversal (clampSpeed (-2000)) 5 = true ∧
    isReversal 0 100 = false ∧ isReversal (-50) 0 = false := by decide

/-- V-I4: a near miss is no acknowledgment, and the block goes on with the pause. -/
theorem test_ack : isAck [0xCA#8] = true ∧ isAck [0xCB#8] = false ∧ isAck [0x4A#8] = false := by decide

/-- V-CX20: a busy block refuses. -/
theorem test_busy : step { atTask .init handshakeTasks with port := some (.fill true) } = .refused .busy := rfl

/-- V-T12: a delay reached at 7 whose clock jumps to 400 leaves at 400. -/
theorem test_delay : seen State.now
    (step { atTask .init retryTasks with
      now := 7, env := { lag := [0, 393], clockStops := none, busLeft := none, replies := [], lagsDrawn := 0, bytesDrawn := 0 } }) =
    some 400 := by decide

/-- V-CX21: a bus that never returns from the read leaves the block stuck after `80 0A`, the stamp written. -/
theorem test_stuck : seen (fun t => (txBytes t.trace, t.lastIssueGen, t.stuck))
    (exec .rdTouch { st 100 [] with env := { (st 100 []).env with busLeft := some 2 } }) =
    some ([0x80#8, 0x0A#8], 100, true) := by decide

/-- V-CX2: `sendRead` hands back the bytes as they are. -/
theorem test_sendRead : handed (step { st 100 [0x34#8, 0x02#8] with port := some (.sendRead 0x03#8) }) =
      some (.bytes [0x34#8, 0x02#8]) ∧
    sent (step { st 100 [0x34#8, 0x02#8] with port := some (.sendRead 0x03#8) }) = [0x80#8, 0x03#8] := by decide

/-- V-CX8, and V-CX10 and V-CX12: refused, nothing sent. -/
theorem test_sendWrite : sent (step { st 100 [] with port := some (.sendWrite 0x00#8 [0x10#8, 0x80#8, 0xFF#8]) }) =
      [0x81#8, 0x00#8, 0x10#8, 0x80#8, 0xFF#8] ∧
    step { st 100 [] with port := some (.sendWrite 0x08#8 []) } = .refused .badPayloadShape ∧
    step { st 100 [] with port := some (.sendWrite 0x09#8 [1#8, 0#8, 0#8, 0#8]) } = .refused .badPayloadShape :=
  ⟨by decide, rfl, rfl⟩

/-- R186 (3): an empty payload for the brake register, which is the operation's `81 06` in a frame, is refused as `sendWrite`
wherever `PW(0x06)` is not 0. -/
theorem test_sendWrite_brake_empty (h : Config.brakePayload .caller ≠ []) :
    step { st 100 [] with port := some (.sendWrite 0x06#8 []) } = .refused .badPayloadShape :=
  if_neg fun e => h (List.eq_nil_of_length_eq_zero e.symm)

/-- R8, R14: the clock may advance between the last bus event and the completion: the last of five advances comes after it. -/
theorem test_clock_at_completion : seen (fun t => (t.lastIssueGen, t.now))
    (exec .rdTouch { st 100 [0x01#8] with env := { (st 100 [0x01#8]).env with lag := [1, 1, 1, 1, 40] } }) =
    some (101, 144) := by decide

/-- R141, R210: the next request, an `INIT` too, is owed the rest of the settle. -/
theorem test_caller_duty : State.callerKeepsDuties { st 299 [] with settleUntil := 300, port := some .init } = false ∧
    State.callerKeepsDuties { st 300 [] with settleUntil := 300, port := some .init } = true := by decide

/-! ### Placing an instruction where step takes it -/

theorem test_placed_read : seen (fun t => txBytes t.trace) (step ((st 100 [0xCA#8]).withFetchWord 16 0x8000)) =
    some [0x80#8, 0x00#8] := by decide

theorem test_placed_motor : seen (fun t => txBytes t.trace) (step ((st 100 []).withFetchWord 16 0x8104)) =
    some [0x81#8, 0x04#8, 0x00#8, 0x00#8] := by decide

/-! ### Witnesses: for each obligation with hypotheses, a concrete state and operands that meet them -/

/-- The example request of each kind, at a state that is idle and live. -/
def asked (r : Request) : State := { st 100 [0xCA#8] with port := some r }

/-- A state whose sequencer is stuck before `ms`. -/
def stuckAt (ms : List Micro) : State :=
  { st 100 [] with seq := .busy { Busy.start (.instr .rdTest) [] with micros := ms } }

/-- The clock shows no reading above `r` any more. -/
def stalls (r : Nat) (s : State) : State := { s with env := { s.env with clockStops := some r } }

/-- The bus returns from `k` more primitives. -/
def busStalls (k : Nat) (s : State) : State := { s with env := { s.env with busLeft := some k } }

theorem witness_DecodeAfterEncodeGivesInstruction :
    (Instr.wrMotor1 (-1023)).wf = true ∧ (Instr.wrMotor2 1023).wf = true ∧ (Instr.wrBrake (some [0#8])).wf = true ∧
    (Instr.wrBrake (some (List.replicate 18 0#8))).wf = true ∧ (Instr.disp (List.replicate 18 0x2A#8)).wf = true ∧
    Instr.rdTest.wf = true := by decide

theorem witness_EncodeAfterDecodeGivesBytes : decode [0x81#8, 0x04#8, 0x01#8, 0xFC#8] = .ok (.wrMotor1 (-1023)) := rfl

theorem witness_ReservedEncodingsRejected : 0x10 ≤ (0x10#8 : Byte).toNat ∧ 0x0A ≤ (0x0A#8 : Byte).toNat ∧
    ((0x83#8 : Byte) ≠ 0x80#8 ∧ (0x83#8 : Byte) ≠ 0x81#8 ∧ (0x83#8 : Byte) ≠ 0x82#8) ∧ 18 < (19#8 : Byte).toNat ∧
    ((0x09#8 : Byte) ≠ 0x06#8 ∧ payloadWidth 0 0x09#8 = some 1 ∧ [1#8, 0#8, 0#8, 0#8].length ≠ 1) ∧
    ((0x00#8 : Byte) ≠ 0x06#8 ∧ payloadWidth 0 0x00#8 = some 3 ∧ [0#8, 0#8].length ≠ 3) := by decide

theorem witness_FramesAreCutFromAStream :
    (∀ g, Instr.wrBrake none = .wrBrake g →
      (Config.brakePayload .init).length = (g.getD (Config.brakePayload .init)).length) ∧
    (∀ g, Instr.wrBrake (some [1#8]) = .wrBrake g → 1 = (g.getD (Config.brakePayload .init)).length) ∧
    (∀ g, Instr.rdTest = .wrBrake g → 0 = (g.getD (Config.brakePayload .init)).length) :=
  ⟨fun g h => by cases h; rfl, fun g h => by cases h; rfl, fun g h => by cases h⟩

theorem witness_SpeedPayloadIsSignedLittleEndian : (-1023 ≤ (-1023 : Int) ∧ (-1023 : Int) ≤ 1023) ∧
    (-1023 ≤ (1023 : Int) ∧ (1023 : Int) ≤ 1023) := by decide

theorem witness_StepRunsTheFrame :
    ((asked (.frame [0x80#8, 0x00#8])).port = some (.frame [0x80#8, 0x00#8]) ∧
      (asked (.frame [0x80#8, 0x00#8])).seq = .idle ∧ decode [0x80#8, 0x00#8] = .ok .rdTest ∧ Instr.rdTest.wf = true) ∧
    ∃ b, (atTask .init handshakeTasks).port = none ∧ (atTask .init handshakeTasks).seq = .busy b ∧ b.micros = [] ∧
      b.todo = .frame .rdTest :: [.testAck] := ⟨⟨rfl, rfl, rfl, rfl⟩, _, rfl, rfl, rfl, rfl⟩

theorem witness_BusyBlockRefuses : ∃ b, (atTask .init handshakeTasks).seq = .busy b ∧
    { atTask .init handshakeTasks with port := some Request.init }.port = some .init ∧
    b.awaits (.wrFill 0#8) = false := ⟨_, rfl, rfl, rfl⟩

theorem witness_RefusalsOnlyForRequests : (st 100 []).Inv ∧ (st 100 []).port = none ∧ (asked (.setSpeed 3 5)).Inv ∧
    step (asked (.setSpeed 3 5)) = .refused .badOperand := ⟨by decide, rfl, by decide, rfl⟩

/-- The register's length of a brake payload is at most 18 (R137). -/
theorem brakePayload_le : (Config.brakePayload .caller).length ≤ 18 := List.length_take_le ..

theorem witness_BadFramesRefused :
    (st 100 []).seq = .idle ∧ (asked (.frame [0x80#8, 0x10#8])).port = some (.frame [0x80#8, 0x10#8]) ∧
    0x10 ≤ (0x10#8 : Byte).toNat ∧ (asked (.frame [0x81#8, 0x0A#8, 0#8])).port = some (.frame [0x81#8, 0x0A#8, 0#8]) ∧
    0x0A ≤ (0x0A#8 : Byte).toNat ∧ (asked (.frame [0x81#8, 0x08#8])).port = some (.frame [0x81#8, 0x08#8]) ∧
    payloadWidth 0 0x08#8 = some 1 ∧ ([] : List Byte).length ≠ 1 ∧
    (asked (.frame [0x81#8, 0x05#8, 0#8, 0#8])).port = some (.frame [0x81#8, 0x05#8, 0#8, 0#8]) ∧
    (∃ p, (asked (.frame (0x81#8 :: 0x06#8 :: p))).port = some (.frame (0x81#8 :: 0x06#8 :: p)) ∧ p ≠ [] ∧
      p.length ≠ (Config.brakePayload .caller).length) := by
  have h := brakePayload_le
  refine ⟨rfl, rfl, by decide, rfl, by decide, rfl, rfl, by decide, rfl, List.replicate 19 0#8, rfl, by decide, ?_⟩
  rw [List.length_replicate]
  omega

/-- The requests of the codec among them: V-CX5, V-CX9, V-CX11, a brake payload of a wrong length, a direct speed write. -/
theorem witness_BadFramesRefused_codec :
    (asked (.sendRead 0x10#8)).port = some (.sendRead 0x10#8) ∧
    (asked (.sendWrite 0x0A#8 [0#8])).port = some (.sendWrite 0x0A#8 [0#8]) ∧
    ((asked (.sendWrite 0x00#8 [0#8, 0#8])).port = some (.sendWrite 0x00#8 [0#8, 0#8]) ∧
      payloadWidth (Config.brakePayload .caller).length 0x00#8 = some 3 ∧ [(0#8 : Byte), 0#8].length ≠ 3) ∧
    (∃ p w, (asked (.sendWrite 0x06#8 p)).port = some (.sendWrite 0x06#8 p) ∧
      payloadWidth (Config.brakePayload .caller).length 0x06#8 = some w ∧ p.length ≠ w) ∧
    (asked (.sendWrite 0x04#8 [0#8, 0#8])).port = some (.sendWrite 0x04#8 [0#8, 0#8]) := by
  have h := brakePayload_le
  refine ⟨rfl, rfl, ⟨rfl, rfl, by decide⟩, ⟨List.replicate 19 0#8, _, rfl, rfl, ?_⟩, rfl⟩
  rw [List.length_replicate]
  omega

theorem witness_BadOperandsRefused : (st 100 []).seq = .idle ∧ (asked (.led 5 0 0 0)).port = some (.led 5 0 0 0) ∧
    4 < 5 ∧ (asked (.led 1 256 0 0)).port = some (.led 1 256 0 0) ∧ 255 < (256 : Int) ∧
    (asked (.led 4 0 0 (-1))).port = some (.led 4 0 0 (-1)) ∧ (-1 : Int) < 0 ∧
    (asked (.encRst 256)).port = some (.encRst 256) ∧ (asked (.display [0, 256])).port = some (.display [0, 256]) ∧
    (∃ v ∈ [(0 : Int), 256], v < 0 ∨ 255 < v) ∧ (asked (.setSpeed 0 5)).port = some (.setSpeed 0 5) ∧ 0 ≠ 1 ∧ 0 ≠ 2 := by
  decide

theorem witness_NamedRequestsRunTheirFrames : (asked .brake).seq = .idle ∧
    (4, Instr.wrLed4 255#8 0#8 1#8) ∈ [(1, Instr.wrLed1 255#8 0#8 1#8), (2, .wrLed2 255#8 0#8 1#8),
      (3, .wrLed3 255#8 0#8 1#8), (4, .wrLed4 255#8 0#8 1#8)] ∧
    (asked (.led 4 255 0 1)).port = some (.led 4 (255#8 : Byte).toNat (0#8 : Byte).toNat (1#8 : Byte).toNat) ∧
    (asked (.colorCal 255)).port = some (.colorCal (255#8 : Byte).toNat) ∧
    (asked (.encRst 0)).port = some (.encRst (0#8 : Byte).toNat) ∧ (asked (.fill true)).port = some (.fill true) ∧
    (asked (.display [72, 105])).port = some (.display ([72#8, 105#8].map fun b : Byte => (b.toNat : Int))) ∧
    (asked .brake).port = some .brake := by decide

theorem witness_StepKeepsInvariant : ∃ t, (asked (.frame [0x80#8, 0x00#8])).Inv ∧
    step (asked (.frame [0x80#8, 0x00#8])) = .next t := ⟨_, by decide, rfl⟩

theorem witness_StepKeepsFrameSpacing : ∃ t,
    { asked (.frame [0x80#8, 0x00#8]) with lastIssueGen := 99, trace := [.issue 98 .gen, .issue 99 .gen] }.spacedOn .gen
      = true ∧
    step { asked (.frame [0x80#8, 0x00#8]) with lastIssueGen := 99, trace := [.issue 98 .gen, .issue 99 .gen] } = .next t :=
  ⟨_, by decide, rfl⟩

theorem witness_ClockAndTraceOnlyMoveOn : ∃ t, step (asked (.frame [0x80#8, 0x00#8])) = .next t := ⟨_, rfl⟩

theorem witness_OnlySetSpeedWritesSpeeds : ∃ t, (atTask (.setSpeed .m1 (-50) (-50)) [.record .m1 (-50)]).Inv ∧
    step (atTask (.setSpeed .m1 (-50) (-50)) [.record .m1 (-50)]) = .next t ∧
    t.lastSpeed .m1 ≠ (atTask (.setSpeed .m1 (-50) (-50)) [.record .m1 (-50)]).lastSpeed .m1 :=
  ⟨_, by decide, rfl, by decide⟩

theorem witness_OnlyGatesWriteStamps : ∃ t, step (asked (.frame [0x80#8, 0x00#8])) = .next t ∧
    t.lastIssue .gen ≠ (asked (.frame [0x80#8, 0x00#8])).lastIssue .gen := ⟨_, rfl, by decide⟩

theorem witness_OnlyInitSetsReady : ∃ t, (atTask .init [.markReady]).Inv ∧ step (atTask .init [.markReady]) = .next t ∧
    t.ready ≠ (atTask .init [.markReady]).ready := ⟨_, by decide, rfl, by decide⟩

theorem witness_ChannelsAreIndependent : Channel.disp ≠ channelOf .rdTest ∧ Channel.gen ≠ channelOf (.disp []) := by decide

theorem witness_MotorsAreIndependent : Motor.m2 ≠ .m1 ∧
    ((asked (.setSpeed 1 5)).seq = .idle ∧ ∃ n v, (asked (.setSpeed 1 5)).port = some (.setSpeed n v) ∧
      motorOf n = some .m1) ∧
    ((atTask (.setSpeed .m1 5 5) (speedTasks .m1 5)).port = none ∧ ∃ b v c,
      (atTask (.setSpeed .m1 5 5) (speedTasks .m1 5)).seq = .busy b ∧ b.op = .setSpeed .m1 v c ∧ b.onPlan = true) :=
  ⟨by decide, ⟨rfl, _, _, rfl, rfl⟩, rfl, _, _, _, rfl, rfl, by decide⟩

/-- V-T1, V-T2 and V-T4: a gate that is open, one that waits, and one on a clock that stalls too early or just in time. -/
theorem witness_GateWaitsAndStamps :
    (stalls 149 { st 120 [] with lastIssueDisp := 100 }).env.clockStops = some 149 ∧ (st 100 []).env.clockStops = none ∧
    (∃ b b' t, microStep (.gate .gen) b { st 100 [] with lastIssueGen := 99 } = some (b', t)) ∧
    cfg.minInterval .gen ≤ (st 100 []).env.nextReading 100 - 99 ∧
    (∃ b b' t, microStep (.gate .disp) b (stalls 150 { st 120 [] with lastIssueDisp := 100 }) = some (b', t)) ∧
    (stalls 150 { st 120 [] with lastIssueDisp := 100 }).env.nextReading 120 - 100 < cfg.minInterval .disp :=
  ⟨rfl, rfl, ⟨Busy.start .init [], _, _, rfl⟩, by decide, ⟨Busy.start .init [], _, _, rfl⟩, by decide⟩

theorem witness_DelayIsALowerBound : (stalls 17 (st 7 [])).env.clockStops = some 17 ∧
    (∃ b', ∃ t, microStep .reachDelay (Busy.start .init []) (st 7 []) = some (b', t)) ∧
    (∃ b', ∃ t, microStep (.leaveDelay 10) { Busy.start .init [] with t0 := 7 } (st 7 []) = some (b', t)) :=
  ⟨rfl, ⟨_, _, rfl⟩, _, _, rfl⟩

/-- V-T4 and V-T11, each one short: the clock still moves on and then stalls one reading before the wait is over. -/
theorem witness_StalledClockWaitsForEver :
    (∃ b, (stalls 149 { stuckAt [.gate .disp] with now := 120, lastIssueDisp := 100 }).port = none ∧
      (stalls 149 { stuckAt [.gate .disp] with now := 120, lastIssueDisp := 100 }).seq = .busy b ∧
      b.micros = .gate .disp :: [] ∧
      (stalls 149 { stuckAt [.gate .disp] with now := 120, lastIssueDisp := 100 }).env.clockStops = some 149 ∧
      max 120 149 - (stalls 149 { stuckAt [.gate .disp] with now := 120, lastIssueDisp := 100 }).lastIssue .disp <
        cfg.minInterval .disp) ∧
    (∃ b, (stalls 0 { stuckAt [.leaveDelay 10] with now := 9 }).port = none ∧
      (stalls 0 { stuckAt [.leaveDelay 10] with now := 9 }).seq = .busy b ∧ b.micros = .leaveDelay 10 :: [] ∧
      (stalls 0 { stuckAt [.leaveDelay 10] with now := 9 }).env.clockStops = some 0 ∧ max 9 0 - b.t0 < 10) :=
  ⟨⟨_, rfl, rfl, rfl, rfl, by decide⟩, _, rfl, rfl, rfl, rfl, by decide⟩

/-- V-CX21, and a bus that returns from nothing; V-G21: a bus that stalls in the speed frame of a `SETSPEED`. -/
theorem witness_StalledBusLeavesFrameStuck :
    (∀ k ∈ [0, 2], (busStalls k (st 100 [])).accepts .rdTouch = true ∧
      (busStalls k (st 100 [])).env.clockStops = none ∧ (busStalls k (st 100 [])).env.busLeft = some k ∧
      k + 1 < (frameActs (brakeContext (busStalls k (st 100 [])).seq) .rdTouch (busStalls k (st 100 [])).incoming).length) ∧
    let s := busStalls 3 (atTask (.setSpeed .m1 (-50) (-50)) (speedTasks .m1 (-50)))
    s.issues (.wrMotor1 (-50)) = true ∧ s.env.clockStops = none ∧ s.env.busLeft = some 3 ∧
      3 + 1 < (frameActs (brakeContext s.seq) (.wrMotor1 (-50)) s.incoming).length := by
  refine ⟨fun k hk => ?_, rfl, rfl, rfl, by decide⟩
  simp only [List.mem_cons, List.not_mem_nil, or_false] at hk
  rcases hk with rfl | rfl <;> exact ⟨rfl, rfl, rfl, by decide⟩

/-- Stuck between the bytes, before the reply (V-CX21), and before the gate with more to do after the frame. -/
theorem witness_StuckFrameGoesOn :
    (∀ ms ∈ [restOfFrame none [1#8, 2#8] none, restOfFrame none [] (some 1), restOfFrame (some .gen) [0x80#8, 0x00#8] (some 1)],
      ∃ b, (stuckAt ms).port = none ∧ (stuckAt ms).seq = .busy b ∧ b.micros = ms ∧ b.micros ≠ [] ∧ (stuckAt ms).live ∧
        b.todo = []) ∧
    ∃ b, (atTask .init [.testAck]).port = none ∧
      { atTask .init [] with seq := .busy { Busy.start .init [.testAck] with micros := [.rx 1] } }.seq = .busy b ∧
      b.micros = restOfFrame none [] (some 1) ∧ b.micros ≠ [] ∧ (atTask .init [.testAck]).live ∧ b.todo = .testAck :: [] := by
  refine ⟨fun ms hms => ?_, _, rfl, rfl, rfl, by decide, ⟨rfl, rfl⟩, rfl⟩
  simp only [List.mem_cons, List.not_mem_nil, or_false] at hms
  rcases hms with rfl | rfl | rfl <;> exact ⟨_, rfl, rfl, rfl, by decide, ⟨rfl, rfl⟩, rfl⟩

theorem witness_FrameActsInOrder : ∃ t, exec .rdTouch (st 100 []) = .next t ∧
    ∀ b, t.seq = .busy b → b.micros = [] := ⟨_, rfl, fun b h => by cases h⟩

theorem witness_GeneralFramesLeaveTheRest : ∃ t, (∀ text, Instr.wrFill 1#8 ≠ .disp text) ∧
    exec (.wrFill 1#8) (st 100 []) = .next t ∧ (st 100 []).Inv ∧ (∀ c, Instr.wrFill 1#8 ≠ .wrColorCal c) :=
  ⟨_, (fun _ => Instr.noConfusion), rfl, by decide, (fun _ => Instr.noConfusion)⟩

theorem witness_DisplayFrameLeavesTheRest : ∃ t, (st 100 []).Inv ∧ exec (.disp [72#8]) (st 100 []) = .next t :=
  ⟨_, by decide, rfl⟩

/-- The premises of every read, write and display statement that is not listed by itself below, for the replies too. -/
theorem witness_completes : (st 100 [0xCA#8, 1#8, 2#8, 3#8]).seq = .idle ∧ (st 100 [0xCA#8, 1#8, 2#8, 3#8]).live ∧
    (st 100 [0xCA#8, 1#8, 2#8, 3#8]).incoming 1 = [0xCA#8] ∧
    (st 100 [0xCA#8, 1#8, 2#8, 3#8]).incoming 2 = [0xCA#8, 1#8] ∧
    (st 100 [0xCA#8, 1#8, 2#8, 3#8]).incoming 3 = [0xCA#8, 1#8, 2#8] ∧
    (st 100 [0xCA#8, 1#8, 2#8, 3#8]).incoming 4 = [0xCA#8, 1#8, 2#8, 3#8] := by decide

theorem witness_InvertedAnalogReadsComplete : (Instr.rdLight, (0x09#8 : Byte)) ∈ [(Instr.rdIr1, 0x01#8),
    (.rdIr2, 0x02#8), (.rdIr3, 0x03#8), (.rdIr4, 0x04#8), (.rdIr5, 0x05#8), (.rdIr6, 0x06#8), (.rdSound, 0x08#8),
    (.rdLight, 0x09#8)] := by decide

theorem witness_BooleanReadsComplete :
    (Instr.rdPkey, (0x0F#8 : Byte)) ∈ [(Instr.rdTouch, 0x0A#8), (.rdPkey, 0x0F#8)] := by decide

theorem witness_EncoderReadsComplete :
    (Instr.rdEnc2, (0x0D#8 : Byte)) ∈ [(Instr.rdEnc1, 0x0C#8), (.rdEnc2, 0x0D#8)] := by decide

theorem witness_BrakeWriteCompletes : (Config.brakePayload .caller).length = (Config.brakePayload .caller).length ∧
    (List.replicate 19 (0#8 : Byte)).length ≠ (Config.brakePayload .caller).length ∧ (st 100 []).seq = .idle := by
  have h := brakePayload_le
  rw [List.length_replicate]
  exact ⟨rfl, by omega, rfl⟩

theorem witness_SpeedFramesComplete : ∃ b,
    (Instr.wrMotor1 (-1023), (0x04#8 : Byte)) ∈ [(Instr.wrMotor1 (-1023), 0x04#8), (.wrMotor2 (-1023), 0x05#8)] ∧
    -1023 ≤ (-1023 : Int) ∧ (-1023 : Int) ≤ 1023 ∧
    (atTask (.setSpeed .m1 (-1023) (-1023)) (speedTasks .m1 (-1023))).seq = .busy b ∧ b.micros = [] ∧
    b.todo = .frame (.wrMotor1 (-1023)) :: .record .m1 (-1023) :: [] ∧
    (atTask (.setSpeed .m1 (-1023) (-1023)) (speedTasks .m1 (-1023))).live :=
  ⟨_, by decide, by decide, by decide, rfl, rfl, rfl, rfl, rfl⟩

theorem witness_DirectSpeedFramesRefused : (st 100 []).seq = .idle := rfl

theorem witness_SpeedFramesOnlyFromTheGuard : ∃ t,
    (Instr.wrMotor2 1023, Motor.m2) ∈ [(Instr.wrMotor1 1023, Motor.m1), (.wrMotor2 1023, .m2)] ∧
    (atTask (.setSpeed .m2 2000 1023) (speedTasks .m2 1023)).Inv ∧
    exec (.wrMotor2 1023) (atTask (.setSpeed .m2 2000 1023) (speedTasks .m2 1023)) = .next t :=
  ⟨_, by decide, by decide, rfl⟩

theorem witness_DisplayFrameCompletes : (st 100 []).seq = .idle ∧ (st 100 []).live := ⟨rfl, rfl, rfl⟩

/-- Each premise of the clamp at the edge of its range. -/
theorem witness_ClampKeepsRangeAndSign : 1023 < (1024 : Int) ∧ (-1024 : Int) < -1023 ∧
    (-1023 ≤ (1023 : Int) ∧ (1023 : Int) ≤ 1023) := by decide

/-- V-G12 and V-G18. -/
theorem witness_SetSpeedWithoutReversal :
    ((asked (.setSpeed 1 2000)).seq = .idle ∧ (asked (.setSpeed 1 2000)).live ∧
      (asked (.setSpeed 1 2000)).port = some (.setSpeed 1 2000) ∧
      (1, Motor.m1, (0x04#8 : Byte)) ∈ [(1, Motor.m1, 0x04#8), (2, .m2, 0x05#8)] ∧
      (1023 : Int) = max (-1023) (min 1023 2000) ∧ (1023 : Int).sign * ((asked (.setSpeed 1 2000)).lastSpeed .m1).sign ≠ -1) ∧
    ((asked (.setSpeed 2 (-100))).port = some (.setSpeed 2 (-100)) ∧
      (2, Motor.m2, (0x05#8 : Byte)) ∈ [(1, Motor.m1, 0x04#8), (2, .m2, 0x05#8)] ∧
      (-100 : Int) = max (-1023) (min 1023 (-100))) := by decide

/-- V-G2. -/
theorem witness_SetSpeedWithReversal : { asked (.setSpeed 1 (-50)) with lastSpeedM1 := 100 }.seq = .idle ∧
    { asked (.setSpeed 1 (-50)) with lastSpeedM1 := 100 }.live ∧
    { asked (.setSpeed 1 (-50)) with lastSpeedM1 := 100 }.port = some (.setSpeed 1 (-50)) ∧
    (1, Motor.m1, BrakeContext.m1, (0x04#8 : Byte)) ∈
      [(1, Motor.m1, BrakeContext.m1, 0x04#8), (2, .m2, .m2, 0x05#8)] ∧
    (-50 : Int) = max (-1023) (min 1023 (-50)) ∧
    (-50 : Int).sign * ({ asked (.setSpeed 1 (-50)) with lastSpeedM1 := 100 }.lastSpeed .m1).sign = -1 := by decide

theorem witness_InitSendsTheResetSequence : (asked .init).seq = .idle ∧ (asked .init).live ∧
    (asked .init).port = some .init ∧ (asked .init).incoming 1 = [0xCA#8] := by decide

/-- V-I2. -/
theorem witness_InitReadsUntilAcknowledged :
    { st 1000 [0xFF#8, 0xFF#8, 0xCA#8] with port := some Request.init }.seq = .idle ∧
    { st 1000 [0xFF#8, 0xFF#8, 0xCA#8] with port := some Request.init }.live ∧
    { st 1000 [0xFF#8, 0xFF#8, 0xCA#8] with port := some Request.init }.env.replies =
      [0xFF#8, 0xFF#8] ++ 0xCA#8 :: [] ∧ (∀ r ∈ [0xFF#8, 0xFF#8], r ≠ (0xCA#8 : Byte)) := by decide

/-- V-I4's near misses. -/
theorem witness_InitNeverGivesUp :
    { st 1000 [0xCB#8, 0xC9#8, 0x4A#8] with port := some Request.init }.seq = .idle ∧
    { st 1000 [0xCB#8, 0xC9#8, 0x4A#8] with port := some Request.init }.live ∧
    3 ≤ { st 1000 [0xCB#8, 0xC9#8, 0x4A#8] with port := some Request.init }.env.replies.length ∧
    (∀ r ∈ { st 1000 [0xCB#8, 0xC9#8, 0x4A#8] with port := some Request.init }.env.replies, r ≠ (0xCA#8 : Byte)) := by
  decide

/-- S5: raw 4095 is the largest value the law covers. -/
theorem witness_InvertedDecodeLaw : value16 0xFF#8 0x0F#8 ≤ 0xFFF ∧ value16 0xFF#8 0x0F#8 < value16 0x00#8 0x10#8 := by
  decide

theorem witness_SetSpeedUsesTheClampedSpeed : (1023 < (1024 : Int) ∧ (-1024 : Int) < -1023 ∧
    (-1023 ≤ (-1023 : Int) ∧ (-1023 : Int) ≤ 1023)) ∧ (st 100 []).seq = .idle ∧ motorOf 1 = some .m1 ∧
    motorOf 2 = some .m2 := by decide

theorem witness_SendReadReturnsTheBytes : (asked (.sendRead 0x0F#8)).seq = .idle ∧ (asked (.sendRead 0x0F#8)).live ∧
    (asked (.sendRead 0x0F#8)).port = some (.sendRead 0x0F#8) ∧ descriptor 0x0F#8 = some (1, .bool) := by decide

/-- V-CX7, and the brake register with its own payload. -/
theorem witness_SendWriteSendsThePayload :
    ((asked (.sendWrite 0x08#8 [1#8])).seq = .idle ∧ (asked (.sendWrite 0x08#8 [1#8])).live ∧
      (asked (.sendWrite 0x08#8 [1#8])).port = some (.sendWrite 0x08#8 [1#8]) ∧
      payloadWidth (Config.brakePayload .caller).length 0x08#8 = some [(1#8 : Byte)].length ∧
      (0x08#8 : Byte) ≠ 0x04#8 ∧ (0x08#8 : Byte) ≠ 0x05#8) ∧
    payloadWidth (Config.brakePayload .caller).length 0x06#8 = some (Config.brakePayload .caller).length :=
  ⟨⟨rfl, ⟨rfl, rfl⟩, rfl, rfl, by decide, by decide⟩, rfl⟩

theorem witness_ColorCalSettlesWithTheCaller : (st 100 []).seq = .idle ∧ (st 100 []).live := ⟨rfl, rfl, rfl⟩

end Sys2Proof.Tests
end

section
/-! ## Proofs: the scope's statements about the speed payload -/

namespace Sys2Proof.Proofs.SpeedPayload

open Sys2Proof

/-- Settles O6: the speeds in range are 16-bit signed values, so the codec's byte form and its round trip apply. -/
theorem speedPayloadIsSignedLittleEndian : Obligations.SpeedPayloadIsSignedLittleEndian := by
  intro c hlow hhigh
  have hmin : -32768 ≤ c := by omega
  have hmax : c ≤ 32767 := by omega
  obtain ⟨lo, hi, hbytes, hvalue⟩ := encLe16s_eq hmin hmax
  have hround : leS [lo, hi] = c := hbytes ▸ leS_encLe16s hmin hmax
  exact ⟨lo, hi, hbytes, by exact_mod_cast hvalue, hround⟩

end Sys2Proof.Proofs.SpeedPayload
end

section
/-! ## Proofs: the invariant holds at reset and every step keeps it -/

namespace Sys2Proof.Proofs.Invariant

open Sys2Proof Sys2Proof.Machine

/-! ### What is left of a planned operation, by the step it has come to -/

section Plan

variable {b : Busy} {k : Task} {rest : List Task}

/-- On plan, only `SETSPEED` and `INIT` have steps after their frame, and these are the last ones of their plan (R61). -/
theorem onPlan_todo_cons (h : b.onPlan = true) (ht : b.todo = k :: rest) :
    (∃ m v, b.op = .setSpeed m v (clampSpeed v) ∧ k :: rest <:+ brakeTasks ++ speedTasks m (clampSpeed v)) ∨
      b.op = .init ∧ (k :: rest <:+ retryTasks ∨ k :: rest <:+ resetTasks) := by
  simp only [Busy.onPlan, ht, Bool.and_eq_true] at h
  obtain ⟨-, h⟩ := h
  cases hop : b.op with
  | instr i => simp [hop] at h
  | sendRead i => simp [hop] at h
  | setSpeed m v c =>
    simp only [hop, Bool.and_eq_true, decide_eq_true_eq] at h
    obtain ⟨rfl, hsuf⟩ := h
    exact .inl ⟨m, v, rfl, hsuf⟩
  | init =>
    simp only [hop, Bool.or_eq_true, decide_eq_true_eq] at h
    exact .inr ⟨rfl, h⟩

/-- The record of a speed is the last step of that motor's `SETSPEED`, and records the clamped speed (R153). -/
theorem onPlan_record {m : Motor} {c : Int} (h : b.onPlan = true) (ht : b.todo = .record m c :: rest) :
    ∃ v, b.op = .setSpeed m v c ∧ c = clampSpeed v ∧ rest = [] := by
  obtain ⟨m', v, hop, hsuf⟩ | ⟨-, hsuf⟩ := onPlan_todo_cons h ht
  · obtain ⟨⟨rfl, rfl⟩, rfl⟩ : (m = m' ∧ c = clampSpeed v) ∧ rest = [] := by
      simpa [brakeTasks, speedTasks, List.suffix_cons_iff] using hsuf
    exact ⟨v, hop, rfl, rfl⟩
  · simp [retryTasks, handshakeTasks, resetTasks, List.suffix_cons_iff] at hsuf

/-- The acknowledgment test is the last step of an attempt of `INIT` (R166). -/
theorem onPlan_testAck (h : b.onPlan = true) (ht : b.todo = .testAck :: rest) : b.op = .init ∧ rest = [] := by
  obtain ⟨m, v, -, hsuf⟩ | ⟨hop, hsuf⟩ := onPlan_todo_cons h ht
  · simp [brakeTasks, speedTasks, List.suffix_cons_iff] at hsuf
  · exact ⟨hop, by simpa [retryTasks, handshakeTasks, resetTasks, List.suffix_cons_iff] using hsuf⟩

/-- Setting `ready` is the last step of `INIT` (R170). -/
theorem onPlan_markReady (h : b.onPlan = true) (ht : b.todo = .markReady :: rest) : b.op = .init ∧ rest = [] := by
  obtain ⟨m, v, -, hsuf⟩ | ⟨hop, hsuf⟩ := onPlan_todo_cons h ht
  · simp [brakeTasks, speedTasks, List.suffix_cons_iff] at hsuf
  · exact ⟨hop, by simpa [retryTasks, handshakeTasks, resetTasks, List.suffix_cons_iff] using hsuf⟩

end Plan

/-! ### Every step keeps the invariant -/

/-- Whatever micro-steps are left, an operation `op` with the steps `todo` after them is on its plan, as long as there is
something to do. -/
def Planned (op : Operation) (todo : List Task) : Prop :=
  ∀ b : Busy, b.op = op → b.todo = todo → ¬ (b.micros = [] ∧ b.todo = []) → b.onPlan = true

/-- A single frame has nothing after it (R85). -/
theorem planned_instr (i : Instr) : Planned (.instr i) [] := by
  intro b hop ht hne
  simp_all [Busy.onPlan]

theorem planned_sendRead (i : Instr) : Planned (.sendRead i) [] := by
  intro b hop ht hne
  simp_all [Busy.onPlan]

/-- `SETSPEED` goes through the last steps of R154 with the clamped speed. -/
theorem planned_setSpeed {m : Motor} {v : Int} {todo : List Task}
    (h : todo <:+ brakeTasks ++ speedTasks m (clampSpeed v)) : Planned (.setSpeed m v (clampSpeed v)) todo := by
  intro b hop ht hne
  have hleft := not_and_or.mp hne
  simpa [Busy.onPlan, hop, ht, h] using hleft

/-- `INIT` goes through the last steps of an attempt or of the reset sequence (R165). -/
theorem planned_init {todo : List Task} (h : todo <:+ retryTasks ∨ todo <:+ resetTasks) : Planned .init todo := by
  intro b hop ht hne
  have hleft := not_and_or.mp hne
  simpa [Busy.onPlan, hop, ht, h] using hleft

theorem planned_todo {b : Busy} (h : b.onPlan = true) : Planned b.op b.todo :=
  fun _ hop ht hne => onPlan_of h hop (.inl ht) hne

theorem planned_rest {b : Busy} {k : Task} {rest : List Task} (h : b.onPlan = true) (ht : b.todo = k :: rest) :
    Planned b.op rest :=
  fun _ hop hr hne => onPlan_of h hop (.inr ⟨k, hr ▸ ht⟩) hne

/-- The acknowledgment test is followed by the reset sequence or by another attempt (R167, R168). -/
theorem planned_afterTest {b : Busy} {rest : List Task} (h : b.onPlan = true) (ht : b.todo = .testAck :: rest) (ack : Bool) :
    Planned b.op ((if ack then resetTasks else retryTasks) ++ rest) := by
  obtain ⟨hop, rfl⟩ := onPlan_testAck h ht
  rw [hop, List.append_nil]
  cases ack
  · exact planned_init (.inl List.suffix_rfl)
  · exact planned_init (.inr List.suffix_rfl)

/-- A step of the block that is no frame and no delay, done on a state that meets the invariant's first two parts. -/
theorem settle_planned {b : Busy} {todo : List Task} {u : State} (hst : u.stampsPast) (hsp : u.speedsInRange)
    (ht0 : b.t0 ≤ u.now) (hp : Planned b.op todo) : (settle { b with todo := todo } u).Inv :=
  settle_Inv hst hsp ht0 fun hne => hp _ rfl rfl fun hnil => hne hnil.2

/-- The micro-steps of a frame or delay, run in an operation that is on plan afterwards. -/
theorem runMicros_planned {ms : List Micro} {b : Busy} {u : State} (hst : u.stampsPast) (hsp : u.speedsInRange)
    (ht0 : b.t0 ≤ u.now) (hp : Planned b.op b.todo) : (runMicros ms b u).Inv :=
  run_Inv hst hsp ht0 hp

/-- A tick leaves the stamps in the past (R12, R14). -/
theorem stampsPast_tick {s : State} (h : s.stampsPast) : s.tick.stampsPast :=
  ⟨h.1.trans (now_le_tick s), h.2.trans (now_le_tick s)⟩

theorem tick_Inv {s : State} (h : s.Inv) : s.tick.Inv := by
  obtain ⟨hst, hsp, hseq⟩ := h
  refine ⟨stampsPast_tick hst, hsp, ?_⟩
  unfold State.sequencerOk at hseq ⊢
  rw [tick_seq]
  split
  · rfl
  · rename_i b hb
    simp only [hb, Bool.and_eq_true, decide_eq_true_eq] at hseq ⊢
    exact ⟨hseq.1, hseq.2.trans (now_le_tick s)⟩

/-- A recorded speed in range keeps both in range (R13). -/
theorem speedsInRange_setLastSpeed {s : State} (h : s.speedsInRange) (m : Motor) {c : Int} (hc : speedInRange c = true) :
    (s.setLastSpeed m c).speedsInRange := by
  cases m
  · exact ⟨hc, h.2⟩
  · exact ⟨h.1, hc⟩

/-- What the invariant says of a busy block. -/
theorem onPlan_of_Inv {s : State} {b : Busy} (h : s.Inv) (hs : s.seq = .busy b) : b.onPlan = true ∧ b.t0 ≤ s.now := by
  have hseq := h.2.2
  simpa [State.sequencerOk, hs] using hseq

/-- An accepted operation of several steps meets the invariant when it begins on its plan. -/
theorem beginOp_Inv {s : State} {op : Operation} {todo : List Task} (hst : s.stampsPast) (hsp : s.speedsInRange)
    (hp : Planned op todo) (hne : todo ≠ []) : (beginOp op todo s).Inv := by
  refine ⟨hst, hsp, ?_⟩
  have hplan := hp (Busy.start op todo) rfl rfl fun hnil => hne hnil.2
  simp only [State.sequencerOk, beginOp, hplan, Bool.true_and]
  exact decide_eq_true (Nat.zero_le _)

/-- A frame keeps the invariant; of a busy block it needs only that the operation is on plan after it. -/
theorem exec_Inv {i : Instr} {s t : State} (h : exec i s = .next t) (hst : s.stampsPast) (hsp : s.speedsInRange)
    (hb : ∀ b, s.seq = .busy b → b.t0 ≤ s.now ∧ Planned b.op b.todo.tail) : t.Inv := by
  obtain ⟨b, s₀, rfl, hs₀, hcase⟩ := exec_next_cases h
  have hst₀ : s₀.stampsPast := by rw [hs₀]; exact hst
  have hsp₀ : s₀.speedsInRange := by rw [hs₀]; exact hsp
  obtain ⟨-, rfl, -⟩ | ⟨b₀, hs, -, rfl, rfl⟩ := hcase
  · exact runMicros_planned hst₀ hsp₀ (Nat.zero_le _) (planned_instr i)
  · obtain ⟨ht0, hp⟩ := hb b₀ hs
    exact runMicros_planned hst₀ hsp₀ ht0 hp

/-- A busy block going on with its operation keeps the invariant. -/
theorem advance_Inv {b : Busy} {s t : State} (hinv : s.Inv) (hs : s.seq = .busy b) (h : advance b s = .next t) :
    t.Inv := by
  obtain ⟨hplan, ht0⟩ := onPlan_of_Inv hinv hs
  have ⟨hst, hsp, _⟩ := hinv
  have hst' := stampsPast_tick hst
  have ht0' : b.t0 ≤ s.tick.now := ht0.trans (now_le_tick s)
  obtain ⟨m, ms, -, -, rfl⟩ | ⟨m, ms, -, rfl, -⟩ | ⟨-, -, rfl⟩ | ⟨i, rest, -, ht, h⟩ | ⟨d, rest, -, ht, rfl⟩ |
    ⟨m, c, rest, -, ht, rfl⟩ | ⟨rest, -, ht, rfl⟩ | ⟨rest, -, ht, rfl⟩ := advance_cases h
  · exact tick_Inv hinv
  · exact runMicros_planned hst hsp ht0 (planned_todo hplan)
  · exact ⟨hst', hsp, rfl⟩
  · refine exec_Inv h hst hsp fun b' hs' => ?_
    obtain rfl : b = b' := by simpa [hs] using hs'
    exact ⟨ht0, by rw [ht]; exact planned_rest hplan ht⟩
  · have hrest : Planned b.op rest := planned_rest hplan ht
    exact runMicros_planned hst hsp ht0 hrest
  · obtain ⟨v, -, rfl, -⟩ := onPlan_record hplan ht
    have hsp' := speedsInRange_setLastSpeed (s := s.tick) hsp m (clampSpeed_inRange v)
    refine settle_planned (b := b) ?_ hsp' ?_ (planned_rest hplan ht)
    · simpa [State.stampsPast] using hst'
    · simpa using ht0'
  · exact settle_planned (b := b) hst' hsp ht0' (planned_afterTest hplan ht _)
  · exact settle_planned (b := b) hst' hsp ht0' (planned_rest hplan ht)

/-- An accepted `SETSPEED` carries the clamped speed (R150). -/
theorem operation_setSpeed {r : Request} {m : Motor} {v c : Int} (h : r.operation = .ok (.setSpeed m v c)) :
    c = clampSpeed v := by
  cases r
  case setSpeed n w =>
    simp only [Request.operation] at h
    split at h <;> cases h
    rfl
  case brake | fill | init => cases h
  case led =>
    simp only [Request.operation] at h
    split at h
    · split at h <;> cases h
    · cases h
  case frame | sendRead | sendWrite | colorCal | encRst | display =>
    simp only [Request.operation] at h
    split at h <;> cases h

/-- The steps an accepted `SETSPEED` begins with are on its plan, with a reversal or without (R154). -/
theorem setSpeedTasks_suffix (m : Motor) (c p : Int) : setSpeedTasks m c p <:+ brakeTasks ++ speedTasks m c := by
  unfold setSpeedTasks
  split
  · exact List.suffix_rfl
  · exact List.suffix_append _ _

/-- Settles O14: case by case of what a step can do, the stamps, the speeds and the plan stay right. -/
theorem stepKeepsInvariant : Obligations.StepKeepsInvariant := by
  intro s t hinv h
  have ⟨hst, hsp, _⟩ := hinv
  obtain ⟨r, i, -, hs, -, h⟩ | ⟨r, i, -, hs, -, h⟩ | ⟨r, m, v, c, -, hs, hop, rfl⟩ | ⟨r, -, hs, -, rfl⟩ |
    ⟨b, -, hs, h⟩ | ⟨-, -, rfl⟩ := step_cases h
  · exact exec_Inv h hst hsp fun b hb => by simp [State.withdraw, hs] at hb
  · refine exec_Inv h hst hsp fun b hb => ?_
    obtain rfl : Busy.start (.sendRead i) [.frame i] = b := by simpa [beginOp] using hb
    exact ⟨Nat.zero_le _, planned_sendRead i⟩
  · obtain rfl := operation_setSpeed hop
    exact beginOp_Inv hst hsp (planned_setSpeed (setSpeedTasks_suffix m _ _)) (by simp [setSpeedTasks, speedTasks])
  · exact beginOp_Inv hst hsp (planned_init (.inl (List.suffix_cons _ _))) (by simp [handshakeTasks])
  · exact advance_Inv hinv hs h
  · exact tick_Inv hinv

/-! ### Reset -/

/-- Settles O13: at reset the stamps and speeds are 0, the sequencer is idle and no frame is on the wire. -/
theorem resetMeetsInvariant : Obligations.ResetMeetsInvariant := by
  have hstamps : State.reset.stampsPast := ⟨Nat.zero_le _, Nat.zero_le _⟩
  have hspeeds : State.reset.speedsInRange := ⟨by decide, by decide⟩
  exact ⟨⟨hstamps, hspeeds, rfl⟩, fun ch => rfl⟩

/-- Settles O55: each value is the one `State.reset` names (R201). -/
theorem resetState : Obligations.ResetState := ⟨rfl, rfl, rfl, rfl, rfl, rfl, rfl⟩

/-- Settles O56: both recorded speeds are reset to 0 (R22). -/
theorem resetSpeedsAreZero : Obligations.ResetSpeedsAreZero := ⟨rfl, rfl⟩

end Sys2Proof.Proofs.Invariant
end

section
/-! ## Proofs: what a step does to the clock, the trace and the registers -/

namespace Sys2Proof.Proofs.Effects

open Sys2Proof Sys2Proof.Machine

/-! ### What the return of an operation leaves as it was -/

section Settle

variable (b : Busy) (s : State)

@[simp] theorem settle_ready : (settle b s).ready = s.ready := by
  unfold settle; split <;> rfl

@[simp] theorem settle_trace : (settle b s).trace = s.trace := by
  unfold settle; split <;> rfl

@[simp] theorem lastSpeed_settle (m : Motor) : (settle b s).lastSpeed m = s.lastSpeed m := by
  unfold settle; split <;> cases m <;> rfl

@[simp] theorem lastIssue_settle (ch : Channel) : (settle b s).lastIssue ch = s.lastIssue ch := by
  unfold settle; split <;> cases ch <;> rfl

/-- The clock may advance before the operation returns (R8). -/
theorem now_le_settle : s.now ≤ (settle b s).now := by
  unfold settle
  split
  · exact now_le_tick s
  · exact le_rfl

end Settle

/-! ### Moving on -/

/-- The clock has not gone back, the trace has gained events with readings in between, and a stamp has changed only by a gate
among them, to that gate's reading. -/
structure MovesOn (s t : State) : Prop where
  now_le : s.now ≤ t.now
  events : ∃ es, t.trace = s.trace ++ es ∧ readingsWithin s.now t.now es = true ∧
    ∀ ch, t.lastIssue ch = s.lastIssue ch ∨ .issue (t.lastIssue ch) ch ∈ es

/-- Moving on with `ready` and the recorded speeds as they were: what frames, delays and the clock do. -/
structure Carries (s t : State) : Prop extends MovesOn s t where
  ready : t.ready = s.ready
  speeds : ∀ m, t.lastSpeed m = s.lastSpeed m

section

variable {s t u : State}

/-- Nothing on the wire and no stamp written. -/
theorem MovesOn.of_silent (hnow : s.now ≤ t.now) (htrace : t.trace = s.trace)
    (hstamp : ∀ ch, t.lastIssue ch = s.lastIssue ch) : MovesOn s t :=
  ⟨hnow, [], by rw [htrace, List.append_nil], (readingsWithin_nil _ _).mpr hnow, fun ch => .inl (hstamp ch)⟩

theorem MovesOn.trans (h : MovesOn s t) (h' : MovesOn t u) : MovesOn s u := by
  obtain ⟨es, htrace, hwithin, hstamp⟩ := h.events
  obtain ⟨fs, htrace', hwithin', hstamp'⟩ := h'.events
  refine ⟨h.now_le.trans h'.now_le, es ++ fs, by rw [htrace', htrace, List.append_assoc],
    readingsWithin_append hwithin hwithin', fun ch => ?_⟩
  rcases hstamp' ch with heq | hmem
  · rw [heq]
    exact (hstamp ch).imp_right fun hmem => List.mem_append_left _ hmem
  · exact .inr (List.mem_append_right _ hmem)

theorem Carries.refl (s : State) : Carries s s :=
  ⟨.of_silent le_rfl rfl fun _ => rfl, rfl, fun _ => rfl⟩

theorem Carries.trans (h : Carries s t) (h' : Carries t u) : Carries s u :=
  ⟨h.toMovesOn.trans h'.toMovesOn, h'.ready.trans h.ready, fun m => (h'.speeds m).trans (h.speeds m)⟩

theorem carries_tick (s : State) : Carries s s.tick :=
  ⟨.of_silent (now_le_tick s) rfl (lastIssue_tick s), rfl, lastSpeed_tick s⟩

theorem carries_finish (b : Busy) (s : State) : Carries s (finish b s) :=
  ⟨.of_silent (now_le_tick s) rfl fun ch => lastIssue_finish s ch b, rfl, fun m => lastSpeed_finish s m b⟩

theorem carries_settle (b : Busy) (s : State) : Carries s (settle b s) :=
  ⟨.of_silent (now_le_settle b s) (settle_trace b s) (lastIssue_settle b s), settle_ready b s, lastSpeed_settle b s⟩

/-- What stands at the port, was answered or is in progress is none of it. -/
theorem carries_handover (s : State) (q : Seq) (p : Option Request) (a : Option Answer) :
    Carries s { s with seq := q, port := p, answer := a } :=
  ⟨.of_silent le_rfl rfl fun ch => by cases ch <;> rfl, rfl, fun m => by cases m <;> rfl⟩

/-- A micro-step writes a stamp only as a gate, with that gate's reading in the event (R72). -/
theorem carries_microStep {m : Micro} {b b' : Busy} (h : microStep m b s = some (b', t)) : Carries s t := by
  obtain ⟨hm, -, -, -, -, hstamps⟩ := microStep_moved h
  have hspeeds : ∀ m, t.lastSpeed m = s.lastSpeed m := fun m => by
    cases m
    · exact hm.speedM1
    · exact hm.speedM2
  suffices hon : MovesOn s t from ⟨hon, hm.ready, hspeeds⟩
  rcases hstamps with ⟨ch, rfl⟩ | ⟨hgen, hdisp⟩
  · obtain ⟨u, hu, he⟩ := Option.map_eq_some_iff.mp h
    cases he
    obtain ⟨-, -, hpassed, -⟩ := gateStep_some hu
    have htrace : t.trace = s.trace ++ [.issue t.now ch] := congrArg State.trace hpassed
    refine ⟨hm.now_le, _, htrace, hm.within htrace, fun ch' => ?_⟩
    by_cases hch : ch' = ch
    · subst hch
      have hstamp : t.lastIssue ch' = t.now := by rw [hpassed]; cases ch' <;> rfl
      exact .inr (by simp [hstamp])
    · refine .inl (Eq.trans ?_ (lastIssue_setLastIssue_other s ch t.now ch' hch))
      rw [hpassed]; cases ch' <;> rfl
  · obtain ⟨es, htrace, hwithin⟩ := hm.traced
    refine ⟨hm.now_le, es, htrace, hwithin, fun ch => .inl ?_⟩
    cases ch
    · exact hgen
    · exact hdisp

theorem carries_ran {ms : List Micro} {b b' : Busy} (h : Ran ms b s b' t) : Carries s t := by
  induction h with
  | done b s => exact .refl s
  | step hm _ ih => exact (carries_microStep hm).trans ih

theorem carries_runMicros (ms : List Micro) (b : Busy) (s : State) : Carries s (runMicros ms b s) := by
  rcases runMicros_cases ms b s with ⟨b', u, hr, he⟩ | ⟨done, m, left, b', u, -, hr, -, he⟩
  · rw [he]; exact (carries_ran hr).trans (carries_settle b' u)
  · rw [he]; exact (carries_ran hr).trans (carries_handover u _ u.port u.answer)

theorem carries_exec {i : Instr} (h : exec i s = .next t) : Carries s t := by
  obtain ⟨b, s₀, rfl, hs₀, -⟩ := exec_next_cases h
  have hbegun : Carries s s₀ := by rw [hs₀]; exact carries_handover s s.seq s.port _
  exact hbegun.trans (carries_runMicros _ b s₀)

/-- The two register writes are steps of their own; every other step of a busy block carries the registers on. -/
theorem advance_effect {b : Busy} (h : advance b s = .next t) :
    Carries s t ∨
    (∃ m c rest, b.micros = [] ∧ b.todo = .record m c :: rest ∧
      t = settle { b with todo := rest } (s.tick.setLastSpeed m c)) ∨
    (∃ rest, b.micros = [] ∧ b.todo = .markReady :: rest ∧
      t = settle { b with todo := rest } { s.tick with ready := true }) := by
  obtain ⟨m, ms, -, -, rfl⟩ | ⟨m, ms, -, rfl, -⟩ | ⟨-, -, rfl⟩ | ⟨i, rest, -, -, h⟩ | ⟨d, rest, -, -, rfl⟩ |
    hrecord | ⟨rest, -, -, rfl⟩ | hready := advance_cases h
  · exact .inl (carries_tick s)
  · exact .inl (carries_runMicros _ _ s)
  · exact .inl (carries_finish b s)
  · exact .inl (carries_exec h)
  · exact .inl (carries_runMicros _ _ s)
  · exact .inr (.inl hrecord)
  · exact .inl ((carries_tick s).trans (carries_settle _ _))
  · exact .inr (.inr hready)

/-- What a step does to the registers: it carries them on, or writes one of them and returns or goes on. -/
theorem step_effect (h : step s = .next t) :
    Carries s t ∨
    (∃ b m c rest, s.seq = .busy b ∧ b.micros = [] ∧ b.todo = .record m c :: rest ∧
      t = settle { b with todo := rest } (s.tick.setLastSpeed m c)) ∨
    (∃ b rest, s.seq = .busy b ∧ b.micros = [] ∧ b.todo = .markReady :: rest ∧
      t = settle { b with todo := rest } { s.tick with ready := true }) := by
  obtain ⟨r, i, -, -, -, h⟩ | ⟨r, i, -, -, -, h⟩ | ⟨r, m, v, c, -, -, -, rfl⟩ | ⟨r, -, -, -, rfl⟩ |
    ⟨b, -, hs, h⟩ | ⟨-, -, rfl⟩ := step_cases h
  · exact .inl ((carries_handover s _ _ _).trans (carries_exec h))
  · exact .inl ((carries_handover s _ _ _).trans (carries_exec h))
  · exact .inl (carries_handover s _ _ _)
  · exact .inl (carries_handover s _ _ _)
  · obtain hc | ⟨m, c, rest, hrecord⟩ | ⟨rest, hready⟩ := advance_effect h
    · exact .inl hc
    · exact .inr (.inl ⟨b, m, c, rest, hs, hrecord⟩)
    · exact .inr (.inr ⟨b, rest, hs, hready⟩)
  · exact .inl (carries_tick s)

/-- Every step moves on. -/
theorem step_movesOn (h : step s = .next t) : MovesOn s t := by
  obtain hc | ⟨b, m, c, rest, -, -, -, rfl⟩ | ⟨b, rest, -, -, -, rfl⟩ := step_effect h
  · exact hc.toMovesOn
  · have hwrite : MovesOn s (s.tick.setLastSpeed m c) :=
      .of_silent (by simpa using now_le_tick s) (by simp) (by simp)
    exact hwrite.trans (carries_settle _ _).toMovesOn
  · have hwrite : MovesOn s { s.tick with ready := true } :=
      .of_silent (now_le_tick s) rfl fun ch => by cases ch <;> rfl
    exact hwrite.trans (carries_settle _ _).toMovesOn

end

/-! ### The obligations -/

/-- Settles O16: every step moves on, and what it adds to the trace is as `MovesOn` says. -/
theorem clockAndTraceOnlyMoveOn : Obligations.ClockAndTraceOnlyMoveOn := by
  intro s t h
  obtain ⟨hnow, es, htrace, hwithin, -⟩ := step_movesOn h
  exact ⟨hnow, es, htrace, hwithin⟩

/-- Settles O18: of the events a step adds, a gate's own stands for each changed stamp. -/
theorem onlyGatesWriteStamps : Obligations.OnlyGatesWriteStamps := by
  intro s t ch h hne
  obtain ⟨-, es, htrace, -, hstamp⟩ := step_movesOn h
  rw [since_eq htrace]
  exact (hstamp ch).resolve_left hne

/-- A clamp to the range of R13, as the library's `max` and `min` write it. -/
theorem clampSpeed_eq (v : Int) : clampSpeed v = max (-1023) (min 1023 v) := by
  simp only [clampSpeed, clamp]
  split
  · omega
  · split <;> omega

/-- Settles O17: only the record step writes a speed; on plan it is the last of `SETSPEED` for that motor. -/
theorem onlySetSpeedWritesSpeeds : Obligations.OnlySetSpeedWritesSpeeds := by
  intro s t m hinv h hne
  obtain hc | ⟨b, m', c, rest, hs, hmicros, htodo, rfl⟩ | ⟨b, rest, -, -, -, rfl⟩ := step_effect h
  · exact absurd (hc.speeds m) hne
  · obtain ⟨v, hop, hclamp, rfl⟩ := Invariant.onPlan_record (Invariant.onPlan_of_Inv hinv hs).1 htodo
    obtain rfl : m = m' := by
      by_contra hother
      exact hne (by simp [lastSpeed_setLastSpeed_other _ _ _ _ hother])
    exact ⟨b, v, c, hs, hop, hmicros, htodo, by simp, hclamp ▸ clampSpeed_eq v, by simp⟩
  · have hsame : State.lastSpeed { s.tick with ready := true } m = s.lastSpeed m := by cases m <;> rfl
    exact absurd ((lastSpeed_settle _ _ m).trans hsame) hne

/-- Settles O19: only the last step of `INIT` writes `ready`, after which nothing is left to do. -/
theorem onlyInitSetsReady : Obligations.OnlyInitSetsReady := by
  intro s t hinv h hne
  obtain hc | ⟨b, m, c, rest, -, -, -, rfl⟩ | ⟨b, rest, hs, -, htodo, rfl⟩ := step_effect h
  · exact absurd hc.ready hne
  · exact absurd (by simp) hne
  · obtain ⟨hop, rfl⟩ := Invariant.onPlan_markReady (Invariant.onPlan_of_Inv hinv hs).1 htodo
    exact ⟨settle_ready _ _, rfl, b, hs, hop, htodo⟩

end Sys2Proof.Proofs.Effects
end

section
/-! ## Proofs: what a step looks at, and what it does whatever the rest holds -/

namespace Sys2Proof.Proofs.Noninterference

open Sys2Proof Sys2Proof.Machine

/-! ### What a micro-step looks at -/

/-- The state after a micro-step taken at the reading `t`: a gate has written that reading, the environment is `v`, the events
`es` have happened. -/
def moveTo (m : Micro) (t : Nat) (v : Env) (es : List Event) (s : State) : State :=
  match m with
  | .gate ch => { s.setLastIssue ch t with now := t, env := v, trace := s.trace ++ es }
  | _ => { s with now := t, env := v, trace := s.trace ++ es }

section Reads

variable {s s' : State}

/-- A wait looks at the clock and the environment only. -/
theorem await_congr (hnow : s'.now = s.now) (henv : s'.env = s.env) (p : Nat → Bool) (e : Nat) :
    s.await p e = none ∧ s'.await p e = none ∨
      ∃ t v, s.await p e = some { s with now := t, env := v } ∧ s'.await p e = some { s' with now := t, env := v } := by
  have htick : s'.tick.now = s.tick.now := by simp only [State.tick, hnow, henv]
  have hreach : s'.env.reaches s'.now e = s.env.reaches s.now e := by rw [hnow, henv]
  unfold State.await
  rw [hreach, htick]
  split
  · exact .inr ⟨_, _, rfl, by simp only [State.tick, hnow, henv]⟩
  · split
    · exact .inr ⟨_, _, rfl, by simp only [State.tick, hnow, henv]⟩
    · exact .inl ⟨rfl, rfl⟩

/-- A micro-step looks at the clock, the environment and, as a gate, its channel's stamp; whatever the rest of the state holds,
it is enabled in the same case and does the same (R8, R72). -/
theorem microStep_congr (hnow : s'.now = s.now) (henv : s'.env = s.env) {m : Micro}
    (hstamp : ∀ ch, m = .gate ch → s'.lastIssue ch = s.lastIssue ch) (b : Busy) :
    microStep m b s = none ∧ microStep m b s' = none ∨
      ∃ b' t v es, microStep m b s = some (b', moveTo m t v es s) ∧ microStep m b s' = some (b', moveTo m t v es s') := by
  cases m with
  | gate ch =>
    have hlast := hstamp ch rfl
    have hpass : ∀ (u : State) (t : Nat) (v : Env),
        (State.setLastIssue { u with now := t, env := v } ch t).emit (.issue t ch) =
          moveTo (.gate ch) t v [.issue t ch] u := fun u t v => by cases ch <;> rfl
    obtain ⟨h, h'⟩ | ⟨t, v, h, h'⟩ := await_congr hnow henv
      (fun t => gateOpen t (s.lastIssue ch) (cfg.minInterval ch)) (s.lastIssue ch + cfg.minInterval ch)
    · exact .inl ⟨by simp only [microStep, gateStep, h, Option.map_none],
        by simp only [microStep, gateStep, hlast, h', Option.map_none]⟩
    · exact .inr ⟨b, t, v, [.issue t ch], by simp only [microStep, gateStep, h, Option.map_some, hpass s t v],
        by simp only [microStep, gateStep, hlast, h', Option.map_some, hpass s' t v]⟩
  | tx v =>
    by_cases hbus : s.env.busLeft = some 0
    · exact .inl ⟨by simp [microStep, txStep, State.busReturns, hbus],
        by simp [microStep, txStep, State.busReturns, henv, hbus]⟩
    · refine .inr ⟨b, ?_⟩
      simp only [microStep, txStep, State.busReturns, henv, hbus, if_false, Option.map_some, State.tick, hnow]
      exact ⟨_, _, _, rfl, rfl⟩
  | rx n =>
    by_cases hbus : s.env.busLeft = some 0
    · exact .inl ⟨by simp [microStep, rxStep, State.busReturns, hbus],
        by simp [microStep, rxStep, State.busReturns, henv, hbus]⟩
    · simp only [microStep, rxStep, State.busReturns, henv, hbus, if_false, Option.map_some, State.tick, hnow]
      exact .inr ⟨_, _, _, _, rfl, rfl⟩
  | reachDelay =>
    exact .inr ⟨{ b with t0 := s.tick.now }, s.tick.now, s.tick.env, [], by simp [microStep, moveTo, State.tick],
      by simp [microStep, moveTo, State.tick, hnow, henv]⟩
  | leaveDelay d =>
    obtain ⟨h, h'⟩ | ⟨t, v, h, h'⟩ := await_congr hnow henv (fun t => delayOver t b.t0 d) (b.t0 + d)
    · exact .inl ⟨by simp [microStep, leaveStep, h], by simp [microStep, leaveStep, h']⟩
    · exact .inr ⟨b, t, v, [], by simp [microStep, leaveStep, h, moveTo], by simp [microStep, leaveStep, h', moveTo]⟩

end Reads

/-! ### A refusal looks at the sequencer only -/

/-- Where this refuses, it refuses in every state with the same sequencer, by the same name. -/
def RefusesBySeq (f : State → Host.Outcome State Fault Refusal) : Prop :=
  ∀ (s s' : State) (r : Refusal), s'.seq = s.seq → f s = .refused r → f s' = .refused r

theorem refusesBySeq_transact (i : Instr) (ms : List Micro) : RefusesBySeq (transact i ms) := by
  intro s s' r hseq h
  cases hs : s.seq with
  | idle => simp [transact, hs] at h
  | busy b => by_cases ha : b.awaits i <;> simp_all [transact]

theorem refusesBySeq_sendRead (i : Instr) (op : Byte) : RefusesBySeq (sendRead i op) := by
  intro s s' r hseq h
  unfold sendRead at h ⊢
  split at h
  · exact h
  · exact refusesBySeq_transact _ _ s s' r hseq h

theorem refusesBySeq_sendWrite (i : Instr) (op : Byte) (p : List Byte) : RefusesBySeq (sendWrite i op p) :=
  refusesBySeq_transact _ _

theorem refusesBySeq_speedFrame (i : Instr) (op : Byte) (c : Int) : RefusesBySeq (speedFrame i op c) := by
  intro s s' r hseq h
  have hsend := refusesBySeq_sendWrite i op (encLe16s c) s s' r hseq
  cases hs : s.seq with
  | idle => simp_all [speedFrame]
  | busy b =>
    cases ha : b.awaits i with
    | false => simp_all [speedFrame]
    | true => cases hc : speedInRange c <;> simp_all [speedFrame]

theorem refusesBySeq_givenBrake (p : List Byte) : RefusesBySeq (givenBrake p) := by
  intro s s' r hseq h
  have hsend := refusesBySeq_sendWrite (.wrBrake (some p)) cfg.opBrake p s s' r hseq
  by_cases hs : s.seq = .idle
  · by_cases hp : p.length = (Config.brakePayload .caller).length <;> simp_all [givenBrake]
  · simp_all [givenBrake]

theorem refusesBySeq_execWrBrake (given : Option (List Byte)) : RefusesBySeq (execWrBrake given) := by
  cases given with
  | none =>
    intro s s' r hseq h
    simp only [execWrBrake, hseq] at h ⊢
    exact refusesBySeq_sendWrite _ _ _ s s' r hseq h
  | some p => exact refusesBySeq_givenBrake p

/-- A read sends its opcode (R101). -/
theorem exec_of_readOpcode {i : Instr} {op : Byte} (h : readOpcode i = some op) : exec i = sendRead i op := by
  cases i <;> cases h <;> rfl

theorem refusesBySeq_read {i : Instr} {op : Byte} (h : readOpcode i = some op) : RefusesBySeq (exec i) :=
  exec_of_readOpcode h ▸ refusesBySeq_sendRead i op

/-- Every refusal of an instruction (R156, R186, R187). -/
theorem refusesBySeq_exec (i : Instr) : RefusesBySeq (exec i) := by
  cases i
  case rdTest | rdIr1 | rdIr2 | rdIr3 | rdIr4 | rdIr5 | rdIr6 | rdBat | rdSound | rdLight | rdTouch | rdColor | rdEnc1 |
      rdEnc2 | rdUltra | rdPkey =>
    exact refusesBySeq_read rfl
  case wrLed1 | wrLed2 | wrLed3 | wrLed4 | wrColorCal | wrFill | wrEncRst => exact refusesBySeq_sendWrite _ _ _
  case wrMotor1 | wrMotor2 => exact refusesBySeq_speedFrame _ _ _
  case wrBrake => exact refusesBySeq_execWrBrake _
  case disp => exact refusesBySeq_transact _ _

/-! ### Two states in lockstep -/

/-- States related by `R` agree on all that running micro-steps out of `may` looks at, and what running them does keeps `R`. -/
structure Lockstep (R : State → State → Prop) (may : Micro → Prop) : Prop where
  seq {s s' : State} : R s s' → s'.seq = s.seq
  now {s s' : State} : R s s' → s'.now = s.now
  env {s s' : State} : R s s' → s'.env = s.env
  stamp {s s' : State} {ch : Channel} : may (.gate ch) → R s s' → s'.lastIssue ch = s.lastIssue ch
  move {s s' : State} {m : Micro} : may m → R s s' → ∀ t v es, R (moveTo m t v es s) (moveTo m t v es s')
  setSeq {s s' : State} : R s s' → ∀ q, R { s with seq := q } { s' with seq := q }
  clearAnswer {s s' : State} : R s s' → R { s with answer := none } { s' with answer := none }
  finish {s s' : State} : R s s' → ∀ b, R (finish b s) (finish b s')

/-- Both outcomes are next states related by `R`, or both are the same refusal. -/
inductive Alike (R : State → State → Prop) :
    Host.Outcome State Fault Refusal → Host.Outcome State Fault Refusal → Prop where
  | next {t t' : State} : R t t' → Alike R (.next t) (.next t')
  | refused (r : Refusal) : Alike R (.refused r) (.refused r)

section

variable {R : State → State → Prop} {may : Micro → Prop} {s s' : State} {i : Instr}

theorem Lockstep.settle (L : Lockstep R may) (h : R s s') (b : Busy) : R (settle b s) (settle b s') := by
  unfold Machine.settle
  split
  · exact L.finish h _
  · exact L.setSeq h _

/-- A micro-step is enabled in both or in neither, and keeps them in lockstep. -/
theorem Lockstep.microStep (L : Lockstep R may) {m : Micro} (hm : may m) (h : R s s') (b : Busy) :
    microStep m b s = none ∧ microStep m b s' = none ∨
      ∃ b' u u', microStep m b s = some (b', u) ∧ microStep m b s' = some (b', u') ∧ R u u' := by
  have hstamp : ∀ ch, m = .gate ch → s'.lastIssue ch = s.lastIssue ch := fun ch hch => L.stamp (hch ▸ hm) h
  obtain hnone | ⟨b', t, v, es, hs, hs'⟩ := microStep_congr (L.now h) (L.env h) hstamp b
  · exact .inl hnone
  · exact .inr ⟨b', _, _, hs, hs', L.move hm h t v es⟩

theorem Lockstep.runMicros (L : Lockstep R may) {ms : List Micro} (hms : ∀ m ∈ ms, may m) (h : R s s') (b : Busy) :
    R (runMicros ms b s) (runMicros ms b s') := by
  induction ms generalizing b s s' with
  | nil => exact L.settle h b
  | cons m ms ih =>
    obtain ⟨hs, hs'⟩ | ⟨b', u, u', hs, hs', hu⟩ := L.microStep (hms m List.mem_cons_self) h b
    · simp only [Machine.runMicros, hs, hs']
      exact L.setSeq h _
    · simp only [Machine.runMicros, hs, hs']
      exact ih (fun k hk => hms k (List.mem_cons_of_mem m hk)) hu b'

/-- An instruction is performed in both or refused in both, and keeps them in lockstep. -/
theorem Lockstep.exec (L : Lockstep R may) (hms : ∀ ctx, ∀ m ∈ frameMicros ctx i, may m) (h : R s s') :
    Alike R (exec i s) (exec i s') := by
  have hseq := L.seq h
  have hacc : s'.accepts i = s.accepts i := by unfold State.accepts; rw [hseq]
  have hiss : s'.issues i = s.issues i := by unfold State.issues State.awaits; rw [hseq]
  by_cases ha : s.accepts i = true
  · obtain ⟨-, he⟩ := exec_of_accepts ha
    obtain ⟨-, he'⟩ := exec_of_accepts (hacc.trans ha)
    rw [he, he']
    exact .next (L.runMicros (hms _) (L.clearAnswer h) _)
  by_cases hi : s.issues i = true
  · obtain ⟨b, hs, -, he⟩ := exec_of_issues hi
    obtain ⟨b', hs', -, he'⟩ := exec_of_issues (hiss.trans hi)
    obtain rfl : b = b' := by rw [hseq, hs] at hs'; cases hs'; rfl
    rw [he, he', hseq]
    exact .next (L.runMicros (hms _) h _)
  · obtain ⟨r, he, -⟩ := exec_refused (Bool.eq_false_iff.mpr ha) (Bool.eq_false_iff.mpr hi)
    rw [he, refusesBySeq_exec i s s' r hseq he]
    exact .refused r

end

/-! ### The other channel's stamp -/

/-- The two states differ at most in the stamp of `ch`, which is `x` in the second. -/
def StampSet (ch : Channel) (x : Nat) (s s' : State) : Prop := s' = s.setLastIssue ch x

/-- Micro-steps other than a gate of `ch` do not look at its stamp, and leave it (R74). -/
theorem lockstep_stampSet (ch : Channel) (x : Nat) : Lockstep (StampSet ch x) (· ≠ .gate ch) where
  seq := by rintro s _ rfl; simp
  now := by rintro s _ rfl; simp
  env := by rintro s _ rfl; simp
  stamp := by
    rintro s _ c hc rfl
    exact lastIssue_setLastIssue_other s ch x c fun h => hc (h ▸ rfl)
  move := by
    rintro s _ m hm rfl t v es
    cases m with
    | gate c =>
      have hne : c ≠ ch := fun h => hm (h ▸ rfl)
      match c, ch, hne with
      | .gen, .disp, _ => rfl
      | .disp, .gen, _ => rfl
    | _ => cases ch <;> rfl
  setSeq := by rintro s _ rfl q; cases ch <;> rfl
  clearAnswer := by rintro s _ rfl; cases ch <;> rfl
  finish := by rintro s _ rfl b; cases ch <;> rfl

/-- The only gate of a frame is that of its own channel (R71). -/
theorem ne_gate_of_mem_frame {ctx : BrakeContext} {i : Instr} {ch : Channel} (hch : ch ≠ channelOf i) {m : Micro}
    (hm : m ∈ frameMicros ctx i) : m ≠ .gate ch := by
  rintro rfl
  rw [frameMicros_eq_rest] at hm
  simp [restOfFrame, hch] at hm

theorem Alike.eq_mapNext_setLastIssue {ch : Channel} {x : Nat} {o o' : Host.Outcome State Fault Refusal}
    (h : Alike (StampSet ch x) o o') : o' = mapNext (fun t => t.setLastIssue ch x) o := by
  cases h with
  | next h => exact congrArg Host.Outcome.next h
  | refused r => rfl

/-- Settles O21: a frame has no gate of the other channel, so it runs in lockstep whatever that channel's stamp is. -/
theorem channelsAreIndependent : Obligations.ChannelsAreIndependent := by
  intro i s ch x hch
  have hrun := (lockstep_stampSet ch x).exec (i := i) (s := s) (fun _ _ => ne_gate_of_mem_frame hch) rfl
  exact hrun.eq_mapNext_setLastIssue

/-! ### The ghosts and the trace -/

/-- The two states differ at most in the ghosts and the trace. -/
def SameButGhosts (s s' : State) : Prop := forgetGhosts s' = forgetGhosts s

/-- What does not look at the ghosts and the trace is the same of both. -/
theorem SameButGhosts.agree {α : Type} {s s' : State} (h : SameButGhosts s s') {f : State → α}
    (hf : ∀ u, f u = f (forgetGhosts u)) : f s' = f s := by
  have h : forgetGhosts s' = forgetGhosts s := h
  rw [hf s', hf s, h]

/-- What can be done without looking at the ghosts and the trace keeps the rest the same. -/
theorem SameButGhosts.map {s s' : State} (h : SameButGhosts s s') {f : State → State}
    (hf : ∀ u, forgetGhosts (f u) = forgetGhosts (f (forgetGhosts u))) : SameButGhosts (f s) (f s') :=
  h.agree hf

/-- No micro-step looks at the ghosts or the trace (R20, R21). -/
theorem lockstep_ghosts : Lockstep SameButGhosts fun _ => True where
  seq h := h.agree fun _ => rfl
  now h := h.agree fun _ => rfl
  env h := h.agree fun _ => rfl
  stamp {_ _ ch} _ h := h.agree (f := (State.lastIssue · ch)) fun _ => by cases ch <;> rfl
  move {_ _ m} _ h t v es := h.map (f := moveTo m t v es) fun u => by
    cases m with
    | gate ch => cases ch <;> rfl
    | _ => rfl
  setSeq h q := h.map (f := fun u => { u with seq := q }) fun _ => rfl
  clearAnswer h := h.map (f := fun u => { u with answer := none }) fun _ => rfl
  finish h b := h.map (f := finish b) fun _ => rfl

section

variable {s s' : State}

theorem SameButGhosts.exec (h : SameButGhosts s s') (i : Instr) : Alike SameButGhosts (exec i s) (exec i s') :=
  lockstep_ghosts.exec (fun _ _ _ => trivial) h

theorem SameButGhosts.runMicros (h : SameButGhosts s s') (ms : List Micro) (b : Busy) :
    SameButGhosts (runMicros ms b s) (runMicros ms b s') :=
  lockstep_ghosts.runMicros (fun _ _ => trivial) h b

theorem SameButGhosts.settle (h : SameButGhosts s s') (b : Busy) : SameButGhosts (settle b s) (settle b s') :=
  lockstep_ghosts.settle h b

theorem SameButGhosts.tick (h : SameButGhosts s s') : SameButGhosts s.tick s'.tick :=
  h.map (f := State.tick) fun _ => rfl

theorem SameButGhosts.beginOp (h : SameButGhosts s s') (op : Operation) (todo : List Task) :
    SameButGhosts (beginOp op todo s) (beginOp op todo s') :=
  h.map (f := Machine.beginOp op todo) fun _ => rfl

theorem SameButGhosts.setLastSpeed (h : SameButGhosts s s') (m : Motor) (c : Int) :
    SameButGhosts (s.setLastSpeed m c) (s'.setLastSpeed m c) :=
  h.map (f := (State.setLastSpeed · m c)) fun _ => by cases m <;> rfl

theorem SameButGhosts.accept (h : SameButGhosts s s') (r : Request) :
    Alike SameButGhosts (accept r s) (accept r s') := by
  unfold Machine.accept
  split
  · exact .refused _
  · exact h.exec _
  · exact (h.beginOp _ _).exec _
  · rename_i m v c _
    have hspeed : s'.lastSpeed m = s.lastSpeed m :=
      h.agree (f := (State.lastSpeed · m)) fun _ => by cases m <;> rfl
    rw [hspeed]
    exact .next (h.beginOp _ _)
  · exact .next (h.beginOp _ _)

theorem SameButGhosts.advance (h : SameButGhosts s s') (b : Busy) :
    Alike SameButGhosts (advance b s) (advance b s') := by
  unfold Machine.advance
  split
  · rename_i m ms _
    obtain ⟨hs, hs'⟩ | ⟨b', u, u', hs, hs', hu⟩ := lockstep_ghosts.microStep (m := m) trivial h b
    · simp only [hs, hs']
      exact .next h.tick
    · simp only [hs, hs']
      exact .next (hu.runMicros ms b')
  · split
    · exact .next (lockstep_ghosts.finish h b)
    · exact h.exec _
    · exact .next (h.runMicros _ _)
    · exact .next ((h.tick.setLastSpeed _ _).settle _)
    · exact .next (h.tick.settle _)
    · exact .next (SameButGhosts.settle (h.tick.map (f := fun u => { u with ready := true }) fun _ => rfl) _)

theorem SameButGhosts.step (h : SameButGhosts s s') : Alike SameButGhosts (step s) (step s') := by
  have hport : s'.port = s.port := h.agree fun _ => rfl
  have hseq : s'.seq = s.seq := lockstep_ghosts.seq h
  unfold Machine.step
  rw [hport, hseq]
  split
  · exact .refused _
  · exact SameButGhosts.accept (h.map (f := State.withdraw) fun _ => rfl) _
  · exact h.advance _
  · exact .next h.tick

end

theorem Alike.mapNext_forgetGhosts {o o' : Host.Outcome State Fault Refusal} (h : Alike SameButGhosts o o') :
    mapNext forgetGhosts o' = mapNext forgetGhosts o := by
  cases h with
  | next h => exact congrArg Host.Outcome.next h
  | refused r => rfl

/-- Settles O20: a step runs in lockstep whatever the ghosts and the trace hold. -/
theorem ghostsAreNeverRead : Obligations.GhostsAreNeverRead := by
  intro s r tr u
  have hsame : SameButGhosts s { s with ready := r, trace := tr, settleUntil := u } := rfl
  exact hsame.step.mapNext_forgetGhosts

end Sys2Proof.Proofs.Noninterference
end

section
/-! ## Proofs: the frame a step runs -/

namespace Sys2Proof.Proofs.Frames

open Sys2Proof Sys2Proof.Machine

/-- A frame presented to an idle block is decoded and performed, its request withdrawn (R85). -/
theorem accept_frame {bytes : List Byte} {i : Instr} (h : decode bytes = .ok i) (s : State) :
    accept (.frame bytes) s = exec i s := by
  simp only [accept, Request.operation, h]

/-- A busy block that has come to a frame performs it (R61). -/
theorem advance_frame {b : Busy} {i : Instr} {rest : List Task} (hm : b.micros = []) (ht : b.todo = .frame i :: rest)
    (s : State) : advance b s = exec i s := by
  simp only [advance, hm, ht]

/-- Settles O7: by the two ways a step comes to a frame, from the port and from the operation in progress. -/
theorem stepRunsTheFrame : Obligations.StepRunsTheFrame := by
  refine ⟨fun s bytes i hp hs hd _ => ?_, fun s b i rest hp hs hm ht => ?_⟩
  · rw [step_request hp hs, accept_frame hd]; rfl
  · rw [step_busy hp hs, advance_frame hm ht]

end Sys2Proof.Proofs.Frames
end

section
/-! ## Proofs: how a frame gets stuck, and how it goes on -/

namespace Sys2Proof.Proofs.StuckFrames

open Sys2Proof Sys2Proof.Machine

/-! ### A frame on a stalled bus -/

section Stall

variable {s : State}

/-- A running clock lets every gate pass; nothing but the gate has happened by then, and the bus has not been used (R72, R77). -/
theorem gate_running (h : s.env.clockStops = none) (ch : Channel) (b : Busy) :
    ∃ u, microStep (.gate ch) b s = some (b, u) ∧ u.env.busLeft = s.env.busLeft ∧ Moved s u ∧
      s.lastIssue ch + cfg.minInterval ch ≤ u.lastIssue ch ∧
      ∃ es, u.trace = s.trace ++ es ∧ acts es = [.issue ch] := by
  obtain ⟨v, hv, -⟩ := await_running (p := fun t => gateOpen t (s.lastIssue ch) (cfg.minInterval ch))
    (e := s.lastIssue ch + cfg.minInterval ch) h
  obtain ⟨u, hu⟩ : ∃ u, gateStep ch s = some u := ⟨_, by rw [gateStep, hv]; rfl⟩
  have hstep : microStep (.gate ch) b s = some (b, u) := by rw [microStep, hu]; rfl
  have hran : Ran (restOfFrame (some ch) [] none) b s b u := .step hstep (.done b u)
  obtain ⟨htrace, -, hgap, -⟩ := hran.rest
  obtain ⟨-, -, -, hbus, -⟩ := gateStep_some hu
  exact ⟨u, hstep, hbus, hran.moved.1, hgap ch rfl, htrace⟩

/-- The acts of a frame are those of the rest that begins with its gate (R91). -/
theorem frameActs_eq_restActs (ctx : BrakeContext) (i : Instr) (reply : Nat → List Byte) :
    frameActs ctx i reply = restActs (some (channelOf i)) (wire ctx i) (replyWidth i) reply := by
  unfold frameActs restActs
  cases replyWidth i <;> rfl

/-- The gate, the bytes, and one act more if a reply is read. -/
theorem length_restActs_gate (ch : Channel) (vs : List Byte) (n : Option Nat) (reply : Nat → List Byte) :
    (restActs (some ch) vs n reply).length = vs.length + n.toList.length + 1 := by
  simp [restActs]

/-- The acts before the last one are the gate and bytes. -/
theorem take_restActs_gate {k : Nat} {vs : List Byte} {n : Option Nat} (h : k < vs.length + n.toList.length)
    (ch : Channel) (reply : Nat → List Byte) :
    (restActs (some ch) vs n reply).take (k + 1) = .issue ch :: (vs.take k).map .tx := by
  have hk : k ≤ vs.length := by cases n <;> simp at h <;> omega
  simp [restActs, List.take_append_of_le_length, hk, List.map_take]

/-- With a bus primitive next and a stalled bus, the block is stuck (R41, R182). -/
theorem stuck_of_busLeft (h : s.env.busLeft = some 0) {vs : List Byte} {n : Option Nat} {b : Busy}
    (hs : s.seq = .busy b) (hm : b.micros = restOfFrame none vs n) (hleft : b.micros ≠ []) : s.stuck = true := by
  have hbus : s.busReturns = none := by rw [State.busReturns, if_pos h]
  cases vs with
  | cons v vs => simp [State.stuck, hs, hm, restOfFrame, microStep, txStep, hbus]
  | nil =>
    cases n with
    | some n => simp [State.stuck, hs, hm, restOfFrame, microStep, rxStep, hbus]
    | none => exact absurd hm hleft

/-- What is left of a frame after fewer bytes and replies than it has. -/
theorem restOfFrame_drop_ne_nil {k : Nat} {vs : List Byte} {n : Option Nat} (h : k < vs.length + n.toList.length) :
    restOfFrame none (vs.drop k) n ≠ [] := by
  cases n with
  | some n => simp [restOfFrame]
  | none => simpa [restOfFrame] using h

/-- A frame on a bus that stalls after `k` more primitives: the gate passes, `k` bytes are sent, and the block stands before
the rest (R41). -/
theorem frame_stalled {ctx : BrakeContext} {i : Instr} {k : Nat} (hclock : s.env.clockStops = none)
    (hbus : s.env.busLeft = some k) (hk : k + 1 < (frameActs ctx i s.incoming).length) (b : Busy) :
    ∃ t, runMicros (frameMicros ctx i) b s = t ∧ t.stuck = true ∧
      t.seq = .busy { b with micros := restOfFrame none ((wire ctx i).drop k) (replyWidth i) } ∧
      t.answer = s.answer ∧ acts (s.since t) = (frameActs ctx i s.incoming).take (k + 1) ∧
      s.lastIssue (channelOf i) + cfg.minInterval (channelOf i) ≤ t.lastIssue (channelOf i) ∧
      t.lastSpeedM1 = s.lastSpeedM1 ∧ t.lastSpeedM2 = s.lastSpeedM2 := by
  rw [frameActs_eq_restActs] at hk ⊢
  rw [length_restActs_gate, Nat.add_lt_add_iff_right] at hk
  obtain ⟨v, hgate, hbus', hmoved, hgap, es, htrace, hacts⟩ := gate_running hclock (channelOf i) b
  obtain ⟨u, hrun, hleft, hmoved', hstamp, fs, htrace', hacts'⟩ := runMicros_stalled (b := b) (hbus'.trans hbus) hk
  have hframe : runMicros (frameMicros ctx i) b s = runMicros (restOfFrame none (wire ctx i) (replyWidth i)) b v := by
    rw [frameMicros_eq_rest]
    show runMicros (.gate (channelOf i) :: restOfFrame none (wire ctx i) (replyWidth i)) b s = _
    rw [runMicros, hgate]
  have hall := hmoved.trans hmoved'
  have hwire : acts (s.since u) = (restActs (some (channelOf i)) (wire ctx i) (replyWidth i) s.incoming).take (k + 1) := by
    rw [since_eq (htrace'.trans (by rw [htrace, List.append_assoc])), acts_append, hacts, hacts', take_restActs_gate hk,
      List.singleton_append]
  exact ⟨_, hframe.trans hrun, stuck_of_busLeft hleft rfl rfl (restOfFrame_drop_ne_nil hk), rfl, hall.answer, hwire,
    (hstamp _).symm ▸ hgap, hall.speedM1, hall.speedM2⟩

end Stall

/-- The step an operation has come to stands first of what is left of it. -/
theorem todo_of_awaits {b : Busy} {i : Instr} (h : b.awaits i = true) : b.todo = .frame i :: b.todo.tail := by
  simp only [Busy.awaits, Bool.and_eq_true, decide_eq_true_eq] at h
  exact (List.cons_head?_tail h.2).symm

/-- An instruction that is accepted or issued is performed. -/
theorem exec_answers {i : Instr} {s : State} (h : s.accepts i = true ∨ s.issues i = true) : ∃ t, exec i s = .next t := by
  rcases h with ha | hi
  · exact ⟨_, (exec_of_accepts ha).2⟩
  · obtain ⟨b, -, -, he⟩ := exec_of_issues hi
    exact ⟨_, he⟩

/-- Settles O26: the frame's micro-steps run from the start of an operation or from the operation in progress, and on a bus
that stalls they stop where `frame_stalled` says. -/
theorem stalledBusLeavesFrameStuck : Obligations.StalledBusLeavesFrameStuck := by
  intro i s k hmay hclock hbus hk
  obtain ⟨t, ht⟩ := exec_answers hmay
  obtain ⟨b, s₀, hrun, hs₀, hfrom⟩ := exec_next_cases ht
  obtain ⟨a, rfl⟩ : ∃ a, s₀ = { s with answer := a } := ⟨_, hs₀⟩
  obtain ⟨_, rfl, hstuck, hseq, hanswer, hacts, hgap, hspeeds⟩ :=
    frame_stalled (s := { s with answer := a }) hclock hbus hk b
  rw [← hrun] at hstuck hseq hanswer hacts hgap hspeeds
  refine ⟨t, _, ht, hstuck, hseq, rfl, fun hidle => ?_, fun b₀ hbusy => ?_, hacts, hgap, hspeeds⟩
  · obtain ⟨-, rfl, hnone⟩ | ⟨b₁, hbusy, -⟩ := hfrom
    · exact ⟨rfl, rfl, hanswer.trans hnone⟩
    · rw [hidle] at hbusy; cases hbusy
  · obtain ⟨hidle, -⟩ | ⟨b₁, hbusy', hawaits, rfl, hsame⟩ := hfrom
    · rw [hbusy] at hidle; cases hidle
    · obtain rfl : b₁ = b₀ := Seq.busy.inj (hbusy'.symm.trans hbusy)
      exact ⟨rfl, todo_of_awaits hawaits, hanswer.trans (congrArg State.answer hsame)⟩

/-! ### Going on -/

/-- Once the environment moves, a step takes up what is left of a frame or delay and does all of it (R41, R207). -/
theorem advance_live {b : Busy} {s : State} (hleft : b.micros ≠ []) (h : s.live) :
    advance b s = .next (runMicros b.micros b s) := by
  obtain ⟨m, ms, hms⟩ := List.exists_cons_of_ne_nil hleft
  obtain ⟨⟨b', u⟩, hstep, -⟩ := microStep_live m b h
  simp only [advance, runMicros, hms, hstep]

/-- An operation with nothing left returns (R90). -/
theorem settle_of_todo_nil {b : Busy} (h : b.todo = []) (s : State) : settle b s = finish { b with micros := [] } s := by
  simp only [settle, h]

/-- An operation with something left has come to its next step. -/
theorem settle_of_todo_cons {b : Busy} {k : Task} {rest : List Task} (h : b.todo = k :: rest) (s : State) :
    settle b s = { s with seq := .busy { b with micros := [] } } := by
  simp only [settle, h]

/-- Settles O27: the micro-steps left are all taken, `Ran.rest` says what they do, and then the operation returns or has come
to its next step. -/
theorem stuckFrameGoesOn : Obligations.StuckFrameGoesOn := by
  intro s b g vs n hport hseq hrest hleft hlive
  obtain ⟨b', u, hran, -, hrun⟩ := runMicros_live b.micros b hlive
  obtain ⟨hmoved, hop, htodo, -⟩ := hran.moved
  rw [hrest] at hran
  obtain ⟨⟨es, htrace, hacts⟩, hother, hgap, hreceived⟩ := hran.rest
  refine ⟨settle b' u, by rw [step_busy hport hseq, advance_live hleft hlive, hrun], ?_, fun ch hch => ?_,
    fun ch hch => ?_, fun hnil => ?_, fun k rest hcons => ?_, ?_, ?_⟩
  · rw [since_eq ((Effects.settle_trace b' u).trans htrace), hacts]
  · rw [Effects.lastIssue_settle]; exact hother ch hch
  · rw [Effects.lastIssue_settle]; exact hgap ch hch
  · rw [settle_of_todo_nil (htodo.trans hnil)]
    exact ⟨rfl, by rw [finish_answer, hop, hreceived]⟩
  · rw [settle_of_todo_cons (htodo.trans hcons)]
    exact ⟨_, rfl, hop, rfl, htodo.trans hcons, hreceived⟩
  · exact (Effects.lastSpeed_settle b' u .m1).trans hmoved.speedM1
  · exact (Effects.lastSpeed_settle b' u .m2).trans hmoved.speedM2

end Sys2Proof.Proofs.StuckFrames
end

section
/-! ## Proofs: the wire encoding and the requests that stand for frames -/

namespace Sys2Proof.Proofs.Encoding

open Sys2Proof Sys2Proof.Machine

/-! ### The rows of the write table -/

/-- What the decoder, the table of payload lengths and the encoder say of a write opcode: they agree on its payload's shape,
or it is the brake register, whose payload is open, or no opcode at all (R57, R58, R130). -/
inductive WriteRow (op : Byte) : Prop
  | bgr (f : Byte → Byte → Byte → Instr) (hdecode : decodeWrite op = bgrPayload f)
      (hwidth : ∀ n, payloadWidth n op = some 3) (hencode : ∀ r g b, encode (f r g b) = writeFrame op [b, g, r])
  | speed (f : Int → Instr) (hdecode : decodeWrite op = speedPayload f) (hwidth : ∀ n, payloadWidth n op = some 2)
      (hencode : ∀ c, encode (f c) = writeFrame op (encLe16s c))
  | brake (hop : op = 0x06#8)
  | one (f : Byte → Instr) (hdecode : decodeWrite op = oneByte f) (hwidth : ∀ n, payloadWidth n op = some 1)
      (hencode : ∀ t, encode (f t) = writeFrame op [t])
  | reserved (hop : 0x0A ≤ op.toNat)

/-- The write opcodes are ten, the rest is reserved (R57, R58). -/
theorem writeOp_cases : ∀ op : Byte,
    op ∈ [0x00#8, 0x01#8, 0x02#8, 0x03#8, 0x04#8, 0x05#8, 0x06#8, 0x07#8, 0x08#8, 0x09#8] ∨ 0x0A ≤ op.toNat := by
  decide

/-- Every opcode has its row. -/
theorem writeRow (op : Byte) : WriteRow op := by
  rcases writeOp_cases op with hop | hop
  · simp only [List.mem_cons, List.not_mem_nil, or_false] at hop
    rcases hop with rfl | rfl | rfl | rfl | rfl | rfl | rfl | rfl | rfl | rfl
    · exact .bgr .wrLed1 rfl (fun _ => rfl) (fun _ _ _ => rfl)
    · exact .bgr .wrLed2 rfl (fun _ => rfl) (fun _ _ _ => rfl)
    · exact .bgr .wrLed3 rfl (fun _ => rfl) (fun _ _ _ => rfl)
    · exact .bgr .wrLed4 rfl (fun _ => rfl) (fun _ _ _ => rfl)
    · exact .speed .wrMotor1 rfl (fun _ => rfl) (fun _ => rfl)
    · exact .speed .wrMotor2 rfl (fun _ => rfl) (fun _ => rfl)
    · exact .brake rfl
    · exact .one .wrColorCal rfl (fun _ => rfl) (fun _ => rfl)
    · exact .one .wrFill rfl (fun _ => rfl) (fun _ => rfl)
    · exact .one .wrEncRst rfl (fun _ => rfl) (fun _ => rfl)
  · exact .reserved hop

/-- A reserved write opcode is rejected by its name (R58 (b)). -/
theorem decodeWrite_reserved {op : Byte} (h : 0x0A ≤ op.toNat) (p : List Byte) :
    decodeWrite op p = .error .unknownWriteOpcode := by
  have hne : ∀ c : Byte, c.toNat < 0x0A → op ≠ c := by
    rintro c hc rfl
    omega
  simp (disch := decide) only [decodeWrite, hne, if_false]

/-! ### Payloads: what each shape accepts, and the name of the rest -/

section Payloads

variable {p : List Byte} {i : Instr}

theorem oneByte_ok {f : Byte → Instr} (h : oneByte f p = .ok i) : ∃ t, p = [t] ∧ f t = i := by
  unfold oneByte at h
  split at h
  · cases h; exact ⟨_, rfl, rfl⟩
  · cases h

theorem speedPayload_ok {f : Int → Instr} (h : speedPayload f p = .ok i) : ∃ c, p = encLe16s c ∧ f c = i := by
  unfold speedPayload at h
  split at h
  · cases h; exact ⟨_, (encLe16s_leS _ _).symm, rfl⟩
  · cases h

theorem bgrPayload_ok {f : Byte → Byte → Byte → Instr} (h : bgrPayload f p = .ok i) :
    ∃ r g b, p = [b, g, r] ∧ f r g b = i := by
  unfold bgrPayload at h
  split at h
  · cases h; exact ⟨_, _, _, rfl, rfl⟩
  · cases h

theorem brakePayloadBytes_ok (h : brakePayloadBytes p = .ok i) : encode i = writeFrame 0x06#8 p := by
  unfold brakePayloadBytes at h
  split_ifs at h with hempty hlen
  · cases h
    rw [List.isEmpty_iff.mp hempty]; rfl
  · cases h; rfl

theorem oneByte_badShape (f : Byte → Instr) (h : p.length ≠ 1) : oneByte f p = .error .badPayloadShape := by
  unfold oneByte
  split
  · exact absurd rfl h
  · rfl

theorem speedPayload_badShape (f : Int → Instr) (h : p.length ≠ 2) : speedPayload f p = .error .badPayloadShape := by
  unfold speedPayload
  split
  · exact absurd rfl h
  · rfl

theorem bgrPayload_badShape (f : Byte → Byte → Byte → Instr) (h : p.length ≠ 3) :
    bgrPayload f p = .error .badPayloadShape := by
  unfold bgrPayload
  split
  · exact absurd rfl h
  · rfl

/-- A speed in range is a 16-bit value, so its payload reads back as that speed (R135). -/
theorem speedPayload_encLe16s (f : Int → Instr) {c : Int} (h : speedInRange c = true) :
    speedPayload f (encLe16s c) = .ok (f c) := by
  simp only [speedInRange, Bool.and_eq_true, decide_eq_true_eq] at h
  have hround : leS (encLe16s c) = c := leS_encLe16s (by omega) (by omega)
  exact congrArg (fun v => Except.ok (f v)) hround

/-- A given payload of 1 to 18 bytes reads back as given (R50, log 15). -/
theorem brakePayloadBytes_of_fits (h : givenPayloadFits p = true) : brakePayloadBytes p = .ok (.wrBrake (some p)) := by
  simp only [givenPayloadFits, Bool.and_eq_true, Bool.not_eq_true', decide_eq_true_eq] at h
  obtain ⟨hne, hlen⟩ := h
  rw [brakePayloadBytes, hne, if_neg Bool.false_ne_true, if_pos hlen]

end Payloads

/-! ### The display frame's length byte -/

/-- A display frame carries at most 18 characters (R54). -/
theorem length_displayChars (text : List Byte) : (displayChars text).length = min text.length 18 := by
  rw [displayChars, cfg_displayMax, List.length_take, min_comm]

theorem length_displayChars_le (text : List Byte) : (displayChars text).length ≤ cfg.displayMax :=
  List.length_take_le ..

/-- The length byte is the number of characters sent (R54). -/
theorem toNat_displayLength (text : List Byte) :
    (BitVec.ofNat 8 (displayChars text).length).toNat = (displayChars text).length := by
  have hlt : (displayChars text).length < 2 ^ 8 := (length_displayChars_le text).trans_lt (by decide)
  rw [BitVec.toNat_ofNat, Nat.mod_eq_of_lt hlt]

/-- A text that fits a display frame is carried whole (R54). -/
theorem displayChars_of_fits {text : List Byte} (h : text.length ≤ 18) : displayChars text = text :=
  List.take_of_length_le h

/-- A length byte above 18 is rejected by its name (R58 (d)). -/
theorem decodeDisplay_badLength {l : Byte} (h : 18 < l.toNat) (chars : List Byte) :
    decodeDisplay l chars = .error .badDisplayLength :=
  if_neg (Nat.not_le.mpr h)

/-! ### Decode and encode -/

/-- A display frame reads back as the text it carries. -/
theorem decode_displayFrame (text : List Byte) : decode (displayFrame text) = .ok (.disp (displayChars text)) := by
  show decodeDisplay (BitVec.ofNat 8 (displayChars text).length) (displayChars text) = _
  rw [decodeDisplay, toNat_displayLength, if_pos (length_displayChars_le text), if_pos rfl]

/-- Settles O1: a payload of fixed bytes reads back by computation; a speed, a given brake payload and a text do so in the
ranges `Instr.wf` names. -/
theorem decodeAfterEncodeGivesInstruction : Obligations.DecodeAfterEncodeGivesInstruction := by
  intro i hwf
  cases i with
  | wrMotor1 c => exact speedPayload_encLe16s .wrMotor1 hwf
  | wrMotor2 c => exact speedPayload_encLe16s .wrMotor2 hwf
  | wrBrake given =>
    cases given with
    | none => rfl
    | some p => exact brakePayloadBytes_of_fits hwf
  | disp text =>
    have hlen : text.length ≤ 18 := of_decide_eq_true hwf
    exact (decode_displayFrame text).trans (by rw [displayChars_of_fits hlen])
  | _ => rfl

section Accepted

variable {x : Byte} {rest : List Byte} {i : Instr}

/-- What the decoder accepts after the read marker is the opcode of the read it gives (R52). -/
theorem encode_of_decodeRead (h : decodeRead x rest = .ok i) : encode i = 0x80#8 :: x :: rest := by
  unfold decodeRead at h
  split at h
  · cases h
  · next j hop =>
    split_ifs at h with hempty
    cases h
    rw [encode_of_readInstr hop, List.isEmpty_iff.mp hempty]

/-- What it accepts after the write marker is the opcode and payload of the write it gives (R53). -/
theorem encode_of_decodeWrite (h : decodeWrite x rest = .ok i) : encode i = 0x81#8 :: x :: rest := by
  cases writeRow x with
  | bgr f hdecode _ hencode =>
    rw [hdecode] at h
    obtain ⟨r, g, b, rfl, rfl⟩ := bgrPayload_ok h
    exact hencode r g b
  | speed f hdecode _ hencode =>
    rw [hdecode] at h
    obtain ⟨c, rfl, rfl⟩ := speedPayload_ok h
    exact hencode c
  | brake hop =>
    subst hop
    exact brakePayloadBytes_ok h
  | one f hdecode _ hencode =>
    rw [hdecode] at h
    obtain ⟨t, rfl, rfl⟩ := oneByte_ok h
    exact hencode t
  | reserved hop =>
    rw [decodeWrite_reserved hop] at h
    cases h

/-- What it accepts after the display marker is the length byte and characters of the text it gives (R54). -/
theorem encode_of_decodeDisplay (h : decodeDisplay x rest = .ok i) : encode i = 0x82#8 :: x :: rest := by
  unfold decodeDisplay at h
  split_ifs at h with hmax hlen
  cases h
  have hchars : displayChars rest = rest := displayChars_of_fits (hlen.trans_le hmax)
  show displayFrame rest = _
  rw [displayFrame, hchars, ← byte_eq_of_toNat hlen.symm, cfg_markDisplay]

end Accepted

/-- Settles O2: format by format, what the decoder accepts is what the encoder writes. -/
theorem encodeAfterDecodeGivesBytes : Obligations.EncodeAfterDecodeGivesBytes := by
  intro bs i h
  match bs with
  | [] => cases h
  | [_] => cases h
  | m :: x :: rest =>
    by_cases hread : m = 0x80#8
    · subst hread; exact encode_of_decodeRead h
    by_cases hwrite : m = 0x81#8
    · subst hwrite; exact encode_of_decodeWrite h
    by_cases hdisplay : m = 0x82#8
    · subst hdisplay; exact encode_of_decodeDisplay h
    rw [decode_unknown x rest hread hwrite hdisplay] at h
    cases h

/-! ### Reserved encodings -/

/-- A reserved read opcode is rejected by its name (R58 (a)). -/
theorem decodeRead_reserved {op : Byte} (h : 0x10 ≤ op.toNat) (rest : List Byte) :
    decodeRead op rest = .error .unknownReadOpcode := by
  have hnone : readInstr op = none := by
    rw [← Option.not_isSome_iff_eq_none, readInstr_isSome, decide_eq_true_eq]
    omega
  rw [decodeRead, hnone]

/-- A payload whose length is not that of its register is rejected by its name (R58 (e), R130). -/
theorem decodeWrite_badShape {op : Byte} {p : List Byte} {w : Nat} (hbrake : op ≠ 0x06#8)
    (hw : payloadWidth 0 op = some w) (hlen : p.length ≠ w) : decodeWrite op p = .error .badPayloadShape := by
  cases writeRow op with
  | bgr f hdecode hwidth _ =>
    cases hw.symm.trans (hwidth 0)
    rw [hdecode, bgrPayload_badShape f hlen]
  | speed f hdecode hwidth _ =>
    cases hw.symm.trans (hwidth 0)
    rw [hdecode, speedPayload_badShape f hlen]
  | brake hop => exact absurd hop hbrake
  | one f hdecode hwidth _ =>
    cases hw.symm.trans (hwidth 0)
    rw [hdecode, oneByte_badShape f hlen]
  | reserved hop =>
    have hsome := payloadWidth_isSome 0 op
    rw [hw, Option.isSome_some, eq_comm, decide_eq_true_eq] at hsome
    omega

/-- Settles O4: the decoder's own name for each of the five. -/
theorem reservedEncodingsRejected : Obligations.ReservedEncodingsRejected :=
  ⟨fun _ rest h => decodeRead_reserved h rest, fun _ rest h => decodeWrite_reserved h rest,
    fun _ x rest h0 h1 h2 => decode_unknown x rest h0 h1 h2, fun _ rest h => decodeDisplay_badLength h rest,
    fun _ _ _ hbrake hw hlen => decodeWrite_badShape hbrake hw hlen⟩

/-! ### Cutting frames off a stream -/

/-- A frame whose length the first two bytes give is cut off whatever follows it. -/
theorem cutFrame_append {n : Nat} {fr rest : List Byte} (h : frameLength n (fr ++ rest) = some fr.length) :
    cutFrame n (fr ++ rest) = some (fr, rest) := by
  have hle : fr.length ≤ (fr ++ rest).length := by rw [List.length_append]; exact Nat.le_add_right _ _
  simp only [cutFrame, h, if_pos hle, List.take_left, List.drop_left]

/-- A brake frame's length is that of its payload, which is the parameter's. -/
theorem frameLength_brake (p rest : List Byte) :
    frameLength p.length (writeFrame 0x06#8 p ++ rest) = some (writeFrame 0x06#8 p).length :=
  congrArg some (Nat.add_comm 2 p.length)

/-- The display marker's length byte gives the frame's length, if it is one (R54). -/
theorem frameLength_displayHeader (n : Nat) (l : Byte) (rest : List Byte) :
    frameLength n (0x82#8 :: l :: rest) = if l.toNat ≤ cfg.displayMax then some (2 + l.toNat) else none := rfl

/-- A display frame's length is that of its header and the characters its length byte counts. -/
theorem frameLength_display (n : Nat) (text rest : List Byte) :
    frameLength n (displayFrame text ++ rest) = some (displayFrame text).length := by
  rw [displayFrame, cfg_markDisplay, List.cons_append, List.cons_append, frameLength_displayHeader, toNat_displayLength,
    if_pos (length_displayChars_le text)]
  exact congrArg some (Nat.add_comm 2 _)

/-- Every frame the block transmits has the length its first two bytes give (R62). -/
theorem frameLength_wire {ctx : BrakeContext} {i : Instr} {n : Nat} (rest : List Byte)
    (h : ∀ g, i = .wrBrake g → n = (g.getD (Config.brakePayload ctx)).length) :
    frameLength n (wire ctx i ++ rest) = some (wire ctx i).length := by
  cases i with
  | wrBrake given =>
    cases h given rfl
    cases given with
    | none => exact frameLength_brake (Config.brakePayload ctx) rest
    | some p => exact frameLength_brake p rest
  | disp text => exact frameLength_display n text rest
  | _ => rfl

/-- Settles O5: the length read off the header is the frame's own. -/
theorem framesAreCutFromAStream : Obligations.FramesAreCutFromAStream :=
  fun _ _ _ rest h => cutFrame_append (frameLength_wire rest h)

/-! ### The opcode table -/

/-- Settles O3: each word's frame is decoded as R56 and R57 say, or rejected as R58 says. -/
theorem tableWordsDecode : Obligations.TableWordsDecode :=
  ⟨rfl, rfl, rfl, rfl, rfl, rfl, rfl, rfl, rfl, rfl, rfl⟩

/-! ### Named requests -/

/-- A byte's number is an operand in range, and stands for that byte. -/
theorem byteOf_toNat (b : Byte) : byteOf b.toNat = some b := by
  have hrange : (0 : Int) ≤ b.toNat ∧ (b.toNat : Int) ≤ 255 := by have := b.isLt; omega
  rw [byteOf, if_pos hrange, Int.toNat_natCast, BitVec.ofNat_toNat, BitVec.setWidth_eq]

/-- A text given by its bytes' numbers is that text. -/
theorem bytesOfInts_toNat (text : List Byte) : bytesOfInts (text.map fun b => (b.toNat : Int)) = some text := by
  induction text with
  | nil => rfl
  | cons b text ih => simp only [List.map_cons, bytesOfInts, byteOf_toNat, ih]

/-- The LED frame of each LED's number (R131 to R134). -/
theorem ledInstr_of_mem {r g b : Byte} {k : Nat} {i : Instr}
    (h : (k, i) ∈ [(1, Instr.wrLed1 r g b), (2, .wrLed2 r g b), (3, .wrLed3 r g b), (4, .wrLed4 r g b)]) :
    ledInstr k r g b = some i := by
  simp only [List.mem_cons, List.not_mem_nil, or_false, Prod.mk.injEq] at h
  rcases h with ⟨rfl, rfl⟩ | ⟨rfl, rfl⟩ | ⟨rfl, rfl⟩ | ⟨rfl, rfl⟩ <;> rfl

/-- A request that stands for a single frame is performed as that frame by an idle block (R60, R85). -/
theorem step_of_operation {s : State} {r : Request} {i : Instr} (hs : s.seq = .idle) (hop : r.operation = .ok (.instr i))
    (hp : s.port = some r) : step s = exec i { s with port := none } := by
  rw [step_request hp hs, accept, hop]; rfl

/-- Settles O12: each named request stands for its frame, once its operands are seen to be bytes. -/
theorem namedRequestsRunTheirFrames : Obligations.NamedRequestsRunTheirFrames := by
  refine fun s hs => ⟨fun r g b k i hk => step_of_operation hs ?_, fun t => step_of_operation hs ?_,
    fun t => step_of_operation hs ?_, fun on => step_of_operation hs rfl, fun text => step_of_operation hs ?_,
    step_of_operation hs rfl⟩
  · simp only [Request.operation, byteOf_toNat, ledInstr_of_mem hk]
  · simp only [Request.operation, byteOf_toNat]
  · simp only [Request.operation, byteOf_toNat]
  · simp only [Request.operation, bytesOfInts_toNat]

/-! ### The display frame -/

/-- A stretch with no gate of a channel leaves that channel's stamp (R72). -/
theorem lastIssue_of_no_gate {s t : State} {ch : Channel} (h : Effects.MovesOn s t)
    (hgate : .issue ch ∉ acts (s.since t)) : t.lastIssue ch = s.lastIssue ch := by
  obtain ⟨es, htrace, -, hstamp⟩ := h.events
  rw [since_eq htrace] at hgate
  exact (hstamp ch).resolve_right fun hmem => hgate (List.mem_map_of_mem hmem)

/-- The only gate among a frame's acts is that of its own channel (R71). -/
theorem issue_notMem_frameActs {ch : Channel} {i : Instr} (h : ch ≠ channelOf i) (ctx : BrakeContext)
    (reply : Nat → List Byte) : .issue ch ∉ frameActs ctx i reply := by
  unfold frameActs
  cases replyWidth i <;> simp [h]

/-- Settles O44: the frame of an accepted `DISP` in a live environment, with its length byte and its characters read off. -/
theorem displayFrameCompletes : Obligations.DisplayFrameCompletes := by
  intro text s hs hlive
  have haccepts : s.accepts (.disp text) = true := by simp [State.accepts, hs]
  obtain ⟨t, hexec, hidle, hacts, ⟨bs, hanswer, -⟩, hafter, hpast, hgap, -⟩ := exec_accepted_live haccepts hlive
  have hcarries := Effects.carries_exec hexec
  have hgen : t.lastIssue .gen = s.lastIssue .gen :=
    lastIssue_of_no_gate hcarries.toMovesOn (hacts ▸ issue_notMem_frameActs (by simp [channelOf]) _ _)
  have hlen := (toNat_displayLength text).trans (length_displayChars text)
  refine ⟨t, _, hexec, hidle, hanswer, hlen, hacts.trans ?_, hgap, hafter, hpast, hgen, hcarries.speeds .m1,
    hcarries.speeds .m2⟩
  exact congrArg (fun l => Act.issue .disp :: l) (List.append_nil _)

end Sys2Proof.Proofs.Encoding
end

section
/-! ## Proofs: the rate limiter keeps the frames of a channel apart -/

namespace Sys2Proof.Proofs.Spacing

open Sys2Proof Sys2Proof.Machine

/-! ### The stamps of a channel -/

/-- A stamp at least `d` after all the earlier ones keeps the list spaced. -/
theorem spaced_concat {d t : Nat} {stamps : List Nat} (h : spaced d stamps = true) (hlast : ∀ x ∈ stamps, x + d ≤ t) :
    spaced d (stamps ++ [t]) = true := by
  induction stamps with
  | nil => rfl
  | cons a stamps ih =>
    cases stamps with
    | nil => simpa [spaced] using hlast
    | cons b stamps =>
      simp only [spaced, Bool.and_eq_true] at h
      have htail := ih h.2 fun x hx => hlast x (List.mem_cons_of_mem a hx)
      simpa [spaced, h.1] using htail

/-- Events without a gate of the channel add none of its stamps. -/
theorem issueStamps_of_no_gate {ch : Channel} {es : List Event} (h : .issue ch ∉ acts es) : issueStamps ch es = [] := by
  induction es with
  | nil => rfl
  | cons e es ih =>
    rw [acts_cons, List.mem_cons, not_or] at h
    obtain ⟨hhead, htail⟩ := h
    cases e with
    | issue t c =>
      have hne : c ≠ ch := fun hc => hhead (hc ▸ rfl)
      simpa [issueStamps, hne] using ih htail
    | tx t v => exact ih htail
    | rx t n bs => exact ih htail

variable {s t u : State} {ch : Channel}

theorem spacedOn_iff : s.spacedOn ch = true ↔
    spaced (cfg.minInterval ch) (issueStamps ch s.trace) = true ∧ ∀ x ∈ issueStamps ch s.trace, x ≤ s.lastIssue ch := by
  simp [State.spacedOn]

/-- Events without a gate of the channel, its stamp unchanged, leave its spacing as it was. -/
theorem spacedOn_append {es : List Event} (htrace : t.trace = s.trace ++ es) (hgate : .issue ch ∉ acts es)
    (hstamp : t.lastIssue ch = s.lastIssue ch) : t.spacedOn ch = s.spacedOn ch := by
  unfold State.spacedOn
  rw [htrace, issueStamps_append, issueStamps_of_no_gate hgate, List.append_nil, hstamp]

/-! ### Micro-steps -/

/-- What a gate that has passed writes: its reading, an interval after the old stamp, in its own channel alone (R72, R74). -/
theorem gateStep_stamps {c : Channel} (h : gateStep c s = some u) :
    s.lastIssue c + cfg.minInterval c ≤ u.now ∧ u.lastIssue c = u.now ∧ (∀ ch, ch ≠ c → u.lastIssue ch = s.lastIssue ch) ∧
      u.trace = s.trace ++ [.issue u.now c] := by
  obtain ⟨-, hopen, hpassed, -⟩ := gateStep_some h
  have hstamps : ∀ ch, u.lastIssue ch = (s.setLastIssue c u.now).lastIssue ch := fun ch => by
    rw [hpassed]; cases ch <;> rfl
  refine ⟨le_of_gateOpen (minInterval_pos c) hopen, ?_, fun ch hch => ?_, congrArg State.trace hpassed⟩
  · rw [hstamps, lastIssue_setLastIssue_same]
  · rw [hstamps, lastIssue_setLastIssue_other s c u.now ch hch]

/-- A gate adds its stamp an interval after the register's, and so after every earlier one. -/
theorem gateStep_keeps_spacing {c : Channel} (h : gateStep c s = some u) (hs : s.spacedOn ch = true) :
    u.spacedOn ch = true := by
  obtain ⟨hgap, hwritten, hother, htrace⟩ := gateStep_stamps h
  by_cases hch : ch = c
  · subst hch
    obtain ⟨hspaced, hle⟩ := spacedOn_iff.mp hs
    have hstamps : issueStamps ch u.trace = issueStamps ch s.trace ++ [u.now] := by
      rw [htrace, issueStamps_append]; simp [issueStamps]
    rw [spacedOn_iff, hstamps, hwritten]
    refine ⟨spaced_concat hspaced fun x hx => ?_, fun x hx => ?_⟩
    · have := hle x hx; omega
    · rcases List.mem_append.mp hx with hold | hnew
      · have := hle x hold; omega
      · exact (List.mem_singleton.mp hnew).le
  · rw [spacedOn_append htrace (by simpa [Event.act] using hch) (hother ch hch)]
    exact hs

/-- Only a gate has a gate's act. -/
theorem issue_notMem_microActs {m : Micro} (h : ∀ c, m ≠ .gate c) (bs : List Byte) : .issue ch ∉ m.acts bs := by
  cases m with
  | gate c => exact absurd rfl (h c)
  | _ => simp [Micro.acts]

/-- R75, for one micro-step. -/
theorem microStep_keeps_spacing {m : Micro} {b b' : Busy} (h : microStep m b s = some (b', t))
    (hs : s.spacedOn ch = true) : t.spacedOn ch = true := by
  by_cases hgate : ∃ c, m = .gate c
  · obtain ⟨c, rfl⟩ := hgate
    obtain ⟨u, hu, he⟩ := Option.map_eq_some_iff.mp h
    cases he
    exact gateStep_keeps_spacing hu hs
  · obtain ⟨-, -, -, -, ⟨es, htrace, hacts⟩, hstamps⟩ := microStep_moved h
    obtain ⟨hgen, hdisp⟩ := hstamps.resolve_left hgate
    have hno : .issue ch ∉ acts es := hacts ▸ issue_notMem_microActs (fun c hc => hgate ⟨c, hc⟩) _
    have hstamp : t.lastIssue ch = s.lastIssue ch := by
      cases ch
      · exact hgen
      · exact hdisp
    rw [spacedOn_append htrace hno hstamp]
    exact hs

theorem ran_keeps_spacing {ms : List Micro} {b b' : Busy} (h : Ran ms b s b' t) (hs : s.spacedOn ch = true) :
    t.spacedOn ch = true := by
  induction h with
  | done b s => exact hs
  | step hm _ ih => exact ih (microStep_keeps_spacing hm hs)

/-! ### The micro-steps of a step -/

/-- Nothing on the wire and no stamp written. -/
structure SameWire (s t : State) : Prop where
  trace : t.trace = s.trace
  stamps : t.lastIssue = s.lastIssue

theorem sameWire_settle (b : Busy) (s : State) : SameWire s (settle b s) :=
  ⟨Effects.settle_trace b s, funext (Effects.lastIssue_settle b s)⟩

theorem sameWire_tick (s : State) : SameWire s s.tick := ⟨rfl, rfl⟩

theorem sameWire_setLastSpeed (m : Motor) (c : Int) (s : State) : SameWire s (s.setLastSpeed m c) := by
  cases m <;> exact ⟨rfl, rfl⟩

theorem SameWire.refl (s : State) : SameWire s s := ⟨rfl, rfl⟩

theorem SameWire.trans (h : SameWire s t) (h' : SameWire t u) : SameWire s u :=
  ⟨h'.trace.trans h.trace, h'.stamps.trans h.stamps⟩

theorem SameWire.spacedOn (h : SameWire s t) (ch : Channel) : t.spacedOn ch = s.spacedOn ch := by
  unfold State.spacedOn
  rw [h.trace, h.stamps]

/-- From `s` to `t` the wire and the stamps have moved by micro-steps taken one after the other, and by nothing else. -/
def TakesMicros (s t : State) : Prop :=
  ∃ ms b b' u v, SameWire s u ∧ Ran ms b u b' v ∧ SameWire v t

theorem TakesMicros.of_sameWire (h : SameWire s t) : TakesMicros s t :=
  ⟨[], Busy.start .init [], _, s, s, .refl s, .done _ s, h⟩

theorem takesMicros_settle (h : SameWire s u) (b : Busy) : TakesMicros s (settle b u) :=
  .of_sameWire (h.trans (sameWire_settle b u))

theorem takesMicros_runMicros (h : SameWire s u) (ms : List Micro) (b : Busy) : TakesMicros s (runMicros ms b u) := by
  rcases runMicros_cases ms b u with ⟨b', v, hran, he⟩ | ⟨done, m, left, b', v, -, hran, -, he⟩
  · exact ⟨ms, b, b', u, v, h, hran, he ▸ sameWire_settle b' v⟩
  · exact ⟨done, b, b', u, v, h, hran, he ▸ ⟨rfl, rfl⟩⟩

theorem takesMicros_exec {i : Instr} (hsu : SameWire s u) (h : exec i u = .next t) : TakesMicros s t := by
  obtain ⟨b, u₀, rfl, hu₀, -⟩ := exec_next_cases h
  have hbegun : SameWire u u₀ := by rw [hu₀]; exact ⟨rfl, rfl⟩
  exact takesMicros_runMicros (hsu.trans hbegun) _ b

theorem takesMicros_advance {b : Busy} (h : advance b s = .next t) : TakesMicros s t := by
  obtain ⟨m, ms, -, -, rfl⟩ | ⟨m, ms, -, rfl, -⟩ | ⟨-, -, rfl⟩ | ⟨i, rest, -, -, h⟩ | ⟨d, rest, -, -, rfl⟩ |
    ⟨m, c, rest, -, -, rfl⟩ | ⟨rest, -, -, rfl⟩ | ⟨rest, -, -, rfl⟩ := advance_cases h
  · exact .of_sameWire (sameWire_tick s)
  · exact takesMicros_runMicros (.refl s) _ b
  · exact .of_sameWire ⟨rfl, rfl⟩
  · exact takesMicros_exec (.refl s) h
  · exact takesMicros_runMicros (.refl s) _ _
  · exact takesMicros_settle ((sameWire_tick s).trans (sameWire_setLastSpeed m c s.tick)) _
  · exact takesMicros_settle (sameWire_tick s) _
  · have hready : SameWire s { s.tick with ready := true } := ⟨rfl, rfl⟩
    exact takesMicros_settle hready _

/-- What a step puts on the wire and writes to the stamps, it does by micro-steps (R8). -/
theorem takesMicros_step (h : step s = .next t) : TakesMicros s t := by
  obtain ⟨r, i, -, -, -, h⟩ | ⟨r, i, -, -, -, h⟩ | ⟨r, m, v, c, -, -, -, rfl⟩ | ⟨r, -, -, -, rfl⟩ |
    ⟨b, -, -, h⟩ | ⟨-, -, rfl⟩ := step_cases h
  · exact takesMicros_exec (u := s.withdraw) ⟨rfl, rfl⟩ h
  · exact takesMicros_exec (u := beginOp (.sendRead i) [.frame i] s.withdraw) ⟨rfl, rfl⟩ h
  · exact .of_sameWire ⟨rfl, rfl⟩
  · exact .of_sameWire ⟨rfl, rfl⟩
  · exact takesMicros_advance h
  · exact .of_sameWire (sameWire_tick s)

/-- Settles O15: a step moves the wire and the stamps by micro-steps alone, and each of them keeps the spacing. -/
theorem stepKeepsFrameSpacing : Obligations.StepKeepsFrameSpacing := by
  intro s t ch hs h
  obtain ⟨ms, b, b', u, v, hsu, hran, hvt⟩ := takesMicros_step h
  rw [hvt.spacedOn]
  exact ran_keeps_spacing hran (hsu.spacedOn ch ▸ hs)

end Sys2Proof.Proofs.Spacing
end

section
/-! ## Proofs: gates and delays wait -/

namespace Sys2Proof.Proofs.Waits

open Sys2Proof Sys2Proof.Machine

variable {s u : State} {ch : Channel} {b : Busy} {r : Nat}

/-! ### Waiting until an interval is over -/

/-- On a clock that stalls, a wait of `d` from the reading `start` on ends exactly when `d` has passed at a reading the clock
gets to (R77). -/
theorem await_isSome_iff (h : s.env.clockStops = some r) (start d : Nat) :
    (s.await (fun t => decide (t - start ≥ d)) (start + d)).isSome ↔ d ≤ max s.now r - start := by
  have hnone := await_none (p := fun t => decide (t - start ≥ d)) (e := start + d) h
  have hstop := tick_le_stop h
  simp only [decide_eq_false_iff_not] at hnone
  rw [Option.isSome_iff_ne_none, ne_eq, hnone]
  omega

theorem gate_isSome_iff (h : s.env.clockStops = some r) (ch : Channel) (b : Busy) :
    (microStep (.gate ch) b s).isSome ↔ cfg.minInterval ch ≤ max s.now r - s.lastIssue ch := by
  rw [microStep, Option.isSome_map, gateStep, Option.isSome_map]
  exact await_isSome_iff h (s.lastIssue ch) (cfg.minInterval ch)

theorem leaveDelay_isSome_iff (h : s.env.clockStops = some r) (d : Nat) (b : Busy) :
    (microStep (.leaveDelay d) b s).isSome ↔ d ≤ max s.now r - b.t0 := by
  rw [microStep, Option.isSome_map]
  exact await_isSome_iff h b.t0 d

/-! ### Gates -/

/-- A gate passes at the reading the clock shows if its interval is over there, else at the first reading where it is (R72). -/
theorem gateStep_now (h : gateStep ch s = some u) :
    (cfg.minInterval ch ≤ s.env.nextReading s.now - s.lastIssue ch → u.now = s.env.nextReading s.now) ∧
    (s.env.nextReading s.now - s.lastIssue ch < cfg.minInterval ch → u.now = s.lastIssue ch + cfg.minInterval ch) := by
  obtain ⟨v, hv, rfl⟩ := Option.map_eq_some_iff.mp h
  obtain ⟨hopen, hshut⟩ := await_now hv
  have hnow : ((v.setLastIssue ch v.now).emit (.issue v.now ch)).now = v.now := by simp
  rw [hnow]
  refine ⟨fun hover => hopen (decide_eq_true hover), fun hwait => ?_⟩
  rw [hshut (decide_eq_false (Nat.not_le.mpr hwait))]
  have htick : s.tick.now = s.env.nextReading s.now := rfl
  omega

/-- Settles O23: a gate is a wait for its interval; its passing is `gateStep_some` at the reading `gateStep_now` gives. -/
theorem gateWaitsAndStamps : Obligations.GateWaitsAndStamps := by
  intro ch b s
  refine ⟨fun r hstop => gate_isSome_iff hstop ch b, fun hrun => ?_, fun b' t h => ?_⟩
  · obtain ⟨t, ht, -⟩ := StuckFrames.gate_running hrun ch b
    exact ⟨t, ht⟩
  · obtain ⟨u, hu, he⟩ := Option.map_eq_some_iff.mp h
    cases he
    obtain ⟨hnow, -, hpassed, -⟩ := gateStep_some hu
    obtain ⟨hgap, hwritten, -⟩ := Spacing.gateStep_stamps hu
    obtain ⟨hat, hfirst⟩ := gateStep_now hu
    exact ⟨rfl, hnow, Nat.le_sub_of_add_le' hgap, hwritten, hat, hfirst, hpassed⟩

/-! ### Delays -/

/-- Settles O24: a delay is a wait from the reading it was reached at, which a tick has shown. -/
theorem delayIsALowerBound : Obligations.DelayIsALowerBound := by
  intro d b b' s t
  refine ⟨fun h => ?_, fun h => ?_, fun r hstop => leaveDelay_isSome_iff hstop d b⟩
  · cases h
    exact ⟨rfl, now_le_tick s, rfl⟩
  · obtain ⟨u, hu, he⟩ := Option.map_eq_some_iff.mp h
    cases he
    obtain ⟨hnow, hover, hleft, -⟩ := leaveStep_some hu
    exact ⟨rfl, of_decide_eq_true hover, hnow, hleft⟩

/-! ### A clock that stalls too early -/

/-- `m` is a gate or delay whose condition holds at no reading up to `r`, nor at the one the clock shows. -/
def Hopeless (m : Micro) (b : Busy) (r : Nat) (s : State) : Prop :=
  (∃ ch, m = .gate ch ∧ max s.now r - s.lastIssue ch < cfg.minInterval ch) ∨
    ∃ d, m = .leaveDelay d ∧ max s.now r - b.t0 < d

variable {m : Micro}

/-- A tick does not take a clock past the reading it stalls at. -/
theorem max_tick (h : s.env.clockStops = some r) : max s.tick.now r = max s.now r := by
  have hle := now_le_tick s
  have hstop := tick_le_stop h
  omega

theorem Hopeless.tick (h : Hopeless m b r s) (hstop : s.env.clockStops = some r) : Hopeless m b r s.tick := by
  simpa only [Hopeless, max_tick hstop, lastIssue_tick] using h

theorem Hopeless.not_enabled (h : Hopeless m b r s) (hstop : s.env.clockStops = some r) : microStep m b s = none := by
  rw [← Option.not_isSome_iff_eq_none]
  obtain ⟨ch, rfl, hshort⟩ | ⟨d, rfl, hshort⟩ := h
  · rw [gate_isSome_iff hstop]
    exact Nat.not_le.mpr hshort
  · rw [leaveDelay_isSome_iff hstop]
    exact Nat.not_le.mpr hshort

/-- Before a micro-step that is not enabled only the clock moves (R72, R77). -/
theorem step_not_enabled {ms : List Micro} (hport : s.port = none) (hseq : s.seq = .busy b) (hms : b.micros = m :: ms)
    (hm : microStep m b s = none) : step s = .next s.tick := by
  rw [step_busy hport hseq]
  simp only [advance, hms, hm]

/-- Settles O25: a tick leaves a hopeless wait hopeless, so by induction the steps are ticks. -/
theorem stalledClockWaitsForEver : Obligations.StalledClockWaitsForEver := by
  intro s b m ms n r hport hseq hms hstop hwait
  induction n generalizing s with
  | zero => exact ⟨s, run_zero s, rfl, le_rfl, le_max_left _ _⟩
  | succ n ih =>
    have hwait : Hopeless m b r s := hwait
    have hstep : step s = .next s.tick := step_not_enabled hport hseq hms (hwait.not_enabled hstop)
    obtain ⟨t, hrun, ht, hnow, hmax⟩ := ih s.tick hport hseq hstop (hwait.tick hstop)
    rw [max_tick hstop] at hmax
    exact ⟨t, (run_succ n hstep).trans hrun, ht, (now_le_tick s).trans hnow, hmax⟩

end Sys2Proof.Proofs.Waits
end

section
/-! ## Proofs: what a frame puts on the wire in every environment, and what it leaves alone -/

namespace Sys2Proof.Proofs.FrameEffects

open Sys2Proof Sys2Proof.Machine

variable {s t : State} {i : Instr} {ctx : BrakeContext} {b : Busy}

/-! ### The wire -/

/-- A frame that is stuck has taken none of its micro-steps, or its gate and a first part of its bytes: the reply, if there is
one, comes last. -/
theorem proper_prefix_frameMicros {done left : List Micro} {m : Micro} (h : frameMicros ctx i = done ++ m :: left) :
    done = [] ∨ ∃ k, done = restOfFrame (some (channelOf i)) ((wire ctx i).take k) none := by
  cases done with
  | nil => exact .inl rfl
  | cons g sent =>
    have hcons : .gate (channelOf i) :: restOfFrame none (wire ctx i) (replyWidth i) = g :: (sent ++ m :: left) := by
      rw [← List.cons_append, ← h, frameMicros_eq_rest]; rfl
    obtain ⟨rfl, htail⟩ := List.cons.inj hcons
    simp only [restOfFrame, Option.toList_none, List.map_nil, List.nil_append] at htail
    have hsent := congrArg (List.take sent.length) htail
    have hlen := congrArg List.length htail
    have hreply : (replyWidth i).toList.length ≤ 1 := by cases replyWidth i <;> simp
    have hle : sent.length ≤ ((wire ctx i).map Micro.tx).length := by
      simp only [List.length_append, List.length_map, List.length_cons] at hlen ⊢
      omega
    rw [List.take_left, List.take_append_of_le_length hle, ← List.map_take] at hsent
    refine .inr ⟨sent.length, ?_⟩
    simp [restOfFrame, hsent]

/-- A gate and a first part of a frame's bytes are a first part of the frame's acts. -/
theorem restActs_take_prefix (ctx : BrakeContext) (i : Instr) (k : Nat) (reply : Nat → List Byte) :
    restActs (some (channelOf i)) ((wire ctx i).take k) none reply <+: frameActs ctx i reply := by
  rw [StuckFrames.frameActs_eq_restActs]
  have hbytes : ((wire ctx i).take k).map Act.tx <+: (wire ctx i).map .tx := (List.take_prefix k _).map Act.tx
  simpa [restActs] using hbytes.trans (List.prefix_append _ _)

/-- A frame's micro-steps run in any environment: the whole frame is on the wire, or a first part of it and the block is stuck
in the middle (R41, R91). -/
theorem runMicros_frame_acts (ctx : BrakeContext) (i : Instr) (b : Busy) (s : State) :
    acts (s.since (runMicros (frameMicros ctx i) b s)) = frameActs ctx i s.incoming ∨
      acts (s.since (runMicros (frameMicros ctx i) b s)) <+: frameActs ctx i s.incoming ∧
        ∃ b', (runMicros (frameMicros ctx i) b s).seq = .busy b' ∧ b'.micros ≠ [] := by
  rcases runMicros_cases (frameMicros ctx i) b s with ⟨b', u, hran, he⟩ | ⟨done, m, left, b', u, hms, hran, -, he⟩
  · obtain ⟨-, -, -, -, ⟨es, htrace, hacts, -⟩, -⟩ := frame_ran hran
    rw [he, since_eq ((Effects.settle_trace b' u).trans htrace)]
    exact .inl hacts
  · rw [he]
    refine .inr ⟨?_, _, rfl, List.cons_ne_nil m left⟩
    obtain rfl | ⟨k, rfl⟩ := proper_prefix_frameMicros hms
    · cases hran
      have hnone : s.since s = [] := since_eq (List.append_nil _).symm
      show acts (s.since s) <+: _
      rw [hnone]
      exact List.nil_prefix
    · obtain ⟨⟨es, htrace, hacts⟩, -⟩ := hran.rest
      show acts (s.since u) <+: _
      rw [since_eq htrace, hacts]
      exact restActs_take_prefix ctx i k s.incoming

/-- Settles O28: an instruction that is performed runs its frame's micro-steps, and if it is not stuck in the middle of them
the whole frame is on the wire. -/
theorem frameActsInOrder : Obligations.FrameActsInOrder := by
  intro i s t h
  obtain ⟨b, s₀, rfl, hs₀, -⟩ := exec_next_cases h
  obtain ⟨a, rfl⟩ : ∃ a, s₀ = { s with answer := a } := ⟨_, hs₀⟩
  obtain hwhole | ⟨hpart, b', hseq, hleft⟩ :=
    runMicros_frame_acts (brakeContext s.seq) i b { s with answer := a }
  · exact ⟨hwhole ▸ List.prefix_rfl, fun _ => hwhole⟩
  · exact ⟨hpart, fun hdone => absurd (hdone b' hseq) hleft⟩

/-! ### The rest of the state -/

theorem settle_port (b : Busy) (s : State) : (settle b s).port = s.port := by
  unfold settle; split <;> rfl

theorem runMicros_port (ms : List Micro) (b : Busy) (s : State) : (runMicros ms b s).port = s.port := by
  rcases runMicros_cases ms b s with ⟨b', u, hran, he⟩ | ⟨done, m, left, b', u, -, hran, -, he⟩
  · rw [he, settle_port, hran.moved.1.port]
  · rw [he]; exact hran.moved.1.port

/-- A frame writes no stamp of the other channel, no recorded speed, not `ready` and not the port, and only adds to the trace,
in every environment (R71). -/
theorem exec_leaves {ch : Channel} (h : exec i s = .next t) (hch : ch ≠ channelOf i) :
    t.lastIssue ch = s.lastIssue ch ∧ t.lastSpeedM1 = s.lastSpeedM1 ∧ t.lastSpeedM2 = s.lastSpeedM2 ∧
      t.ready = s.ready ∧ t.port = s.port ∧ s.trace <+: t.trace := by
  have hcarries := Effects.carries_exec h
  obtain ⟨es, htrace, -⟩ := hcarries.events
  obtain ⟨hacts, -⟩ := frameActsInOrder i s t h
  have hgate : .issue ch ∉ acts (s.since t) := fun hmem =>
    Encoding.issue_notMem_frameActs hch _ _ (hacts.subset hmem)
  have hport : t.port = s.port := by
    obtain ⟨b, s₀, rfl, hs₀, -⟩ := exec_next_cases h
    rw [runMicros_port, hs₀]
  exact ⟨Encoding.lastIssue_of_no_gate hcarries.toMovesOn hgate, hcarries.speeds .m1, hcarries.speeds .m2,
    hcarries.ready, hport, htrace ▸ List.prefix_append _ _⟩

/-! ### The calibration ghost -/

/-- The operation is not `WR.COLORCAL`. -/
def OwesNoSettle (op : Operation) : Prop := ∀ c, op ≠ .instr (.wrColorCal c)

theorem settleAfter_of_owesNoSettle {op : Operation} (h : OwesNoSettle op) (s : State) :
    settleAfter op s = s.settleUntil := by
  unfold settleAfter
  split
  · exact absurd rfl (h _)
  · rfl

theorem settle_settleUntil (h : OwesNoSettle b.op) (s : State) : (settle b s).settleUntil = s.settleUntil := by
  unfold settle
  split
  · exact settleAfter_of_owesNoSettle h s.tick
  · rfl

theorem runMicros_settleUntil (h : OwesNoSettle b.op) (ms : List Micro) (s : State) :
    (runMicros ms b s).settleUntil = s.settleUntil := by
  rcases runMicros_cases ms b s with ⟨b', u, hran, he⟩ | ⟨done, m, left, b', u, -, hran, -, he⟩
  · obtain ⟨hmoved, hop, -⟩ := hran.moved
    rw [he, settle_settleUntil (hop ▸ h), hmoved.settleUntil]
  · rw [he]; exact hran.moved.1.settleUntil

/-- On plan, an operation that has come to a frame of its own is `SETSPEED` or `INIT`. -/
theorem owesNoSettle_of_awaits (hplan : b.onPlan = true) (h : b.awaits i = true) : OwesNoSettle b.op := by
  obtain ⟨m, v, hop, -⟩ | ⟨hop, -⟩ := Invariant.onPlan_todo_cons hplan (StuckFrames.todo_of_awaits h)
  · rw [hop]; exact fun _ => Operation.noConfusion
  · rw [hop]; exact fun _ => Operation.noConfusion

/-- Under the invariant only `WR.COLORCAL` writes the calibration ghost (log 11). -/
theorem exec_settleUntil (h : exec i s = .next t) (hinv : s.Inv) (hi : ∀ c, i ≠ .wrColorCal c) :
    t.settleUntil = s.settleUntil := by
  obtain ⟨b, s₀, rfl, hs₀, hfrom⟩ := exec_next_cases h
  suffices hop : OwesNoSettle b.op by rw [runMicros_settleUntil hop, hs₀]
  obtain ⟨-, rfl, -⟩ | ⟨b₀, hbusy, hawaits, rfl, -⟩ := hfrom
  · exact fun c hc => hi c (Operation.instr.inj hc)
  · obtain ⟨hplan, -⟩ := Invariant.onPlan_of_Inv hinv hbusy
    exact owesNoSettle_of_awaits (b := b₀) hplan hawaits

/-! ### The obligations -/

/-- Every frame but the display frame is gated by GEN (R71). -/
theorem channelOf_eq_gen (h : ∀ text, i ≠ .disp text) : channelOf i = .gen := by
  cases i with
  | disp text => exact absurd rfl (h text)
  | _ => rfl

/-- Settles O29: the frame's channel is GEN, so the display channel is the other one. -/
theorem generalFramesLeaveTheRest : Obligations.GeneralFramesLeaveTheRest := by
  intro i s t hi h
  have hch : Channel.disp ≠ channelOf i := by rw [channelOf_eq_gen hi]; decide
  obtain ⟨hstamp, hm1, hm2, hready, hport, htrace⟩ := exec_leaves h hch
  exact ⟨hstamp, hm1, hm2, hready, hport, htrace, exec_settleUntil h⟩

/-- Settles O30: the frame's channel is DISP, so the general channel is the other one. -/
theorem displayFrameLeavesTheRest : Obligations.DisplayFrameLeavesTheRest := by
  intro text s t hinv h
  have hch : Channel.gen ≠ channelOf (.disp text) := Channel.noConfusion
  obtain ⟨hstamp, hm1, hm2, hready, hport, htrace⟩ := exec_leaves h hch
  exact ⟨hstamp, hm1, hm2, hready, hport, htrace, exec_settleUntil h hinv fun _ => Instr.noConfusion⟩

end Sys2Proof.Proofs.FrameEffects
end

section
/-! ## Proofs: the codec's reads and writes, completed or refused -/

namespace Sys2Proof.Proofs.CommandCodec

open Sys2Proof Sys2Proof.Machine

variable {s t : State} {i : Instr} {op : Byte} {p : List Byte} {n : Nat} {rule : DecodeRule}

/-! ### What a completed general frame leaves -/

/-- The GEN stamp is that of a gate passed since `s`, the DISP stamp and both recorded speeds are as they were (R71, R72). -/
def StampedGen (s t : State) : Prop :=
  s.lastIssueGen + 1 ≤ t.lastIssueGen ∧ s.now ≤ t.lastIssueGen ∧ t.lastIssueGen ≤ t.now ∧
    t.lastIssueDisp = s.lastIssueDisp ∧ t.lastSpeedM1 = s.lastSpeedM1 ∧ t.lastSpeedM2 = s.lastSpeedM2

/-- A frame of channel GEN leaves the DISP stamp, both recorded speeds and the port (R71). -/
theorem exec_gen_leaves (h : exec i s = .next t) (hch : channelOf i = .gen) :
    t.lastIssueDisp = s.lastIssueDisp ∧ t.lastSpeedM1 = s.lastSpeedM1 ∧ t.lastSpeedM2 = s.lastSpeedM2 ∧
      t.port = s.port := by
  have hother : Channel.disp ≠ channelOf i := by rw [hch]; exact Channel.noConfusion
  obtain ⟨hdisp, hm1, hm2, -, hport, -⟩ := FrameEffects.exec_leaves h hother
  exact ⟨hdisp, hm1, hm2, hport⟩

/-- A frame of channel GEN whose stamp is known to be a new one has stamped GEN and nothing else. -/
theorem stampedGen_of_exec (h : exec i s = .next t) (hch : channelOf i = .gen)
    (hgap : s.lastIssue (channelOf i) + cfg.minInterval (channelOf i) ≤ t.lastIssue (channelOf i))
    (hafter : s.now ≤ t.lastIssue (channelOf i)) (hpast : t.lastIssue (channelOf i) ≤ t.now) : StampedGen s t := by
  obtain ⟨hdisp, hm1, hm2, -⟩ := exec_gen_leaves h hch
  rw [hch] at hgap hafter hpast
  exact ⟨hgap, hafter, hpast, hdisp, hm1, hm2⟩

/-! ### Reads -/

theorem replyWidth_of_descriptor (hop : readOpcode i = some op) (hd : descriptor op = some (n, rule)) :
    replyWidth i = some n := by
  simp only [replyWidth, hop, Option.bind_some, hd, Option.map_some]

/-- A read hands back what its row's decode rule makes of the reply (R90, R101). -/
theorem answerOf_read (hop : readOpcode i = some op) (hd : descriptor op = some (n, rule)) (bs : List Byte) :
    answerOf (.instr i) bs = .value (rule.apply bs) := by
  simp only [answerOf, hop, Option.bind_some, hd]

/-- A read's frame on the wire: its gate, the two header bytes, and the reply of its row's width (R52, R86). -/
theorem frameActs_read (hop : readOpcode i = some op) (hd : descriptor op = some (n, rule)) (ctx : BrakeContext)
    (reply : Nat → List Byte) : frameActs ctx i reply = [.issue .gen, .tx 0x80#8, .tx op, .rx (reply n)] := by
  obtain ⟨hch, hwire, -⟩ := read_frame hop
  simp [frameActs, hch, hwire, replyWidth_of_descriptor hop hd]

theorem accepts_read (hop : readOpcode i = some op) (hs : s.seq = .idle) : s.accepts i = true := by
  cases i <;> cases hop <;> simp [State.accepts, hs]

/-- Every read completes with the value its row's decode rule gives the reply (R86, R100). -/
theorem readCompletes (hop : readOpcode i = some op) (hd : descriptor op = some (n, rule))
    {right : List Byte → Value → Prop} (hright : ∀ bs, right bs (rule.apply bs)) : ReadCompletes i op n right := by
  intro s hs hlive
  obtain ⟨t, hexec, hidle, hacts, ⟨bs, hanswer, hreply⟩, hafter, hpast, hgap, -⟩ :=
    exec_accepted_live (accepts_read hop hs) hlive
  rw [answerOf_read hop hd, hreply n (replyWidth_of_descriptor hop hd)] at hanswer
  exact ⟨t, _, hexec, hidle, hanswer, hright _, length_nextBytes s.env n, hacts.trans (frameActs_read hop hd _ _),
    stampedGen_of_exec hexec (read_frame hop).1 hgap hafter hpast⟩

/-- Settles O31: the row of opcode 0x00 is one byte, handed back raw. -/
theorem testReadCompletes : Obligations.TestReadCompletes :=
  readCompletes (op := 0x00#8) rfl descriptor_00 fun _ _ hbs => by rw [hbs]; rfl

/-! ### `sendRead` -/

/-- The last frame of an operation in progress, in a live environment: the frame is on the wire, its stamp in the channel's
register, and the operation returns with the last reply. -/
theorem exec_issued_last_live {b : Busy} (hi : s.issues i = true) (hs : s.seq = .busy b) (ht : b.todo = [.frame i])
    (hl : s.live) :
    ∃ t bs, exec i s = .next t ∧ t.seq = .idle ∧ t.answer = some (answerOf b.op bs) ∧
      (∀ n, replyWidth i = some n → bs = s.incoming n) ∧
      acts (s.since t) = frameActs (brakeContext s.seq) i s.incoming ∧
      s.lastIssue (channelOf i) + cfg.minInterval (channelOf i) ≤ t.lastIssue (channelOf i) ∧
      s.now ≤ t.lastIssue (channelOf i) ∧ t.lastIssue (channelOf i) ≤ t.now := by
  obtain ⟨b₀, hb, -, hexec⟩ := exec_of_issues hi
  obtain rfl : b₀ = b := Seq.busy.inj (hb.symm.trans hs)
  obtain ⟨b', u, hran, -, hrun⟩ :=
    runMicros_live (frameMicros (brakeContext s.seq) i) { b₀ with todo := b₀.todo.tail } hl
  obtain ⟨hafter, hpast, hgap, -, ⟨es, htrace, hacts, -⟩, hreceived⟩ := frame_ran hran
  obtain ⟨-, hop, htodo, -⟩ := hran.moved
  have hdone : b'.todo = [] := by rw [htodo, ht]; rfl
  rw [hrun, StuckFrames.settle_of_todo_nil hdone] at hexec
  refine ⟨_, b'.received, hexec, rfl, by rw [finish_answer, hop], hreceived, ?_, ?_, ?_, ?_⟩
  · rw [since_eq ((finish_trace u _).trans htrace), hacts]
  · rw [lastIssue_finish]; exact hgap
  · rw [lastIssue_finish]; exact hafter
  · rw [lastIssue_finish, finish_now]; exact hpast.trans (now_le_tick u)

/-- An idle block performs `sendRead` as an operation whose one frame is the opcode's read (R86). -/
theorem step_sendRead (hs : s.seq = .idle) (hp : s.port = some (.sendRead op)) (hi : readInstr op = some i) :
    step s = exec i (beginOp (.sendRead i) [.frame i] s.withdraw) := by
  have hop : (Request.sendRead op).operation = .ok (.sendRead i) := by simp only [Request.operation, hi]
  rw [step_request hp hs, accept, hop]

theorem awaits_beginOp (o : Operation) (i : Instr) (rest : List Task) (s : State) :
    (beginOp o (.frame i :: rest) s).awaits i = true := by
  simp [State.awaits, beginOp, Busy.start, Busy.awaits]

/-- Settles O58: the operation begun has the read's frame as its only one, and returns the reply as it is. -/
theorem sendReadReturnsTheBytes : Obligations.SendReadReturnsTheBytes := by
  intro s op n rule hs hlive hp hd
  obtain ⟨i, hi, hop⟩ := readInstr_of_descriptor hd
  obtain ⟨hch, -, hissues⟩ := read_frame hop
  obtain ⟨t, bs, hexec, hidle, hanswer, hreply, hacts, hgap, hafter, hpast⟩ :=
    exec_issued_last_live (s := beginOp (.sendRead i) [.frame i] s.withdraw)
      (hissues _ (awaits_beginOp _ i [] _)) rfl rfl hlive
  obtain ⟨-, -, -, hport⟩ := exec_gen_leaves hexec hch
  have hstamp := stampedGen_of_exec hexec hch hgap hafter hpast
  rw [hreply n (replyWidth_of_descriptor hop hd)] at hanswer
  exact ⟨t, (step_sendRead hs hp hi).trans hexec, hidle, hport, hanswer, length_nextBytes s.env n,
    hacts.trans (frameActs_read hop hd _ _), hstamp⟩

/-! ### Writes -/

/-- A frame `81 op p` without a reply, once an idle block accepts it, completes as a write (R88). -/
theorem writeCompletes (hch : channelOf i = .gen) (hread : readOpcode i = none)
    (hwire : wire .caller i = 0x81#8 :: op :: p) (haccepts : ∀ s : State, s.seq = .idle → s.accepts i = true) :
    WriteCompletes i op p := by
  intro s hs hlive
  obtain ⟨t, hexec, hidle, hacts, ⟨bs, hanswer, -⟩, hafter, hpast, hgap, -⟩ := exec_accepted_live (haccepts s hs) hlive
  have hdone : answerOf (.instr i) bs = .done := by simp only [answerOf, hread, Option.bind_none]
  have hframe : frameActs .caller i s.incoming = .issue .gen :: .tx 0x81#8 :: .tx op :: p.map .tx := by
    simp [frameActs, hch, hwire, replyWidth, hread]
  exact ⟨t, hexec, hidle, hdone ▸ hanswer, hacts.trans hframe, stampedGen_of_exec hexec hch hgap hafter hpast⟩

/-- A given brake payload of another length than the register's is refused by an idle block (R88). -/
theorem exec_givenBrake_badShape (hs : s.seq = .idle) (hlen : p.length ≠ (Config.brakePayload .caller).length) :
    exec (.wrBrake (some p)) s = .refused .badPayloadShape := by
  simp only [exec, execWrBrake, givenBrake, hs, if_true, if_neg hlen]

/-- Settles O40: both brake frames are writes of opcode 0x06; a given payload is accepted when its length is the
register's. -/
theorem brakeWriteCompletes : Obligations.BrakeWriteCompletes := by
  refine ⟨writeCompletes rfl rfl rfl fun s hs => ?_, List.length_take_le _ _, fun p =>
    ⟨fun hlen => writeCompletes rfl rfl rfl fun s hs => ?_, fun hlen s hs => exec_givenBrake_badShape hs hlen⟩⟩
  · simp [State.accepts, hs]
  · simp [State.accepts, hs, hlen]

/-! ### `sendWrite` -/

/-- A `sendWrite` whose opcode and payload are in order stands for its frame (R88). -/
theorem operation_sendWrite (h : sendWriteFrame op p = .ok i) : (Request.sendWrite op p).operation = .ok (.instr i) := by
  simp only [Request.operation, h]

/-- Settles O59: the payload's frame is a write, performed with the request withdrawn. -/
theorem sendWriteSendsThePayload : Obligations.SendWriteSendsThePayload := by
  intro s op p hs hlive hp hwidth h4 h5
  obtain ⟨i, hframe, hch, hread, hwire, haccepts⟩ := sendWriteFrame_of_width hwidth h4 h5
  obtain ⟨t, hexec, hidle, hanswer, hacts, hstamp⟩ :=
    writeCompletes hch hread (hwire .caller) haccepts { s with port := none } hs hlive
  obtain ⟨-, -, -, hport⟩ := exec_gen_leaves hexec hch
  exact ⟨t, (Encoding.step_of_operation hs (operation_sendWrite hframe) hp).trans hexec, hidle, hport, hanswer, hacts,
    hstamp⟩

/-! ### Refusals -/

/-- A request that stands for no operation is refused by an idle block (R186). -/
theorem step_of_operation_error {r : Request} {e : Refusal} (hs : s.seq = .idle) (hop : r.operation = .error e)
    (hp : s.port = some r) : step s = .refused e := by
  rw [step_request hp hs, accept, hop]

theorem operation_frame {bytes : List Byte} (h : decode bytes = .ok i) :
    (Request.frame bytes).operation = .ok (.instr i) := by
  simp only [Request.operation, h]

theorem operation_frame_error {bytes : List Byte} {e : DecodeError} (h : decode bytes = .error e) :
    (Request.frame bytes).operation = .error (refusalOf e) := by
  simp only [Request.operation, h]

theorem operation_sendWrite_error {e : DecodeError} (h : sendWriteFrame op p = .error e) :
    (Request.sendWrite op p).operation = .error (refusalOf e) := by
  simp only [Request.operation, h]

/-- A reserved read opcode stands for no operation of `sendRead` (R86). -/
theorem operation_sendRead_reserved (h : 0x10 ≤ op.toNat) :
    (Request.sendRead op).operation = .error .unknownReadOpcode := by
  have hnone : readInstr op = none := by
    rw [← Option.not_isSome_iff_eq_none, readInstr_isSome, decide_eq_true_eq]
    omega
  simp only [Request.operation, hnone]

theorem sendWriteFrame_of_ne_brake (h : op ≠ 0x06#8) (p : List Byte) : sendWriteFrame op p = decodeWrite op p :=
  if_neg h

/-- Only the brake register's payload length is open (R130). -/
theorem payloadWidth_of_ne_brake (h : op ≠ 0x06#8) (n : Nat) : payloadWidth n op = payloadWidth 0 op := by
  cases Encoding.writeRow op with
  | bgr _ _ hwidth _ | speed _ _ hwidth _ | one _ _ hwidth _ => rw [hwidth, hwidth]
  | brake hop => exact absurd hop h
  | reserved hop =>
    have hnone : ∀ m, payloadWidth m op = none := fun m => by
      rw [← Option.not_isSome_iff_eq_none, payloadWidth_isSome, decide_eq_true_eq]
      omega
    rw [hnone, hnone]

/-- Two payload bytes after a speed opcode are a speed frame, which an idle block refuses (R135, R156). -/
theorem decodeWrite_speed (hop : op = 0x04#8 ∨ op = 0x05#8) (lo hi : Byte) :
    ∃ i, decodeWrite op [lo, hi] = .ok i ∧
      ∀ s : State, s.seq = .idle → exec i s = .refused .motorWriteBypassesGuard := by
  rcases hop with rfl | rfl
  · exact ⟨.wrMotor1 (leS [lo, hi]), rfl, fun s hs => by simp only [exec, execWrMotor1, speedFrame, hs]⟩
  · exact ⟨.wrMotor2 (leS [lo, hi]), rfl, fun s hs => by simp only [exec, execWrMotor2, speedFrame, hs]⟩

/-- A `sendWrite` with a payload of another length than the register's: the brake register's is seen when the frame is
performed, any other by the decoder (R88, R130). -/
theorem sendWrite_badShape {w : Nat} (hs : s.seq = .idle) (hp : s.port = some (.sendWrite op p))
    (hw : payloadWidth (Config.brakePayload .caller).length op = some w) (hlen : p.length ≠ w) :
    step s = .refused .badPayloadShape := by
  by_cases hbrake : op = 0x06#8
  · subst hbrake
    cases hw
    exact (Encoding.step_of_operation hs (operation_sendWrite rfl) hp).trans (exec_givenBrake_badShape hs hlen)
  · rw [payloadWidth_of_ne_brake hbrake] at hw
    have herror := (sendWriteFrame_of_ne_brake hbrake p).trans (Encoding.decodeWrite_badShape hbrake hw hlen)
    exact step_of_operation_error hs (operation_sendWrite_error herror) hp

/-- A brake frame with a payload that is not empty and of another length than the register's: one of at most 18 bytes is
decoded and refused when it is performed, a longer one by the decoder (R50, R88, log 15). -/
theorem brakeFrame_badShape (hs : s.seq = .idle) (hp : s.port = some (.frame (0x81#8 :: 0x06#8 :: p))) (hne : p ≠ [])
    (hlen : p.length ≠ (Config.brakePayload .caller).length) : step s = .refused .badPayloadShape := by
  have hempty : p.isEmpty = false := List.isEmpty_eq_false_iff.mpr hne
  by_cases hfits : p.length ≤ 18
  · have hdecode : decode (0x81#8 :: 0x06#8 :: p) = .ok (.wrBrake (some p)) :=
      Encoding.brakePayloadBytes_of_fits (by simp [givenPayloadFits, hempty, hfits])
    exact (Encoding.step_of_operation hs (operation_frame hdecode) hp).trans (exec_givenBrake_badShape hs hlen)
  · have hdecode : decode (0x81#8 :: 0x06#8 :: p) = .error .badPayloadShape := by
      show brakePayloadBytes p = _
      rw [brakePayloadBytes, hempty, if_neg Bool.false_ne_true, cfg_displayMax, if_neg hfits]
    exact step_of_operation_error hs (operation_frame_error hdecode) hp

/-- Settles O10: opcode and shape are refused where the request is decoded, a direct speed frame and a brake payload of a
wrong length where the frame is performed. -/
theorem badFramesRefused : Obligations.BadFramesRefused := by
  intro s hs
  refine ⟨fun op rest hp h => ?_, fun op p hp h => ?_, fun op p w hp hbrake hw hlen => ?_, fun op lo hi hp hop => ?_,
    fun op hp h => ?_, fun op p hp h => ?_, fun op p w hp hw hlen => sendWrite_badShape hs hp hw hlen,
    fun op lo hi hp hop => ?_, fun p hp hne hlen => brakeFrame_badShape hs hp hne hlen⟩
  · have herror := (decode_read op rest).trans (Encoding.decodeRead_reserved h rest)
    exact step_of_operation_error hs (operation_frame_error herror) hp
  · have herror := (decode_write op p).trans (Encoding.decodeWrite_reserved h p)
    exact step_of_operation_error hs (operation_frame_error herror) hp
  · have herror := (decode_write op p).trans (Encoding.decodeWrite_badShape hbrake hw hlen)
    exact step_of_operation_error hs (operation_frame_error herror) hp
  · obtain ⟨i, hdecode, hrefused⟩ := decodeWrite_speed hop lo hi
    have hframe := (decode_write op [lo, hi]).trans hdecode
    exact (Encoding.step_of_operation hs (operation_frame hframe) hp).trans (hrefused _ hs)
  · exact step_of_operation_error hs (operation_sendRead_reserved h) hp
  · have hbrake : op ≠ 0x06#8 := by rintro rfl; exact absurd h (by decide)
    have herror := (sendWriteFrame_of_ne_brake hbrake p).trans (Encoding.decodeWrite_reserved h p)
    exact step_of_operation_error hs (operation_sendWrite_error herror) hp
  · obtain ⟨i, hdecode, hrefused⟩ := decodeWrite_speed hop lo hi
    have hbrake : op ≠ 0x06#8 := by rcases hop with rfl | rfl <;> decide
    have hframe := (sendWriteFrame_of_ne_brake hbrake [lo, hi]).trans hdecode
    exact (Encoding.step_of_operation hs (operation_sendWrite hframe) hp).trans (hrefused _ hs)

end Sys2Proof.Proofs.CommandCodec
end

section
/-! ## Proofs: the reads of the peripheral registers, and their decode rules -/

namespace Sys2Proof.Proofs.ReadRegisters

open Sys2Proof Sys2Proof.Machine

/-! ### Replies as numbers -/

theorem leU_two (b0 b1 : Byte) : leU [b0, b1] = value16 b0 b1 := rfl

theorem leU_four (b0 b1 b2 b3 : Byte) : leU [b0, b1, b2, b3] = value32 b0 b1 b2 b3 := by
  simp only [leU, value32]
  omega

theorem value16_le (b0 b1 : Byte) : value16 b0 b1 ≤ 65535 := by
  have h0 := b0.isLt
  have h1 := b1.isLt
  unfold value16
  omega

theorem value32_lt (b0 b1 b2 b3 : Byte) : value32 b0 b1 b2 b3 < 2 ^ 32 := by
  have h0 := b0.isLt
  have h1 := b1.isLt
  have h2 := b2.isLt
  have h3 := b3.isLt
  unfold value32
  omega

/-- The signed value of four reply bytes is their unsigned one read as two's complement (R7; D8, log 16). -/
theorem leS_eq_signed32 (b0 b1 b2 b3 : Byte) : leS [b0, b1, b2, b3] = signed32 (value32 b0 b1 b2 b3) := by
  rw [leS_four, leU_four, signed32]

/-! ### The decode rules -/

/-- `DEC_BOOL` of one byte asks for the value 1 (R118). -/
theorem decBool_one (b : Byte) : decBool [b] = decide (b.toNat = 1) := by
  have hone : [b].head? = some 1#8 ↔ b.toNat = 1 := by
    rw [List.head?_cons, Option.some_inj, BitVec.toNat_eq]
    rfl
  exact decide_eq_decide.mpr hone

/-- `DEC_INV` of two bytes (R119). -/
theorem decInv_two (b0 b1 : Byte) : decInv [b0, b1] = 4095 - (value16 b0 b1 : Int) := rfl

/-- `DEC_F32` of four bytes loses none of their bits (R121). -/
theorem toNat_decF32_four (b0 b1 b2 b3 : Byte) : (decF32 [b0, b1, b2, b3]).toNat = value32 b0 b1 b2 b3 := by
  rw [decF32, leU_four, BitVec.toNat_ofNat, Nat.mod_eq_of_lt (value32_lt b0 b1 b2 b3)]

/-- Three bytes shifted to their places do not overlap, so joining them is adding them (R122). -/
theorem or_shiftLeft_bytes (x y z : Byte) :
    x.toNat <<< 16 ||| y.toNat <<< 8 ||| z.toNat = 65536 * x.toNat + 256 * y.toNat + z.toNat := by
  have hy := y.isLt
  have hz := z.isLt
  have hlow : y.toNat <<< 8 ||| z.toNat = 256 * y.toNat + z.toNat := by
    rw [← Nat.shiftLeft_add_eq_or_of_lt hz, Nat.shiftLeft_eq]
    omega
  have hfits : 256 * y.toNat + z.toNat < 2 ^ 16 := by omega
  rw [Nat.or_assoc, hlow, ← Nat.shiftLeft_add_eq_or_of_lt hfits, Nat.shiftLeft_eq]
  omega

/-- `PACK` puts red, green and blue in the bytes of a 24-bit number (R122; D7, log 18). -/
theorem pack_eq_add (r g b : Byte) : pack r g b = 65536 * r.toNat + 256 * g.toNat + b.toNat :=
  or_shiftLeft_bytes r g b

/-- `DEC_ENC`'s division is the one that truncates toward zero (R124). -/
theorem truncatedBy210_tdiv (p : Int) : truncatedBy210 p (p.tdiv 210) := by
  have hmagnitude : (p.tdiv 210).natAbs = p.natAbs / 210 := Int.natAbs_tdiv p 210
  have hnonneg : 0 ≤ p → 0 ≤ p.tdiv 210 := fun hp => Int.tdiv_nonneg hp (by decide)
  have hnonpos : p ≤ 0 → p.tdiv 210 ≤ 0 := fun hp => by
    have hneg : 0 ≤ (-p).tdiv 210 := Int.tdiv_nonneg (Int.neg_nonneg.mpr hp) (by decide)
    rwa [Int.neg_tdiv, Int.neg_nonneg] at hneg
  refine ⟨?_, ?_, hnonneg, hnonpos⟩ <;> omega

/-- `CALCRGB`'s mask keeps the low byte (R123). -/
theorem shiftRight_and_byte (v k : Nat) : (v >>> k) &&& 0xFF = v / 2 ^ k % 256 := by
  rw [Nat.shiftRight_eq_div_pow]
  exact Nat.and_two_pow_sub_one_eq_mod _ 8

/-- Settles O52: `PACK` is a number to base 256, and `CALCRGB` takes its digits. -/
theorem colorComponentsRoundTrip : Obligations.ColorComponentsRoundTrip := by
  intro r g b
  have hr := r.isLt
  have hg := g.isLt
  have hb := b.isLt
  refine ⟨?_, ?_, ?_, rfl⟩
  · rw [calcRgb, shiftRight_and_byte, pack_eq_add, cfg_redShift]
    omega
  · rw [calcRgb, shiftRight_and_byte, pack_eq_add, cfg_greenShift]
    omega
  · rw [calcRgb, shiftRight_and_byte, pack_eq_add, cfg_blueShift]
    omega

/-- Settles O53: the decode of two bytes is 4095 less their value. -/
theorem invertedDecodeLaw : Obligations.InvertedDecodeLaw := by
  intro b0 b1 c0 c1
  rw [decInv_two, decInv_two]
  exact ⟨rfl, fun hraw => by omega, fun hlt => by omega⟩

/-! ### The reads -/

/-- The reads of a list complete when its rows have one reply width and one decode rule in the descriptor table (R100). -/
theorem readsComplete {rows : List (Instr × Byte)} {n : Nat} {rule : DecodeRule} {right : List Byte → Value → Prop}
    (hrows : ∀ row ∈ rows, readOpcode row.1 = some row.2 ∧ descriptor row.2 = some (n, rule))
    (hright : ∀ bs, right bs (rule.apply bs)) (i : Instr) (op : Byte) (h : (i, op) ∈ rows) :
    ReadCompletes i op n right := by
  obtain ⟨hop, hd⟩ := hrows (i, op) h
  exact CommandCodec.readCompletes hop hd hright

/-- Settles O32: the eight rows are two bytes, decoded by `DEC_INV`. -/
theorem invertedAnalogReadsComplete : Obligations.InvertedAnalogReadsComplete := by
  refine readsComplete (rule := .inv) (by decide) fun bs b0 b1 hbs => ?_
  rw [hbs, DecodeRule.apply, decInv_two]

/-- Settles O33: the row of opcode 0x07 is four bytes, handed over as their pattern. -/
theorem batteryReadCompletes : Obligations.BatteryReadCompletes := by
  refine CommandCodec.readCompletes rfl descriptor_07 fun bs b0 b1 b2 b3 hbs => ?_
  rw [hbs]
  exact ⟨_, rfl, toNat_decF32_four b0 b1 b2 b3⟩

/-- Settles O34: both rows are one byte, decoded by `DEC_BOOL`. -/
theorem booleanReadsComplete : Obligations.BooleanReadsComplete := by
  refine readsComplete (rule := .bool) (by decide) fun bs b hbs => ?_
  rw [hbs, DecodeRule.apply, decBool_one]

/-- Settles O35: the row of opcode 0x0B is three bytes, each at its own place of the packed number. -/
theorem colorReadCompletes : Obligations.ColorReadCompletes := by
  refine CommandCodec.readCompletes rfl descriptor_0B fun bs b0 b1 b2 hbs => ?_
  have h0 := b0.isLt
  have h1 := b1.isLt
  have h2 := b2.isLt
  have hsum := or_shiftLeft_bytes b2 b1 b0
  rw [hbs]
  exact ⟨_, rfl, rfl, hsum, hsum.trans_le (by omega)⟩

/-- Settles O36: both rows are four bytes, the count in two's complement, divided by 7 * 30. -/
theorem encoderReadsComplete : Obligations.EncoderReadsComplete := by
  refine readsComplete (rule := .enc) (by decide) fun bs b0 b1 b2 b3 hbs => ?_
  rw [hbs, ← leS_eq_signed32]
  exact ⟨_, rfl, truncatedBy210_tdiv (leS [b0, b1, b2, b3])⟩

/-- Settles O37: the row of opcode 0x0E is two bytes, handed back raw. -/
theorem ultrasonicReadCompletes : Obligations.UltrasonicReadCompletes := by
  refine CommandCodec.readCompletes rfl descriptor_0E fun bs b0 b1 hbs => ?_
  rw [hbs]
  exact ⟨rfl, value16_le b0 b1⟩

end Sys2Proof.Proofs.ReadRegisters
end

section
/-! ## Proofs: the writes of the peripheral registers, the speed frames, the caller's `COLORCAL` -/

namespace Sys2Proof.Proofs.WriteRegisters

open Sys2Proof Sys2Proof.Machine

variable {s u : State} {i : Instr} {op : Byte} {p : List Byte} {c : Int}

/-! ### The rows of the write table -/

/-- The frame a payload of its register's length stands for completes with that payload; the two speed registers are written
by the guard alone (R88, R156). -/
theorem writeCompletes_of_sendWriteFrame (hframe : sendWriteFrame op p = .ok i)
    (hwidth : payloadWidth (Config.brakePayload .caller).length op = some p.length)
    (hspeed : op ≠ 0x04#8 ∧ op ≠ 0x05#8) : WriteCompletes i op p := by
  obtain ⟨hne4, hne5⟩ := hspeed
  obtain ⟨i', hframe', hch, hread, hwire, haccepts⟩ := sendWriteFrame_of_width hwidth hne4 hne5
  obtain rfl : i' = i := Except.ok.inj (hframe'.symm.trans hframe)
  exact CommandCodec.writeCompletes hch hread (hwire .caller) haccepts

/-- Settles O38: the rows of opcodes 0x00 to 0x03 take three bytes, blue first. -/
theorem ledWritesComplete : Obligations.LedWritesComplete := by
  intro r g b
  refine ⟨?_, ?_, ?_, ?_⟩ <;> exact writeCompletes_of_sendWriteFrame rfl rfl (by decide)

/-- Settles O39: the rows of opcodes 0x07, 0x08 and 0x09 take one byte. -/
theorem oneByteWritesComplete : Obligations.OneByteWritesComplete := by
  intro t
  refine ⟨?_, ?_, ?_⟩ <;> exact writeCompletes_of_sendWriteFrame rfl rfl (by decide)

/-! ### The speed frames -/

/-- A speed frame's channel, its lack of a reply and its bytes, and that an operation that has come to it performs it when the
speed is in range (R135, R136). -/
theorem speed_frame (h : (i, op) ∈ [(Instr.wrMotor1 c, 0x04#8), (.wrMotor2 c, 0x05#8)]) :
    channelOf i = .gen ∧ replyWidth i = none ∧ (∀ ctx, wire ctx i = 0x81#8 :: op :: encLe16s c) ∧
      ∀ s : State, s.awaits i = true → speedInRange c = true → s.issues i = true := by
  simp only [List.mem_cons, Prod.mk.injEq, List.not_mem_nil, or_false] at h
  obtain ⟨rfl, rfl⟩ | ⟨rfl, rfl⟩ := h <;>
    exact ⟨rfl, rfl, fun _ => rfl, fun s hawaits hrange => by simp [State.issues, hawaits, hrange]⟩

theorem awaits_of_todo {b : Busy} {rest : List Task} (hs : s.seq = .busy b) (hmicros : b.micros = [])
    (htodo : b.todo = .frame i :: rest) : s.awaits i = true := by
  simp [State.awaits, Busy.awaits, hs, hmicros, htodo]

/-- Settles O41: the operation has come to the frame and the speed is in range, so it is performed, and `exec_issued_live`
says what it leaves. -/
theorem speedFramesComplete : Obligations.SpeedFramesComplete := by
  intro i op c hrow hlow hhigh s b k rest hs hmicros htodo hlive
  obtain ⟨hch, hreply, hwire, hissues⟩ := speed_frame hrow
  have hrange : speedInRange c = true := by simp [speedInRange, hlow, hhigh]
  obtain ⟨b', t, es, hexec, hseq, hop, hmicros', htodo', -, htrace, hacts, -, -, hgap, -, -, -, -, -, -, hm1, hm2⟩ :=
    exec_issued_live (hissues s (awaits_of_todo hs hmicros htodo) hrange) hs htodo hlive
  have hframe : frameActs (brakeContext s.seq) i s.incoming =
      .issue .gen :: .tx 0x81#8 :: .tx op :: (encLe16s c).map .tx := by
    simp [frameActs, hch, hwire, hreply]
  rw [hch] at hgap
  exact ⟨t, b', hexec, hseq, hmicros', htodo', hop, (since_eq htrace ▸ hacts).trans hframe, hgap, hm1, hm2⟩

/-! ### The caller's `COLORCAL` -/

/-- In a live environment an instruction of an idle block ends with the return of its own operation, and the environment is
still live (R85, R90). -/
theorem exec_accepted_returns (haccepts : s.accepts i = true) (hlive : s.live) :
    ∃ b u, exec i s = .next (finish b u) ∧ b.op = .instr i ∧ u.live := by
  obtain ⟨-, hexec⟩ := exec_of_accepts haccepts
  obtain ⟨b, u, hran, hlive', hrun⟩ :=
    runMicros_live (frameMicros .caller i) (Busy.start (.instr i) []) (s := { s with answer := none }) hlive
  obtain ⟨-, hop, htodo, -⟩ := hran.moved
  rw [hrun, StuckFrames.settle_of_todo_nil htodo] at hexec
  exact ⟨_, u, hexec, hop, hlive'⟩

/-- On a running clock the caller's settle ends, at the reading it is owed until or later, and only the clock has moved
(R141). -/
theorem callerSettles_running (hclock : u.env.clockStops = none) :
    ∃ w, u.callerSettles = some w ∧ u.settleUntil ≤ w.now ∧ w.trace = u.trace ∧ w.seq = u.seq := by
  obtain ⟨w, hw, -⟩ := await_running (p := fun t => decide (u.settleUntil ≤ t)) (e := u.settleUntil) hclock
  obtain ⟨-, hended, hmoved, -⟩ := await_some (fun _ => decide_eq_true) hw
  exact ⟨w, hw, of_decide_eq_true hended, by rw [hmoved], by rw [hmoved]⟩

/-- Where the frame is completed, `COLORCAL` goes on with the caller's settle (R141). -/
theorem colorCalOp_of_completed {t : Byte} (hexec : exec (.wrColorCal t) s = .next u) (hidle : u.seq = .idle) :
    colorCalOp t s = u.callerSettles := by
  simp only [colorCalOp, hexec, hidle, if_true]

/-- Settles O54: the return of `WR.COLORCAL` records a settle of 200, and the caller's wait ends no earlier. -/
theorem colorCalSettlesWithTheCaller : Obligations.ColorCalSettlesWithTheCaller := by
  intro t s hs hlive
  have haccepts : s.accepts (.wrColorCal t) = true := by simp [State.accepts, hs]
  obtain ⟨b, v, hexec, hop, hlive'⟩ := exec_accepted_returns haccepts hlive
  have howed : (finish b v).settleUntil = (finish b v).now + 200 := by
    rw [finish_settleUntil, hop]; rfl
  obtain ⟨w, hsettles, hended, htrace, hseq⟩ := callerSettles_running (u := finish b v) hlive'.1
  exact ⟨finish b v, w, hexec, rfl, howed, (colorCalOp_of_completed hexec rfl).trans hsettles, howed ▸ hended, htrace,
    hseq⟩

end Sys2Proof.Proofs.WriteRegisters
end

section
/-! ## Proofs: the motor guard `SETSPEED`: its clamp, its reversal test, its steps and what they put on the wire -/

namespace Sys2Proof.Proofs.MotorGuard

open Sys2Proof Sys2Proof.Machine

variable {s s' : State} {b : Busy} {m m' : Motor} {c v x : Int} {op : Byte} {rest : List Task}

/-! ### The clamp and the reversal test -/

/-- A speed in range is its own clamp (R150). -/
theorem clampSpeed_of_range (hlow : -1023 ≤ v) (hhigh : v ≤ 1023) : clampSpeed v = v := by
  rw [Effects.clampSpeed_eq]; omega

theorem clampSpeed_range (v : Int) : -1023 ≤ clampSpeed v ∧ clampSpeed v ≤ 1023 := by
  rw [Effects.clampSpeed_eq]; omega

theorem clampSpeed_clampSpeed (v : Int) : clampSpeed (clampSpeed v) = clampSpeed v :=
  clampSpeed_of_range (clampSpeed_range v).1 (clampSpeed_range v).2

/-- The range has 0 strictly inside, so the clamp moves no speed across it (R150). -/
theorem sign_clampSpeed (v : Int) : (clampSpeed v).sign = v.sign := by
  rw [Effects.clampSpeed_eq]
  obtain hneg | rfl | hpos := lt_trichotomy v 0
  · rw [Int.sign_eq_neg_one_of_neg hneg, Int.sign_eq_neg_one_of_neg (by omega)]
  · rfl
  · rw [Int.sign_eq_one_of_pos hpos, Int.sign_eq_one_of_pos (by omega)]

/-- Settles O45: the clamp written with `max` and `min`, outside the range and in it. -/
theorem clampKeepsRangeAndSign : Obligations.ClampKeepsRangeAndSign := by
  intro v
  obtain ⟨hlow, hhigh⟩ := clampSpeed_range v
  refine ⟨fun habove => ?_, fun hbelow => ?_, clampSpeed_of_range, hlow, hhigh, sign_clampSpeed v⟩
  · rw [Effects.clampSpeed_eq]; omega
  · rw [Effects.clampSpeed_eq]; omega

/-- The reversal test by the signs of the two speeds (R151): of two nonzero speeds, the signs differ where one is positive and the
other negative. -/
theorem isReversal_iff (c p : Int) : isReversal c p = true ↔ (0 < p ∧ c < 0 ∨ p < 0 ∧ 0 < c) := by
  simp only [isReversal, Bool.and_eq_true, decide_eq_true_eq]
  constructor
  · rintro ⟨⟨hsign, hc⟩, hp⟩
    obtain hc | hc := lt_or_gt_of_ne hc <;> obtain hp | hp := lt_or_gt_of_ne hp
    · exact absurd ((Int.sign_eq_neg_one_of_neg hc).trans (Int.sign_eq_neg_one_of_neg hp).symm) hsign
    · exact .inl ⟨hp, hc⟩
    · exact .inr ⟨hp, hc⟩
    · exact absurd ((Int.sign_eq_one_of_pos hc).trans (Int.sign_eq_one_of_pos hp).symm) hsign
  · rintro (⟨hp, hc⟩ | ⟨hp, hc⟩)
    · simp [Int.sign_eq_one_of_pos hp, Int.sign_eq_neg_one_of_neg hc, hc.ne, hp.ne']
    · simp [Int.sign_eq_neg_one_of_neg hp, Int.sign_eq_one_of_pos hc, hc.ne', hp.ne]

/-- The reversal test by the sign product, which is -1 where the product of the speeds is negative (R151). -/
theorem isReversal_iff_sign_mul (c p : Int) : isReversal c p = true ↔ c.sign * p.sign = -1 := by
  rw [isReversal_iff, ← Int.sign_mul, Int.sign_eq_neg_one_iff_neg, mul_neg_iff]
  tauto

/-- Settles O46: the test by the signs of the two speeds, and by their sign product. -/
theorem reversalIsStrictSignChange : Obligations.ReversalIsStrictSignChange :=
  fun c p => ⟨isReversal_iff c p, isReversal_iff_sign_mul c p⟩

/-- With a reversal `SETSPEED` brakes and waits first (R151). -/
theorem setSpeedTasks_of_reversal {p : Int} (h : c.sign * p.sign = -1) (m : Motor) :
    setSpeedTasks m c p = brakeTasks ++ speedTasks m c := by
  rw [setSpeedTasks, if_pos ((isReversal_iff_sign_mul c p).mpr h)]

/-- Without a reversal `SETSPEED` begins with the speed frame (R152). -/
theorem setSpeedTasks_of_no_reversal {p : Int} (h : c.sign * p.sign ≠ -1) (m : Motor) :
    setSpeedTasks m c p = speedTasks m c := by
  rw [setSpeedTasks, if_neg (mt (isReversal_iff_sign_mul c p).mp h), List.nil_append]

/-! ### Where a speed frame is performed -/

/-- An idle block refuses every speed frame (R156). -/
theorem exec_speedInstr_idle (hs : s.seq = .idle) (m : Motor) (c : Int) :
    exec (speedInstr m c) s = .refused .motorWriteBypassesGuard := by
  cases m <;> simp only [speedInstr, exec, execWrMotor1, execWrMotor2, speedFrame, hs]

/-- Settles O42: both motors' frames. -/
theorem directSpeedFramesRefused : Obligations.DirectSpeedFramesRefused :=
  fun _ c hs => ⟨exec_speedInstr_idle hs .m1 c, exec_speedInstr_idle hs .m2 c⟩

theorem speedInstr_inj {c' : Int} (h : speedInstr m c = speedInstr m' c') : m = m' ∧ c = c' := by
  cases m <;> cases m' <;> cases h <;> exact ⟨rfl, rfl⟩

/-- A speed frame is step 3 of its motor's `SETSPEED`, carries the clamped speed, and only the record is left after it (R152,
R155). -/
theorem onPlan_speedFrame (h : b.onPlan = true) (ht : b.todo = .frame (speedInstr m c) :: rest) :
    ∃ v, b.op = .setSpeed m v c ∧ c = clampSpeed v ∧ rest = [.record m c] := by
  obtain ⟨m', v, hop, hsuf⟩ | ⟨-, hsuf⟩ := Invariant.onPlan_todo_cons h ht
  · have hbrake : speedInstr m c ≠ .wrBrake none := by cases m <;> exact Instr.noConfusion
    obtain ⟨hframe, hrest⟩ :
        speedInstr m c = speedInstr m' (clampSpeed v) ∧ rest = [.record m' (clampSpeed v)] := by
      simpa [brakeTasks, speedTasks, List.suffix_cons_iff, hbrake] using hsuf
    obtain ⟨rfl, rfl⟩ := speedInstr_inj hframe
    exact ⟨v, hop, rfl, hrest⟩
  · cases m <;> simp [speedInstr, retryTasks, handshakeTasks, resetTasks, List.suffix_cons_iff] at hsuf

/-- Settles O43: an idle block refuses the frame, and of a busy one's plan it is step 3 of its motor's `SETSPEED`. -/
theorem speedFramesOnlyFromTheGuard : Obligations.SpeedFramesOnlyFromTheGuard := by
  intro s t c i m hrow hinv hexec
  obtain rfl : i = speedInstr m c := by
    simp only [List.mem_cons, Prod.mk.injEq, List.not_mem_nil, or_false] at hrow
    obtain ⟨rfl, rfl⟩ | ⟨rfl, rfl⟩ := hrow <;> rfl
  obtain ⟨-, -, -, -, ⟨hidle, -⟩ | ⟨b, hbusy, hawaits, -⟩⟩ := exec_next_cases hexec
  · rw [exec_speedInstr_idle hidle] at hexec; cases hexec
  · have htodo := StuckFrames.todo_of_awaits hawaits
    obtain ⟨v, hop, hclamp, hrest⟩ := onPlan_speedFrame (Invariant.onPlan_of_Inv hinv hbusy).1 htodo
    simp only [Busy.awaits, Bool.and_eq_true, List.isEmpty_iff] at hawaits
    exact ⟨b, v, hbusy, hop, hclamp.trans (Effects.clampSpeed_eq v), hawaits.1, hrest ▸ htodo⟩

/-! ### The steps of `SETSPEED` -/

/-- An idle block accepts a `SETSPEED` of either motor and begins the steps of the clamped speed (R150, R154). -/
theorem step_setSpeed {n : Nat} (hs : s.seq = .idle) (hp : s.port = some (.setSpeed n v)) (hm : motorOf n = some m) :
    step s = .next (beginOp (.setSpeed m v (clampSpeed v)) (setSpeedTasks m (clampSpeed v) (s.lastSpeed m))
      s.withdraw) := by
  have hop : (Request.setSpeed n v).operation = .ok (.setSpeed m v (clampSpeed v)) := by
    simp only [Request.operation, hm]
  rw [step_request hp hs, accept, hop]
  cases m <;> rfl

/-- Settles O57: the clamp as in O45, and two requests whose speeds have the same clamp begin the same steps. -/
theorem setSpeedUsesTheClampedSpeed : Obligations.SetSpeedUsesTheClampedSpeed := by
  intro v
  obtain ⟨habove, hbelow, hinside, hlow, hhigh, hsign⟩ := clampKeepsRangeAndSign v
  refine ⟨habove, hbelow, hinside, ⟨hlow, hhigh⟩, hsign, fun s n m hs hm => ?_⟩
  have hspeed : ∀ r, State.lastSpeed { s with port := some r } m = s.lastSpeed m := fun r => by cases m <;> rfl
  have hstep (w : Int) := step_setSpeed (s := { s with port := some (.setSpeed n w) }) hs rfl hm
  have hclamped := hstep (clampSpeed v)
  rw [clampSpeed_clampSpeed] at hclamped
  exact ⟨_, _, _, _, hstep v, hclamped, rfl, rfl, rfl, rfl, rfl, by simp only [Busy.start, hspeed],
    by simp only [Busy.start, hspeed], by simp only [beginOp, State.withdraw]⟩

/-- The record of the speed, the last step of `SETSPEED`: the operation returns, and nothing but that motor's register has been
written (R153). -/
theorem step_record (hp : s.port = none) (hs : s.seq = .busy b) (hmicros : b.micros = [])
    (htodo : b.todo = [.record m c]) :
    step s = .next (finish { b with micros := [], todo := [] } (s.tick.setLastSpeed m c)) := by
  simp only [step_busy hp hs, advance, hmicros, htodo, settle]

/-! ### The other motor's speed -/

/-- The two states differ at most in the recorded speed of `m`, which is `x` in the second. -/
def SpeedSet (m : Motor) (x : Int) (s s' : State) : Prop := s' = s.setLastSpeed m x

/-- No micro-step looks at a recorded speed or writes one. -/
theorem lockstep_speedSet (m : Motor) (x : Int) : Noninterference.Lockstep (SpeedSet m x) fun _ => True where
  seq := by rintro s _ rfl; simp
  now := by rintro s _ rfl; simp
  env := by rintro s _ rfl; simp
  stamp := by rintro s _ ch - rfl; simp
  move := by
    rintro s _ k - rfl t v es
    cases k with
    | gate ch => cases ch <;> cases m <;> rfl
    | _ => cases m <;> rfl
  setSeq := by rintro s _ rfl q; cases m <;> rfl
  clearAnswer := by rintro s _ rfl; cases m <;> rfl
  finish := by rintro s _ rfl b; cases m <;> rfl

theorem SpeedSet.tick (h : SpeedSet m x s s') : SpeedSet m x s.tick s'.tick := by
  obtain rfl := h
  cases m <;> rfl

/-- Writes of different motors' speeds commute (R157). -/
theorem SpeedSet.setLastSpeed (h : SpeedSet m x s s') (hne : m ≠ m') (c : Int) :
    SpeedSet m x (s.setLastSpeed m' c) (s'.setLastSpeed m' c) := by
  obtain rfl := h
  match m, m', hne with
  | .m1, .m2, _ => rfl
  | .m2, .m1, _ => rfl

/-- A busy block that does not record the speed of `m` goes on in lockstep whatever that speed is. -/
theorem SpeedSet.advance (h : SpeedSet m x s s') (hrecord : ∀ k c rest, b.todo = .record k c :: rest → m ≠ k) :
    Noninterference.Alike (SpeedSet m x) (advance b s) (advance b s') := by
  have L := lockstep_speedSet m x
  unfold Machine.advance
  split
  · rename_i k ms _
    obtain ⟨hs, hs'⟩ | ⟨b', u, u', hs, hs', hu⟩ := L.microStep (m := k) trivial h b
    · simp only [hs, hs']
      exact .next h.tick
    · simp only [hs, hs']
      exact .next (L.runMicros (fun _ _ => trivial) hu b')
  · split
    · exact .next (L.finish h b)
    · exact L.exec (fun _ _ _ => trivial) h
    · exact .next (L.runMicros (fun _ _ => trivial) h _)
    · rename_i htodo
      exact .next (L.settle (h.tick.setLastSpeed (hrecord _ _ _ htodo) _) _)
    · exact .next (L.settle h.tick _)
    · have hready : SpeedSet m x { s.tick with ready := true } { s'.tick with ready := true } := by
        obtain rfl := h
        cases m <;> rfl
      exact .next (L.settle hready _)

theorem eq_mapNext_of_alike {o o' : Host.Outcome State Fault Refusal}
    (h : Noninterference.Alike (SpeedSet m x) o o') : o' = mapNext (fun t => t.setLastSpeed m x) o := by
  cases h with
  | next h => exact congrArg Host.Outcome.next h
  | refused r => rfl

/-- Settles O22: the steps begun depend on the motor's own speed, and on plan only that motor's speed is recorded. -/
theorem motorsAreIndependent : Obligations.MotorsAreIndependent := by
  intro s m m' x hne hcase
  obtain ⟨hs, n, v, hp, hm⟩ | ⟨hp, b, v, c, hs, hop, hplan⟩ := hcase
  · rw [step_setSpeed hs hp hm, step_setSpeed (by simpa using hs) (by simpa using hp) hm,
      lastSpeed_setLastSpeed_other s m' x m hne.symm]
    cases m' <;> rfl
  · have hrecord : ∀ k d rest, b.todo = .record k d :: rest → m' ≠ k := by
      intro k d rest htodo
      obtain ⟨w, hop', -⟩ := Invariant.onPlan_record hplan htodo
      obtain ⟨rfl, -⟩ := Operation.setSpeed.inj (hop.symm.trans hop')
      exact hne
    rw [step_busy hp hs, step_busy (by simpa using hp) (by simpa using hs)]
    exact eq_mapNext_of_alike (SpeedSet.advance rfl hrecord)

end Sys2Proof.Proofs.MotorGuard
end

section
/-! ## Proofs: whole runs of `SETSPEED` in a live environment, without a reversal and with one -/

namespace Sys2Proof.Proofs.GuardRuns

open Sys2Proof Sys2Proof.Machine

variable {s t u : State} {b : Busy} {m : Motor} {c v : Int} {op : Byte} {i : Instr} {k : Task} {rest : List Task}

/-! ### The rows of the two motors -/

/-- The context of the brake frame a motor's guard sends (R137). -/
def motorContext : Motor → BrakeContext
  | .m1 => .m1
  | .m2 => .m2

theorem brakeContext_of_setSpeed (hs : s.seq = .busy b) (hop : b.op = .setSpeed m v c) :
    brakeContext s.seq = motorContext m := by
  simp only [brakeContext, hs, hop]
  cases m <;> rfl

/-- Each motor's number names it, and its opcode is that of its speed frame (R152). -/
theorem motor_row {n : Nat} (h : (n, m, op) ∈ [(1, Motor.m1, 0x04#8), (2, .m2, 0x05#8)]) (c : Int) :
    motorOf n = some m ∧ (speedInstr m c, op) ∈ [(Instr.wrMotor1 c, 0x04#8), (.wrMotor2 c, 0x05#8)] := by
  simp only [List.mem_cons, Prod.mk.injEq, List.not_mem_nil, or_false] at h
  obtain ⟨rfl, rfl, rfl⟩ | ⟨rfl, rfl, rfl⟩ := h
  · exact ⟨rfl, List.mem_cons_self⟩
  · exact ⟨rfl, List.mem_cons_of_mem _ List.mem_cons_self⟩

theorem motor_row_context {n : Nat} {ctx : BrakeContext}
    (h : (n, m, ctx, op) ∈ [(1, Motor.m1, BrakeContext.m1, 0x04#8), (2, .m2, .m2, 0x05#8)]) :
    (n, m, op) ∈ [(1, Motor.m1, 0x04#8), (2, .m2, 0x05#8)] ∧ ctx = motorContext m := by
  simp only [List.mem_cons, Prod.mk.injEq, List.not_mem_nil, or_false] at h ⊢
  obtain ⟨rfl, rfl, rfl, rfl⟩ | ⟨rfl, rfl, rfl, rfl⟩ := h
  · exact ⟨.inl ⟨rfl, rfl, rfl⟩, rfl⟩
  · exact ⟨.inr ⟨rfl, rfl, rfl⟩, rfl⟩

/-! ### Step by step -/

/-- In a live environment with no request at the port, `SETSPEED m` is between two of its steps and has `todo` left. -/
def Guarding (m : Motor) (v c : Int) (todo : List Task) (s : State) : Prop :=
  s.port = none ∧ s.live ∧ ∃ b, s.seq = .busy b ∧ b.op = .setSpeed m v c ∧ b.micros = [] ∧ b.todo = todo

/-- The recorded speeds and the display stamp are as they were. -/
def Unwritten (s t : State) : Prop := (∀ m, t.lastSpeed m = s.lastSpeed m) ∧ t.lastIssueDisp = s.lastIssueDisp

/-- The speed `c` is recorded for `m`, the other speed and the display stamp are as they were (R153, R157). -/
def Recorded (m : Motor) (c : Int) (s t : State) : Prop :=
  t.lastSpeed m = c ∧ (∀ m', m' ≠ m → t.lastSpeed m' = s.lastSpeed m') ∧ t.lastIssueDisp = s.lastIssueDisp

theorem Unwritten.trans (h : Unwritten s t) (h' : Unwritten t u) : Unwritten s u :=
  ⟨fun m => (h'.1 m).trans (h.1 m), h'.2.trans h.2⟩

theorem Unwritten.recorded (h : Unwritten s t) (h' : Recorded m c t u) : Recorded m c s u := by
  obtain ⟨hsame, hother, hdisp⟩ := h'
  exact ⟨hsame, fun m' hne => (hother m' hne).trans (h.1 m'), hdisp.trans h.2⟩

/-- The events a step adds lie between its two readings (R14, R21). -/
theorem step_within (h : step s = .next t) {es : List Event} (htrace : t.trace = s.trace ++ es) {e : Event}
    (he : e ∈ es) : s.now ≤ e.reading ∧ e.reading ≤ t.now := by
  obtain ⟨-, es', htrace', hwithin, -⟩ := Effects.step_movesOn h
  obtain rfl : es' = es := List.append_cancel_left (htrace'.symm.trans htrace)
  exact (reading_within hwithin).2 e he

/-- Accepting `SETSPEED` puts nothing on the wire and writes no register. -/
theorem guard_begins {n : Nat} (hs : s.seq = .idle) (hlive : s.live) (hp : s.port = some (.setSpeed n v))
    (hm : motorOf n = some m) :
    ∃ t, step s = .next t ∧ Guarding m v (clampSpeed v) (setSpeedTasks m (clampSpeed v) (s.lastSpeed m)) t ∧
      t.trace = s.trace ∧ Unwritten s t :=
  ⟨_, MotorGuard.step_setSpeed hs hp hm, ⟨rfl, hlive, _, rfl, rfl, rfl, rfl⟩, rfl, fun m => by cases m <;> rfl, rfl⟩

/-- A general frame of the guard, with a step left after it, is sent whole (R91). -/
theorem guard_frame (h : Guarding m v c (.frame i :: k :: rest) s) (hch : channelOf i = .gen)
    (hissues : s.awaits i = true → s.issues i = true) :
    ∃ t es, step s = .next t ∧ Guarding m v c (k :: rest) t ∧ t.trace = s.trace ++ es ∧
      acts es = frameActs (motorContext m) i s.incoming ∧ Unwritten s t := by
  obtain ⟨hp, hlive, b, hs, hop, hmicros, htodo⟩ := h
  obtain ⟨b', t, es, hexec, hseq, hop', hmicros', htodo', hlive', htrace, hacts, -⟩ :=
    exec_issued_live (hissues (WriteRegisters.awaits_of_todo hs hmicros htodo)) hs htodo hlive
  have hstep : step s = .next t := by rw [step_busy hp hs, Frames.advance_frame hmicros htodo, hexec]
  obtain ⟨hdisp, hm1, hm2, hport⟩ := CommandCodec.exec_gen_leaves hexec hch
  rw [brakeContext_of_setSpeed hs hop] at hacts
  refine ⟨t, es, hstep, ⟨hport.trans hp, hlive', b', hseq, hop'.trans hop, hmicros', htodo'⟩, htrace, hacts,
    fun m => ?_, hdisp⟩
  cases m
  · exact hm1
  · exact hm2

/-- A delay of the guard, with a step left after it, takes at least its length and puts nothing on the wire (R76). -/
theorem guard_delay {d : Nat} (h : Guarding m v c (.delay d :: k :: rest) s) :
    ∃ t, step s = .next t ∧ Guarding m v c (k :: rest) t ∧ t.trace = s.trace ∧ s.now + d ≤ t.now ∧ Unwritten s t := by
  obtain ⟨hp, hlive, b, hs, hop, hmicros, htodo⟩ := h
  obtain ⟨b', t, hstep, hseq, hop', hmicros', htodo', -, hlive', hwait, hmoved, -⟩ :=
    delay_live hp hs hmicros htodo hlive
  refine ⟨t, hstep, ⟨by rw [hmoved]; exact hp, hlive', b', hseq, hop'.trans hop, hmicros', htodo'⟩, by rw [hmoved], hwait,
    fun m => ?_, by rw [hmoved]⟩
  rw [hmoved]
  cases m <;> rfl

/-- The record is the guard's last step: the block is idle then, and nothing more is on the wire (R153). -/
theorem guard_records (h : Guarding m v c [.record m c] s) :
    ∃ t, step s = .next t ∧ t.seq = .idle ∧ t.port = none ∧ t.answer = some .done ∧ t.trace = s.trace ∧
      Recorded m c s t := by
  obtain ⟨hp, -, b, hs, hop, hmicros, htodo⟩ := h
  refine ⟨_, MotorGuard.step_record hp hs hmicros htodo, rfl, by simpa using hp, by simp [hop, answerOf], by simp,
    by simp, fun m' hne => ?_, by simp⟩
  simp [lastSpeed_setLastSpeed_other _ _ _ _ hne]

/-- Steps 3 and 4 of `SETSPEED`: the speed frame of the clamped speed, then its record (R152, R153). -/
theorem guard_sends_and_records (h : Guarding m v c (speedTasks m c) s) (hrange : speedInRange c = true)
    (hrow : (speedInstr m c, op) ∈ [(Instr.wrMotor1 c, 0x04#8), (.wrMotor2 c, 0x05#8)]) :
    ∃ t es, Host.Core.run Sys2Proof.core 2 s = .next t ∧ t.seq = .idle ∧ t.port = none ∧ t.answer = some .done ∧
      t.trace = s.trace ++ es ∧ acts es = .issue .gen :: .tx 0x81#8 :: .tx op :: (encLe16s c).map .tx ∧
      (∀ e ∈ es, s.now ≤ e.reading) ∧ Recorded m c s t := by
  obtain ⟨hch, hreply, hwire, hissues⟩ := WriteRegisters.speed_frame hrow
  obtain ⟨u, es, hframe, hguard, htrace, hacts, hkept⟩ := guard_frame h hch fun hawaits => hissues s hawaits hrange
  obtain ⟨t, hrecord, hidle, hport, hanswer, hquiet, hrecorded⟩ := guard_records hguard
  have hrun : Host.Core.run Sys2Proof.core 2 s = .next t := by
    rw [run_succ 1 hframe, run_succ 0 hrecord, run_zero]
  exact ⟨t, es, hrun, hidle, hport, hanswer, hquiet.trans htrace,
    hacts.trans (by simp [frameActs, hch, hwire, hreply]), fun e he => (step_within hframe htrace he).1,
    hkept.recorded hrecorded⟩

/-- Step 2 of `SETSPEED` in case of a reversal: the brake frame of the motor's context, then at least 10 time-units (R151). -/
theorem guard_brakes (h : Guarding m v c (brakeTasks ++ speedTasks m c) s) :
    ∃ t es, Host.Core.run Sys2Proof.core 2 s = .next t ∧ Guarding m v c (speedTasks m c) t ∧ t.trace = s.trace ++ es ∧
      acts es = .issue .gen :: .tx 0x81#8 :: .tx 0x06#8 :: (Config.brakePayload (motorContext m)).map .tx ∧
      (∀ e ∈ es, e.reading + 10 ≤ t.now) ∧ Unwritten s t := by
  obtain ⟨u, es, hframe, hguard, htrace, hacts, hkept⟩ :=
    guard_frame (i := .wrBrake none) h rfl fun hawaits => by simp [State.issues, hawaits]
  obtain ⟨t, hdelay, hguard', hquiet, hwait, hkept'⟩ := guard_delay hguard
  have hrun : Host.Core.run Sys2Proof.core 2 s = .next t := by
    rw [run_succ 1 hframe, run_succ 0 hdelay, run_zero]
  refine ⟨t, es, hrun, hguard', hquiet.trans htrace, hacts.trans ?_, fun e he => ?_, hkept.trans hkept'⟩
  · simp [frameActs, channelOf, wire, writeFrame, replyWidth, readOpcode]
  · exact (Nat.add_le_add_right (step_within hframe htrace he).2 10).trans hwait

/-! ### The obligations -/

/-- Settles O47: the request is accepted, and steps 3 and 4 are all there is to do. -/
theorem setSpeedWithoutReversal : Obligations.SetSpeedWithoutReversal := by
  intro s n m v c op hs hlive hp hrow hclamp hsign
  obtain rfl : c = clampSpeed v := hclamp.trans (Effects.clampSpeed_eq v).symm
  obtain ⟨hm, hspeed⟩ := motor_row hrow (clampSpeed v)
  obtain ⟨s₁, hbegin, hguard, hquiet, hkept⟩ := guard_begins hs hlive hp hm
  rw [MotorGuard.setSpeedTasks_of_no_reversal hsign] at hguard
  obtain ⟨t, es, hrun, hidle, hport, hanswer, htrace, hacts, -, hrecorded⟩ :=
    guard_sends_and_records hguard (clampSpeed_inRange v) hspeed
  rw [hquiet] at htrace
  exact ⟨t, (run_succ 2 hbegin).trans hrun, hidle, hport, hanswer, (since_eq htrace).symm ▸ hacts,
    hkept.recorded hrecorded⟩

/-- Settles O48: the request is accepted, then step 2 brakes and waits, and steps 3 and 4 send and record. -/
theorem setSpeedWithReversal : Obligations.SetSpeedWithReversal := by
  intro s n m ctx v c op hs hlive hp hrow hclamp hsign
  obtain rfl : c = clampSpeed v := hclamp.trans (Effects.clampSpeed_eq v).symm
  obtain ⟨hmotor, rfl⟩ := motor_row_context hrow
  obtain ⟨hm, hspeed⟩ := motor_row hmotor (clampSpeed v)
  obtain ⟨s₁, hbegin, hguard, hquiet, hkept⟩ := guard_begins hs hlive hp hm
  rw [MotorGuard.setSpeedTasks_of_reversal hsign] at hguard
  obtain ⟨s₂, brake, hrun, hguard', htrace, hbrake, hbefore, hkept'⟩ := guard_brakes hguard
  obtain ⟨t, speed, hrun', hidle, hport, hanswer, htrace', hspeedActs, hafter, hrecorded⟩ :=
    guard_sends_and_records hguard' (clampSpeed_inRange v) hspeed
  rw [htrace, hquiet, List.append_assoc] at htrace'
  exact ⟨t, brake, speed, (run_succ 4 hbegin).trans ((run_add 2 2 hrun).trans hrun'), hidle, hport, hanswer,
    since_eq htrace', hbrake, hspeedActs, fun e he f hf => (hbefore e he).trans (hafter f hf),
    (hkept.trans hkept').recorded hrecorded⟩

end Sys2Proof.Proofs.GuardRuns
end

section
/-! ## Proofs: whole runs of `INIT` in a live environment, until the peer acknowledges and as long as it does not -/

namespace Sys2Proof.Proofs.Handshake

open Sys2Proof Sys2Proof.Machine

variable {s t u : State} {es fs : List Event} {m n : Nat} {i : Instr} {is : List Instr} {k : Task} {rest : List Task}
  {bs : List Byte} {r : Byte}

/-! ### Runs that keep the registers -/

/-- `n` steps lead from `s` to `t`, put `es` on the wire, and carry `ready` and the recorded speeds on. -/
structure Runs (n : Nat) (s : State) (es : List Event) (t : State) : Prop where
  run : Host.Core.run Sys2Proof.core n s = .next t
  trace : t.trace = s.trace ++ es
  carries : Effects.Carries s t

theorem Runs.of_step (h : step s = .next t) (htrace : t.trace = s.trace ++ es) (hcarries : Effects.Carries s t) :
    Runs 1 s es t :=
  ⟨by rw [run_succ 0 h, run_zero], htrace, hcarries⟩

theorem Runs.refl (s : State) : Runs 0 s [] s := ⟨rfl, (List.append_nil _).symm, .refl s⟩

theorem Runs.trans (h : Runs m s es t) (h' : Runs n t fs u) : Runs (m + n) s (es ++ fs) u :=
  ⟨(run_add m n h.run).trans h'.run, by rw [h'.trace, h.trace, List.append_assoc], h.carries.trans h'.carries⟩

theorem Runs.since (h : Runs n s es t) : s.since t = es := since_eq h.trace

/-- The events of a run lie between its two readings (R14, R21). -/
theorem Runs.within (h : Runs n s es t) : ∀ e ∈ es, s.now ≤ e.reading ∧ e.reading ≤ t.now := by
  obtain ⟨es', htrace, hwithin, -⟩ := h.carries.events
  obtain rfl : es' = es := List.append_cancel_left (htrace.symm.trans h.trace)
  exact (reading_within hwithin).2

/-! ### The stamps of a run -/

/-- A stamp is the reading of its gate's event. -/
theorem issue_mem_of_issueStamps {ch : Channel} {x : Nat} (h : x ∈ issueStamps ch es) : .issue x ch ∈ es := by
  induction es with
  | nil => cases h
  | cons e es ih =>
    cases e with
    | tx a v => exact List.mem_cons_of_mem _ (ih h)
    | rx a j v => exact List.mem_cons_of_mem _ (ih h)
    | issue a c =>
      unfold issueStamps at h
      split at h <;> rename_i hc
      · obtain rfl | h := List.mem_cons.mp h
        · exact hc ▸ List.mem_cons_self
        · exact List.mem_cons_of_mem _ (ih h)
      · exact List.mem_cons_of_mem _ (ih h)

theorem Runs.stamps_within {ch : Channel} (h : Runs n s es t) :
    ∀ x ∈ issueStamps ch es, s.now ≤ x ∧ x ≤ t.now :=
  fun _ hx => h.within _ (issue_mem_of_issueStamps hx)

/-- A stretch that begins with a gate of the channel and has no other has one stamp. -/
theorem issueStamps_of_one_gate {ch : Channel} {as : List Act} (h : acts es = .issue ch :: as) (hno : .issue ch ∉ as) :
    ∃ x, issueStamps ch es = [x] := by
  obtain ⟨e, fs, rfl, he, hfs⟩ := List.map_eq_cons_iff.mp h
  obtain ⟨x, rfl⟩ : ∃ x, e = .issue x ch := by
    cases e <;> cases he
    exact ⟨_, rfl⟩
  have hnone : issueStamps ch fs = [] := Spacing.issueStamps_of_no_gate (by rwa [acts, hfs])
  exact ⟨x, by simp [issueStamps, hnone]⟩

/-- A stamp at least `d` before all the later ones keeps the list spaced. -/
theorem spaced_cons {d x : Nat} {stamps : List Nat} (h : spaced d stamps = true) (hfirst : ∀ y ∈ stamps, x + d ≤ y) :
    spaced d (x :: stamps) = true := by
  cases stamps with
  | nil => rfl
  | cons y stamps => simpa [spaced, h] using hfirst y List.mem_cons_self

/-! ### Step by step -/

/-- In a live environment with no request at the port, `INIT` is between two of its steps, has `todo` left and has last
received `bs`. -/
def Handshaking (todo : List Task) (bs : List Byte) (s : State) : Prop :=
  s.port = none ∧ s.live ∧
    ∃ b, s.seq = .busy b ∧ b.op = .init ∧ b.micros = [] ∧ b.todo = todo ∧ b.received = bs

/-- Accepting `INIT` puts nothing on the wire and begins the first attempt (R165). -/
theorem init_begins (hs : s.seq = .idle) (hlive : s.live) (hp : s.port = some .init) :
    ∃ t, Runs 1 s [] t ∧ Handshaking handshakeTasks [] t ∧ t.env = s.env :=
  ⟨beginOp .init handshakeTasks s.withdraw,
    .of_step (step_request hp hs) (List.append_nil _).symm (Effects.carries_handover s _ _ _),
    ⟨rfl, hlive, _, rfl, rfl, rfl, rfl, rfl⟩, rfl⟩

/-- A frame of `INIT`, with a step left after it, is sent whole, and a read's reply is received (R91). -/
theorem init_frame (h : Handshaking (.frame i :: k :: rest) bs s) (hissues : s.awaits i = true → s.issues i = true) :
    ∃ t es bs', Runs 1 s es t ∧ Handshaking (k :: rest) bs' t ∧ acts es = frameActs .init i s.incoming ∧
      (∀ w, replyWidth i = some w → bs' = s.incoming w) ∧
      t.env.replies = s.env.replies.drop ((replyWidth i).getD 0) := by
  obtain ⟨hp, hlive, b, hs, hop, hmicros, htodo, -⟩ := h
  obtain ⟨b', t, es, hexec, hseq, hop', hmicros', htodo', hlive', htrace, hacts, -, -, -, -, hreply, hreplies, -, hport,
    -⟩ :=
    exec_issued_live (hissues (WriteRegisters.awaits_of_todo hs hmicros htodo)) hs htodo hlive
  have hstep : step s = .next t := by rw [step_busy hp hs, Frames.advance_frame hmicros htodo, hexec]
  have hcontext : brakeContext s.seq = .init := by simp only [brakeContext, hs, hop]
  exact ⟨t, es, _, .of_step hstep htrace (Effects.carries_exec hexec),
    ⟨hport.trans hp, hlive', b', hseq, hop'.trans hop, hmicros', htodo', rfl⟩, hcontext ▸ hacts, hreply, hreplies⟩

/-- The acknowledgment test compares the whole byte: after 0xCA the reset sequence is next, else a retry (R166, R167). -/
theorem init_tests (h : Handshaking [.testAck] [r] s) :
    ∃ t, Runs 1 s [] t ∧ Handshaking (if r = 0xCA#8 then resetTasks else retryTasks) [r] t ∧
      t.env.replies = s.env.replies := by
  obtain ⟨hp, hlive, b, hs, hop, hmicros, htodo, hreceived⟩ := h
  have htest : (if isAck b.received then resetTasks else retryTasks) =
      if r = 0xCA#8 then resetTasks else retryTasks := by
    simp [hreceived, isAck]
  obtain ⟨k, rest, hnext⟩ : ∃ k rest, (if r = 0xCA#8 then resetTasks else retryTasks) = k :: rest := by
    split <;> exact ⟨_, _, rfl⟩
  have hstep : step s = .next { s.tick with
      seq := .busy { b with micros := [], todo := if r = 0xCA#8 then resetTasks else retryTasks } } := by
    simp only [step_busy hp hs, advance, hmicros, htodo, List.append_nil, htest]
    rw [StuckFrames.settle_of_todo_cons hnext]
  exact ⟨_, .of_step hstep (List.append_nil _).symm
      ((Effects.carries_tick s).trans (Effects.carries_handover s.tick _ s.port s.answer)),
    ⟨hp, hlive, _, rfl, hop, rfl, rfl, hreceived⟩, rfl⟩

/-- The pause after a failed attempt takes at least 200 time-units and puts nothing on the wire; then comes the next
attempt (R167, R169). -/
theorem init_pauses (h : Handshaking retryTasks bs s) :
    ∃ t, Runs 1 s [] t ∧ Handshaking handshakeTasks bs t ∧ t.env.replies = s.env.replies ∧ s.now + 200 ≤ t.now := by
  obtain ⟨hp, hlive, b, hs, hop, hmicros, htodo, hreceived⟩ := h
  obtain ⟨b', t, hstep, hseq, hop', hmicros', htodo', hreceived', hlive', hwait, hmoved, hreplies⟩ :=
    delay_live hp hs hmicros htodo hlive
  have hsame : t.trace = s.trace ∧ t.port = s.port ∧ t.ready = s.ready ∧ (∀ ch, t.lastIssue ch = s.lastIssue ch) ∧
      ∀ m, t.lastSpeed m = s.lastSpeed m := by
    rw [hmoved]
    exact ⟨rfl, rfl, rfl, fun ch => by cases ch <;> rfl, fun m => by cases m <;> rfl⟩
  obtain ⟨htrace, hport, hready, hstamps, hspeeds⟩ := hsame
  have hcarries : Effects.Carries s t :=
    ⟨.of_silent ((Nat.le_add_right _ _).trans hwait) htrace hstamps, hready, hspeeds⟩
  exact ⟨t, .of_step hstep (htrace.trans (List.append_nil _).symm) hcarries,
    ⟨hport.trans hp, hlive', b', hseq, hop'.trans hop, hmicros', htodo', hreceived'.trans hreceived⟩, hreplies, hwait⟩

/-- `INIT`'s last step sets `ready`, and the block is idle (R170). -/
theorem init_ends (h : Handshaking [.markReady] bs s) :
    ∃ t, step s = .next t ∧ t.seq = .idle ∧ t.ready = true ∧ t.port = none ∧ t.answer = some .done ∧
      t.trace = s.trace ∧ ∀ m, t.lastSpeed m = s.lastSpeed m := by
  obtain ⟨hp, -, b, hs, hop, hmicros, htodo, -⟩ := h
  have hstep : step s = .next (finish { b with micros := [], todo := [] } { s.tick with ready := true }) := by
    simp only [step_busy hp hs, advance, hmicros, htodo, settle]
  exact ⟨_, hstep, rfl, rfl, hp, by simp [hop, answerOf], rfl, fun m => by cases m <;> rfl⟩

/-! ### Attempts -/

/-- The wire acts of one attempt whose reply is `r` (R166). -/
def attemptActs (r : Byte) : List Act := [.issue .gen, .tx 0x80#8, .tx 0x00#8, .rx [r]]

/-- The diagnostic read of an attempt: opcode 0x00, and one byte received (R102, R166). -/
theorem init_reads (h : Handshaking handshakeTasks bs s) (hr : s.incoming 1 = [r]) :
    ∃ t es, Runs 1 s es t ∧ Handshaking [.testAck] [r] t ∧ acts es = attemptActs r ∧
      t.env.replies = s.env.replies.drop 1 := by
  have hwidth : replyWidth .rdTest = some 1 := rfl
  obtain ⟨t, es, bs', hruns, hafter, hacts, hreceived, hreplies⟩ := init_frame h ((read_frame rfl).2.2 s)
  rw [CommandCodec.frameActs_read rfl descriptor_00, hr] at hacts
  rw [hreceived 1 hwidth, hr] at hafter
  exact ⟨t, es, hruns, hafter, hacts, hreplies⟩

/-- One attempt: the read, and the test that says what comes next (R166, R167). -/
theorem init_attempts (h : Handshaking handshakeTasks bs s) (hr : s.incoming 1 = [r]) :
    ∃ t es, Runs 2 s es t ∧ Handshaking (if r = 0xCA#8 then resetTasks else retryTasks) [r] t ∧
      acts es = attemptActs r ∧ t.env.replies = s.env.replies.drop 1 := by
  obtain ⟨u, es, hread, hafter, hacts, hreplies⟩ := init_reads h hr
  obtain ⟨t, htest, hnext, hsame⟩ := init_tests hafter
  exact ⟨t, es, by simpa using hread.trans htest, hnext, hacts, hsame.trans hreplies⟩

/-- The scripted replies come first, in order (R33). -/
theorem incoming_one {replies : List Byte} (h : s.env.replies = r :: replies) : s.incoming 1 = [r] := by
  simp [State.incoming, Env.nextBytes, h]

/-- As long as the reply is not 0xCA there is one more attempt, at least 200 time-units after the last; the first 0xCA leads
to the reset sequence (R165 to R169). -/
theorem init_reads_until_ack {fails more : List Byte} (hfails : ∀ r ∈ fails, r ≠ 0xCA#8)
    (h : Handshaking handshakeTasks bs s) (hreplies : s.env.replies = fails ++ 0xCA#8 :: more) :
    ∃ t es bs', Runs (3 * fails.length + 2) s es t ∧ Handshaking resetTasks bs' t ∧
      acts es = (fails ++ [0xCA#8]).flatMap attemptActs ∧ spaced 200 (issueStamps .gen es) = true := by
  induction fails generalizing s bs with
  | nil =>
    obtain ⟨t, es, hruns, hnext, hacts, -⟩ := init_attempts h (incoming_one hreplies)
    obtain ⟨x, hx⟩ := issueStamps_of_one_gate hacts (by simp)
    exact ⟨t, es, _, hruns, hnext, by simpa using hacts, hx ▸ rfl⟩
  | cons r fails ih =>
    obtain ⟨hr, hfails⟩ := List.forall_mem_cons.mp hfails
    obtain ⟨u, es, hattempt, hnext, hacts, hdrop⟩ := init_attempts h (incoming_one hreplies)
    rw [if_neg hr] at hnext
    obtain ⟨v, hpause, hagain, hsame, hwait⟩ := init_pauses hnext
    obtain ⟨t, fs, bs', hruns, hreset, hacts', hspaced⟩ := ih hfails hagain (by rw [hsame, hdrop, hreplies]; rfl)
    obtain ⟨x, hx⟩ := issueStamps_of_one_gate hacts (by simp)
    have hpast : x ≤ u.now := (hattempt.stamps_within x (hx ▸ List.mem_singleton_self x)).2
    refine ⟨t, es ++ fs, bs', ?_, hreset, by simp [hacts, hacts'], ?_⟩
    · have hsteps : 3 * (r :: fails).length + 2 = 2 + 1 + (3 * fails.length + 2) := by rw [List.length_cons]; omega
      rw [hsteps, ← List.append_nil es]
      exact (hattempt.trans hpause).trans hruns
    · rw [issueStamps_append, hx]
      refine spaced_cons hspaced fun y hy => ?_
      have := (hruns.stamps_within y hy).1
      omega

/-! ### The reset sequence -/

/-- The frames of the reset sequence, in order (R168). -/
def resetFrames : List Instr :=
  [.wrLed1 0#8 0#8 0#8, .wrLed2 0#8 0#8 0#8, .wrLed3 0#8 0#8 0#8, .wrLed4 0#8 0#8 0#8, .wrBrake none,
    .wrFill (fillFlag false), .disp Config.banner]

theorem resetTasks_eq : resetTasks = resetFrames.map .frame ++ [.markReady] := rfl

/-- None of them has a reply, and an operation that has come to one performs it. -/
theorem resetFrames_write (h : i ∈ resetFrames) :
    replyWidth i = none ∧ ∀ s : State, s.awaits i = true → s.issues i = true := by
  simp only [resetFrames, List.mem_cons, List.not_mem_nil, or_false] at h
  obtain rfl | rfl | rfl | rfl | rfl | rfl | rfl := h <;> exact ⟨rfl, fun s h => by simp [State.issues, h]⟩

/-- What a frame without a reply puts on the wire when `INIT` sends it. -/
def writeActs (i : Instr) : List Act := .issue (channelOf i) :: (wire .init i).map .tx

/-- Frames without a reply are sent one after the other, one in each step (R36). -/
theorem init_frames (his : ∀ i ∈ is, replyWidth i = none ∧ ∀ s : State, s.awaits i = true → s.issues i = true)
    (h : Handshaking (is.map .frame ++ k :: rest) bs s) :
    ∃ t es bs', Runs is.length s es t ∧ Handshaking (k :: rest) bs' t ∧ acts es = is.flatMap writeActs := by
  induction is generalizing s bs with
  | nil => exact ⟨s, [], bs, .refl s, h, rfl⟩
  | cons i is ih =>
    obtain ⟨⟨hreply, hissues⟩, his⟩ := List.forall_mem_cons.mp his
    obtain ⟨j, left, hleft⟩ : ∃ j left, is.map .frame ++ k :: rest = j :: left :=
      List.exists_cons_of_ne_nil (by simp)
    rw [List.map_cons, List.cons_append, hleft] at h
    obtain ⟨u, es, bs', hruns, hnext, hacts, -⟩ := init_frame h (hissues s)
    rw [← hleft] at hnext
    obtain ⟨t, fs, bs'', hruns', hlast, hacts'⟩ := ih his hnext
    refine ⟨t, es ++ fs, bs'', ?_, hlast, ?_⟩
    · rw [List.length_cons, Nat.add_comm]
      exact hruns.trans hruns'
    · simp [hacts, hacts', frameActs, hreply, writeActs]

/-! ### A peer that does not acknowledge -/

/-- `INIT` is at one of the three steps of its loop, and no reply that has been read or is scripted acknowledges (R167). -/
def Failing (s : State) : Prop :=
  (∀ r ∈ s.env.replies, r ≠ 0xCA#8) ∧
    ((∃ bs, Handshaking handshakeTasks bs s) ∨ (∃ r, r ≠ 0xCA#8 ∧ Handshaking [.testAck] [r] s) ∨
      ∃ bs, Handshaking retryTasks bs s)

theorem Failing.busy (h : Failing s) : ∃ b, s.seq = .busy b ∧ b.op = .init := by
  obtain ⟨-, ⟨_, -, -, b, hs, hop, -⟩ | ⟨_, -, -, -, b, hs, hop, -⟩ | ⟨_, -, -, b, hs, hop, -⟩⟩ := h <;>
    exact ⟨b, hs, hop⟩

/-- The loop goes on by one step, which reads at most one of the replies. -/
theorem Failing.goes_on (h : Failing s) (hne : s.env.replies ≠ []) :
    ∃ t es, Runs 1 s es t ∧ Failing t ∧ s.env.replies.length ≤ t.env.replies.length + 1 := by
  obtain ⟨hfails, ⟨bs, hloop⟩ | ⟨r, hr, hloop⟩ | ⟨bs, hloop⟩⟩ := h
  · obtain ⟨r, more, hreplies⟩ := List.exists_cons_of_ne_nil hne
    obtain ⟨t, es, hruns, hafter, -, hdrop⟩ := init_reads hloop (incoming_one hreplies)
    have hr : r ≠ 0xCA#8 := hfails r (hreplies ▸ List.mem_cons_self)
    refine ⟨t, es, hruns, ⟨fun q hq => hfails q ?_, .inr (.inl ⟨r, hr, hafter⟩)⟩, ?_⟩
    · exact List.mem_of_mem_drop (hdrop ▸ hq)
    · simp [hdrop, hreplies]
  · obtain ⟨t, hruns, hnext, hsame⟩ := init_tests hloop
    rw [if_neg hr] at hnext
    exact ⟨t, [], hruns, ⟨hsame ▸ hfails, .inr (.inr ⟨_, hnext⟩)⟩, by rw [hsame]; exact Nat.le_succ _⟩
  · obtain ⟨t, hruns, hnext, hsame, -⟩ := init_pauses hloop
    exact ⟨t, [], hruns, ⟨hsame ▸ hfails, .inl ⟨_, hnext⟩⟩, by rw [hsame]; exact Nat.le_succ _⟩

/-- The loop goes on for as many steps as there are replies, and longer. -/
theorem Failing.runs (h : Failing s) (hn : n ≤ s.env.replies.length) : ∃ t es, Runs n s es t ∧ Failing t := by
  induction n generalizing s with
  | zero => exact ⟨s, [], .refl s, h⟩
  | succ n ih =>
    obtain ⟨u, es, hone, hu, hleft⟩ := h.goes_on (List.ne_nil_of_length_pos (by omega))
    obtain ⟨t, fs, hruns, ht⟩ := ih hu (by omega)
    exact ⟨t, _, Nat.add_comm 1 n ▸ hone.trans hruns, ht⟩

/-! ### The obligations -/

/-- Settles O49: the request is accepted, one attempt succeeds, the seven frames are sent, and the last step sets `ready`. -/
theorem initSendsTheResetSequence : Obligations.InitSendsTheResetSequence := by
  intro s hs hlive hp hack
  obtain ⟨s₁, hbegin, hloop, henv⟩ := init_begins hs hlive hp
  have hack₁ : s₁.incoming 1 = [0xCA#8] := by rw [State.incoming, henv]; exact hack
  obtain ⟨s₂, es, hattempt, hreset, hacts, -⟩ := init_attempts hloop hack₁
  rw [if_pos rfl, resetTasks_eq] at hreset
  obtain ⟨s₃, fs, bs, hframes, hlast, hacts'⟩ := init_frames (fun _ => resetFrames_write) hreset
  obtain ⟨t, hend, hidle, hready, hport, hanswer, htrace, hspeeds⟩ := init_ends hlast
  have hruns : Runs 10 s (es ++ fs) s₃ := (hbegin.trans hattempt).trans hframes
  have hspeed : ∀ m, t.lastSpeed m = s.lastSpeed m := fun m => (hspeeds m).trans (hruns.carries.speeds m)
  refine ⟨t, ?_, hidle, hready, hport, hanswer, hspeed .m1, hspeed .m2, ?_⟩
  · rw [run_add 10 1 hruns.run, run_succ 0 hend, run_zero]
  · rw [since_eq (htrace.trans hruns.trace), acts_append, hacts, hacts', ← Encoding.length_displayChars]
    simp [attemptActs, resetFrames, writeActs, channelOf, wire, encode, writeFrame, displayFrame, displayChars, fillFlag]

/-- Settles O50: the request is accepted, and `init_reads_until_ack` says what follows. -/
theorem initReadsUntilAcknowledged : Obligations.InitReadsUntilAcknowledged := by
  intro s fails more hs hlive hp hreplies hfails
  obtain ⟨u, hbegin, hloop, henv⟩ := init_begins hs hlive hp
  obtain ⟨t, es, bs, hruns, ⟨-, -, b, hseq, hop, hmicros, htodo, -⟩, hacts, hspaced⟩ :=
    init_reads_until_ack hfails hloop (henv ▸ hreplies)
  have hall : Runs (3 * fails.length + 3) s es t := Nat.add_comm 1 _ ▸ hbegin.trans hruns
  exact ⟨t, b, hall.run, hseq, hop, hmicros, htodo, hall.carries.ready, hall.since ▸ hacts, hall.since ▸ hspaced⟩

/-- Settles O51: the request is accepted, and the loop goes on for as many steps as there are failing replies. -/
theorem initNeverGivesUp : Obligations.InitNeverGivesUp := by
  intro s n hs hlive hp hn hfails
  obtain ⟨u, hbegin, hloop, henv⟩ := init_begins hs hlive hp
  have hfailing : Failing u := ⟨henv ▸ hfails, .inl ⟨_, hloop⟩⟩
  obtain ⟨t, es, hruns, ht⟩ := hfailing.runs (henv ▸ hn)
  obtain ⟨b, hseq, hop⟩ := ht.busy
  have hall : Runs (n + 1) s es t := Nat.add_comm 1 n ▸ hbegin.trans hruns
  exact ⟨t, b, hall.run, hseq, hop, hall.carries.ready⟩

end Sys2Proof.Proofs.Handshake
end

section
/-! ## Proofs: what is refused, and that nothing else is -/

namespace Sys2Proof.Proofs.Refusals

open Sys2Proof Sys2Proof.Machine

variable {s : State} {b : Busy} {i : Instr} {e : Refusal} {req : Request} {v : Int}

/-! ### A busy block -/

theorem step_request_busy (hp : s.port = some req) (hs : s.seq = .busy b) : step s = .refused .busy := by
  simp only [step, hp, hs]

/-- Of the four names an instruction is refused by, two belong to an idle block and one to a frame the operation has come
to (R187). -/
theorem exec_of_not_awaits (hs : s.seq = .busy b) (hawaits : b.awaits i = false) : exec i s = .refused .busy := by
  have hnot : s.awaits i = false := by simp only [State.awaits, hs, hawaits]
  have hbusy : s.seq ≠ .idle := by simp [hs]
  have haccepts : s.accepts i = false := by simp [State.accepts, hs]
  have hissues : s.issues i = false := by simp [State.issues, hnot]
  obtain ⟨r, hexec, ⟨rfl, -⟩ | ⟨-, hidle⟩ | ⟨-, hidle⟩ | ⟨-, hawaits'⟩⟩ := exec_refused haccepts hissues
  · exact hexec
  · exact absurd hidle hbusy
  · exact absurd hidle hbusy
  · rw [hnot] at hawaits'; cases hawaits'

/-- Settles O8: a request is refused before anything of it is looked at, an instruction where it finds the sequencer busy. -/
theorem busyBlockRefuses : Obligations.BusyBlockRefuses :=
  fun _ _ hs => ⟨fun _ hp => step_request_busy hp hs, fun _ hawaits => exec_of_not_awaits hs hawaits⟩

/-! ### Operands that are not of their type -/

theorem byteOf_out_of_range (h : v < 0 ∨ 255 < v) : byteOf v = none :=
  if_neg (by omega)

/-- One element that is no byte spoils the whole text. -/
theorem bytesOfInts_out_of_range {text : List Int} (h : ∃ v ∈ text, v < 0 ∨ 255 < v) : bytesOfInts text = none := by
  induction text with
  | nil => simp at h
  | cons w text ih =>
    rw [List.exists_mem_cons_iff] at h
    rcases h with hhead | htail
    · simp only [bytesOfInts, byteOf_out_of_range hhead]
    · cases hw : byteOf w <;> simp only [bytesOfInts, hw, ih htail]

theorem ledInstr_out_of_range {k : Nat} (h : k < 1 ∨ 4 < k) (r g b : Byte) : ledInstr k r g b = none := by
  rcases h with hlow | hhigh
  · obtain rfl : k = 0 := Nat.lt_one_iff.mp hlow
    rfl
  · exact if_pos hhigh

theorem motorOf_other {m : Nat} (h1 : m ≠ 1) (h2 : m ≠ 2) : motorOf m = none := by
  by_cases hhigh : 2 < m
  · exact if_pos hhigh
  · obtain rfl : m = 0 := by omega
    rfl

/-- An LED request whose number or one of whose components is out of range stands for no operation. -/
theorem operation_led_badOperand {k : Nat} {r g b : Int}
    (h : k < 1 ∨ 4 < k ∨ r < 0 ∨ 255 < r ∨ g < 0 ∨ 255 < g ∨ b < 0 ∨ 255 < b) :
    (Request.led k r g b).operation = .error .badOperand := by
  have hcases : (k < 1 ∨ 4 < k) ∨ (r < 0 ∨ 255 < r) ∨ (g < 0 ∨ 255 < g) ∨ (b < 0 ∨ 255 < b) := by omega
  simp only [Request.operation]
  split
  case h_1 r' g' b' hr hg hb =>
    obtain hk | hcomponent := hcases
    · rw [ledInstr_out_of_range hk]
    · rcases hcomponent with h | h | h <;> simp [byteOf_out_of_range h] at hr hg hb
  case h_2 => rfl

/-- Settles O11: a request with such an operand stands for no operation, so an idle block refuses it. -/
theorem badOperandsRefused : Obligations.BadOperandsRefused := by
  refine fun s hs => ⟨fun k r g b hp h => ?_, fun t hp h => ?_, fun text hp h => ?_, fun m v hp h1 h2 => ?_⟩
  · exact CommandCodec.step_of_operation_error hs (operation_led_badOperand h) hp
  · rcases hp with hp | hp <;>
      exact CommandCodec.step_of_operation_error hs (by simp only [Request.operation, byteOf_out_of_range h]) hp
  · exact CommandCodec.step_of_operation_error hs (by simp only [Request.operation, bytesOfInts_out_of_range h]) hp
  · exact CommandCodec.step_of_operation_error hs (by simp only [Request.operation, motorOf_other h1 h2]) hp

/-! ### An operation on its plan goes on -/

/-- The frames an operation on its plan comes to: those of `SETSPEED` and of `INIT` (R151, R152, R166, R168). -/
theorem onPlan_frame {rest : List Task} (h : b.onPlan = true) (ht : b.todo = .frame i :: rest) :
    i = .wrBrake none ∨ i = .rdTest ∨ i ∈ Handshake.resetFrames ∨ ∃ m v, i = speedInstr m (clampSpeed v) := by
  obtain ⟨m, v, -, hsuffix⟩ | ⟨-, hsuffix | hsuffix⟩ := Invariant.onPlan_todo_cons h ht
  all_goals have hmem := hsuffix.subset List.mem_cons_self
  · have hguard : i = .wrBrake none ∨ i = speedInstr m (clampSpeed v) := by
      simpa [brakeTasks, speedTasks] using hmem
    exact hguard.imp_right fun hspeed => .inr (.inr ⟨m, v, hspeed⟩)
  · have hread : i = .rdTest := by simpa [retryTasks, handshakeTasks] using hmem
    exact .inr (.inl hread)
  · have hreset : i ∈ Handshake.resetFrames := by simpa [Handshake.resetTasks_eq] using hmem
    exact .inr (.inr (.inl hreset))

/-- Each of them is performed: no brake frame carries a given payload, and every speed is clamped (R135, R137, R150). -/
theorem issues_of_onPlan {rest : List Task} (hs : s.seq = .busy b) (h : b.onPlan = true) (hmicros : b.micros = [])
    (ht : b.todo = .frame i :: rest) : s.issues i = true := by
  have hawaits := WriteRegisters.awaits_of_todo hs hmicros ht
  obtain rfl | rfl | hreset | ⟨m, v, rfl⟩ := onPlan_frame h ht
  · simp [State.issues, hawaits]
  · simp [State.issues, hawaits]
  · exact (Handshake.resetFrames_write hreset).2 s hawaits
  · cases m <;> simpa [State.issues, speedInstr, clampSpeed_inRange] using hawaits

/-- A busy block on its plan always goes on: its only step that could be refused is a frame. -/
theorem advance_answers (hs : s.seq = .busy b) (h : b.onPlan = true) : ∃ t, advance b s = .next t := by
  cases hmicros : b.micros with
  | cons m ms => cases hstep : microStep m b s <;> simp [advance, hmicros, hstep]
  | nil =>
    cases htodo : b.todo with
    | nil => simp [advance, hmicros, htodo]
    | cons k rest =>
      cases k with
      | frame i =>
        rw [Frames.advance_frame hmicros htodo]
        exact StuckFrames.exec_answers (.inr (issues_of_onPlan hs h hmicros htodo))
      | delay | record | testAck | markReady => simp [advance, hmicros, htodo]

/-- With no request at the port nothing is refused (R190). -/
theorem step_answers_without_request (hinv : s.Inv) (hp : s.port = none) : ∃ t, step s = .next t := by
  cases hs : s.seq with
  | idle => exact ⟨s.tick, by simp only [step, hp, hs]⟩
  | busy b =>
    rw [step_busy hp hs]
    exact advance_answers hs (Invariant.onPlan_of_Inv hinv hs).1

/-! ### An idle block -/

/-- The names an idle block refuses a request by (R186; R58, log 20). -/
def requestReasons : List Refusal :=
  [.unknownReadOpcode, .unknownWriteOpcode, .badPayloadShape, .motorWriteBypassesGuard, .badOperand, .notAFrame,
    .badDisplayLength]

theorem ne_busy_of_mem (h : e ∈ requestReasons) : e ≠ .busy := by
  rintro rfl; simp [requestReasons] at h

theorem ne_notModelled_of_mem (h : e ∈ requestReasons) (mnemonic : String) : e ≠ .notModelled mnemonic := by
  rintro rfl; simp [requestReasons] at h

theorem refusalOf_mem (d : DecodeError) : refusalOf d ∈ requestReasons := by
  cases d <;> decide

/-- A read opcode's instruction is a read. -/
theorem readOpcode_of_readInstr {op : Byte} (h : readInstr op = some i) : readOpcode i = some op := by
  have hkey : ∀ op : Byte, ∀ i ∈ readInstr op, readOpcode i = some op := by decide
  exact hkey op i h

/-- What a request can stand for: nothing, by one of `requestReasons`; a single frame; a read for `sendRead`; `SETSPEED` with
the clamped speed; `INIT` (R60, R186). -/
inductive Judged : Except Refusal Operation → Prop where
  | refused {e : Refusal} (h : e ∈ requestReasons) : Judged (.error e)
  | instr (i : Instr) : Judged (.ok (.instr i))
  | sendRead {i : Instr} {op : Byte} (h : readOpcode i = some op) : Judged (.ok (.sendRead i))
  | setSpeed (m : Motor) (v : Int) : Judged (.ok (.setSpeed m v (clampSpeed v)))
  | init : Judged (.ok .init)

theorem operation_judged (req : Request) : Judged req.operation := by
  have hoperand : Judged (.error .badOperand) := .refused (by decide)
  cases req
  case brake | fill => exact .instr _
  case init => exact .init
  case frame | sendWrite =>
    simp only [Request.operation]
    split
    · exact .instr _
    · exact .refused (refusalOf_mem _)
  case sendRead =>
    simp only [Request.operation]
    split
    case h_1 hread => exact .sendRead (readOpcode_of_readInstr hread)
    case h_2 => exact .refused (by decide)
  case led =>
    simp only [Request.operation]
    split
    · split
      · exact .instr _
      · exact hoperand
    · exact hoperand
  case colorCal | encRst | display =>
    simp only [Request.operation]
    split
    · exact .instr _
    · exact hoperand
  case setSpeed =>
    simp only [Request.operation]
    split
    · exact .setSpeed _ _
    · exact hoperand

/-- An idle block refuses an instruction as a bypass of the guard or for its payload (R156, R186). -/
theorem exec_refused_idle (hs : s.seq = .idle) (h : exec i s = .refused e) : e ∈ requestReasons := by
  have hnot : s.awaits i = false := by simp only [State.awaits, hs]
  have haccepts : s.accepts i = false := by
    refine Bool.eq_false_iff.mpr fun hyes => ?_
    cases (exec_of_accepts hyes).2.symm.trans h
  have hissues : s.issues i = false := by simp [State.issues, hnot]
  obtain ⟨r, hexec, hname⟩ := exec_refused haccepts hissues
  obtain rfl : r = e := Host.Outcome.refused.inj (hexec.symm.trans h)
  obtain ⟨-, hbusy⟩ | ⟨rfl, -⟩ | ⟨rfl, -⟩ | ⟨-, hawaits⟩ := hname
  · exact absurd hs hbusy
  · decide
  · decide
  · rw [hnot] at hawaits; cases hawaits

/-- The read an accepted `sendRead` begins with is performed (R86). -/
theorem exec_sendRead_answers {op : Byte} (h : readOpcode i = some op) (s : State) :
    ∃ t, exec i (beginOp (.sendRead i) [.frame i] s) = .next t := by
  obtain ⟨-, -, hissues⟩ := read_frame h
  exact StuckFrames.exec_answers (.inr (hissues _ (CommandCodec.awaits_beginOp _ i [] s)))

/-- Accepting refuses where the request stands for no operation, or where its single frame is refused; an operation of
several steps, and the read of `sendRead`, begin. -/
theorem accept_refused (hs : s.seq = .idle) (h : accept req s = .refused e) : e ∈ requestReasons := by
  have hjudged := operation_judged req
  unfold accept at h
  generalize req.operation = judged at h hjudged
  cases hjudged with
  | refused hmem => cases h; exact hmem
  | instr i => exact exec_refused_idle hs h
  | sendRead hread =>
    obtain ⟨t, hnext⟩ := exec_sendRead_answers hread s
    cases hnext.symm.trans h
  | setSpeed | init => cases h

/-- Settles O9: with no request a step answers next; a request is refused as `busy` by a busy block, and by one of
`requestReasons` by an idle one. -/
theorem refusalsOnlyForRequests : Obligations.RefusalsOnlyForRequests := by
  refine fun s hinv => ⟨step_answers_without_request hinv, fun e h => ?_⟩
  cases hp : s.port with
  | none =>
    obtain ⟨t, hnext⟩ := step_answers_without_request hinv hp
    cases hnext.symm.trans h
  | some req =>
    refine ⟨Option.some_ne_none req, ?_⟩
    cases hs : s.seq with
    | idle =>
      rw [step_request hp hs] at h
      have hmem : e ∈ requestReasons := accept_refused (s := s.withdraw) hs h
      exact ⟨⟨fun hbusy => absurd hbusy (ne_busy_of_mem hmem), fun hne => absurd rfl hne⟩, ne_notModelled_of_mem hmem⟩
    | busy b =>
      rw [step_request_busy hp hs] at h
      cases h
      exact ⟨⟨fun _ => by simp, fun _ => rfl⟩, fun _ => Refusal.noConfusion⟩

end Sys2Proof.Proofs.Refusals
end
